-- ==== Sys2Proof/Word.lean ====
section
/-! DEFINITION. Word types of the block: bytes, command words and their fields, and the binary32 and
binary64 numbers of 00_scope.md R14. The operations on numbers are in Machine/Float.lean. -/

namespace Sys2Proof

/-- One byte of a byte-wide transport (20_memory.md R62, R64). -/
abbrev Byte := BitVec 8

/-- A command word `CW` (30_encoding.md R92). -/
abbrev CmdWord := BitVec 64

/-- The operand field `VAL`, `w[31:0]` (30_encoding.md R92). -/
abbrev Val := BitVec 32

/-- The index field `IDX`, `w[39:32]` (30_encoding.md R92). -/
abbrev Idx := BitVec 8

/-- An IEEE 754 binary interchange format.  The magnitude code of a number is its bit pattern without
the sign bit, read as a natural number: codes below `top` are the finite magnitudes in rising order,
`top` itself is infinity's.  The smallest positive magnitude is `2 ^ (-unit)`. -/
structure Format where
  fracBits : Nat
  unit : Nat
  top : Nat
deriving DecidableEq, Repr

/-- binary32, the format of a buffer's samples (00_scope.md R12, 20_memory.md R61). -/
@[reducible] def binary32 : Format := ⟨23, 149, 0x7F800000⟩

/-- binary64, the format of `R` under `NUM_F64` (00_scope.md R14). -/
@[reducible] def binary64 : Format := ⟨52, 1074, 0x7FF0000000000000⟩

/-- A number of format `f`.  A NaN carries no sign and no payload: the spec leaves both at "any value"
(93_implementation_defined.md U3, U6), so the state does not hold them; where a NaN is turned into bits
they are free values (assumption log 2). -/
inductive Fl (f : Format) where
  | nan
  | inf (neg : Bool)
  | fin (neg : Bool) (code : Fin f.top)
deriving DecidableEq, Repr, Inhabited

/-- `binary32`, the element type of buffers. -/
abbrev F32 := Fl binary32

/-- `R` under `NUM_F64` (00_scope.md R14). -/
abbrev F64 := Fl binary64

/-- A finite number given by its sign and any natural number taken as a magnitude code, reduced below
infinity's.  Every finite binary64 number is reached. -/
def F64.ofCode (neg : Bool) (code : Nat) : F64 :=
  .fin neg ⟨code % binary64.top, Nat.mod_lt _ (by decide)⟩

/-- `N`, the samples of a buffer (00_scope.md R10). -/
abbrev bufferLen : Nat := 256

/-- A SampleBuffer or ControlBuffer: "Invariant: length is always exactly 256" (20_memory.md R61). -/
abbrev Buffer := Vector F32 bufferLen

end Sys2Proof
end

