-- ==== Sys2Proof/Syntax.lean ====
section
/-! DEFINITION. The commands of 30_encoding.md R93, one constructor per row of spec/opcode_table.json.
An operand is kept as the bits the word carries: whether it is well formed is R98's question
(WellFormed.lean), whether it is legal R99's (Machine/Operands.lean). -/

namespace Sys2Proof

/-- A decoded command.  Fields the opcode ignores (RSV always, IDX and VAL where R93 says so) are not
part of it. -/
inductive Instr where
  /-- `FREQ v` (41_oscillator.md R131). -/
  | freq (val : Val)
  /-- `LFO v` (41_oscillator.md R132). -/
  | lfo (val : Val)
  /-- `DEPTH v` (41_oscillator.md R134). -/
  | depth (val : Val)
  /-- `ATTACK v` (42_envelope.md R161). -/
  | attack (val : Val)
  /-- `DECAY v` (42_envelope.md R162). -/
  | decay (val : Val)
  /-- `SUSTAIN v` (42_envelope.md R163). -/
  | sustain (val : Val)
  /-- `SUSTIME v` (42_envelope.md R164). -/
  | susTime (val : Val)
  /-- `RELEASE v` (42_envelope.md R165). -/
  | release (val : Val)
  /-- `TRIGGER` (42_envelope.md R166). -/
  | trigger
  /-- `SEQ_GATE idx, b` (44_sequencer.md R199). -/
  | seqGate (idx : Idx) (val : Val)
  /-- `SEQ_NOTE idx, n` (44_sequencer.md R200). -/
  | seqNote (idx : Idx) (val : Val)
  /-- `SEQONOFF b` (44_sequencer.md R201). -/
  | seqOnOff (val : Val)
  /-- `BPM v` (44_sequencer.md R202). -/
  | bpm (val : Val)
  /-- `SEQ_RESUME` (44_sequencer.md R203). -/
  | seqResume
  /-- `SEQ_SUSPEND` (44_sequencer.md R204). -/
  | seqSuspend
  /-- `SEQ_RESET` (44_sequencer.md R206). -/
  | seqReset
deriving DecidableEq, Repr

end Sys2Proof
end

