-- ==== Sys2Proof/WellFormed.lean ====
section
/-! DEFINITION. Well-formed operands, the checks of 30_encoding.md R94 and R95 on the bits a command
carries.  A malformed operand makes the command a no-op (R98); it is no fault. -/

namespace Sys2Proof

/-- F32: "well-formed when `v` is finite (exponent field not all ones)" (30_encoding.md R94). -/
def f32WellFormed (v : Val) : Bool := v.extractLsb' 23 8 != 0xFF#8

/-- BOOL: `VAL = 0` or `VAL = 1` (30_encoding.md R94). -/
def boolWellFormed (v : Val) : Bool := v == 0#32 || v == 1#32

/-- NOTE: `VAL` in `0..127` (30_encoding.md R94). -/
def noteWellFormed (v : Val) : Bool := decide (v.toNat ≤ 127)

/-- Index: "well-formed when `idx <= 15`" (30_encoding.md R95). -/
def indexWellFormed (i : Idx) : Bool := decide (i.toNat ≤ 15)

/-- Every operand the opcode uses is well formed (30_encoding.md R94, R95). -/
def Instr.wellFormed : Instr → Bool
  | .freq v => f32WellFormed v
  | .lfo v => f32WellFormed v
  | .depth v => f32WellFormed v
  | .attack v => f32WellFormed v
  | .decay v => f32WellFormed v
  | .sustain v => f32WellFormed v
  | .susTime v => f32WellFormed v
  | .release v => f32WellFormed v
  | .trigger => true
  | .seqGate i v => indexWellFormed i && boolWellFormed v
  | .seqNote i v => indexWellFormed i && noteWellFormed v
  | .seqOnOff v => boolWellFormed v
  | .bpm v => f32WellFormed v
  | .seqResume => true
  | .seqSuspend => true
  | .seqReset => true

end Sys2Proof
end

