-- ==== Sys2Proof/Decode.lean ====
section
/-! DEFINITION. The command decoder of 30_encoding.md R92, R93, R96 and, after it, the encoder. -/

namespace Sys2Proof

/-- Why a word or a byte sequence is no command. -/
inductive Reject where
  /-- An `OPC` value R93 does not assign; the block ignores such a word (30_encoding.md R97). -/
  | unassigned (opc : BitVec 8)
  /-- Fewer than the eight bytes of a command word (20_memory.md R64, R65); no word has arrived yet. -/
  | truncated (got : Nat)
deriving DecidableEq, Repr

/-- `OPC`, `w[63:56]` (30_encoding.md R92). -/
def CmdWord.opc (w : CmdWord) : BitVec 8 := w.extractLsb' 56 8

/-- `RSV`, `w[55:40]`, ignored by the decoder (30_encoding.md R92). -/
def CmdWord.rsv (w : CmdWord) : BitVec 16 := w.extractLsb' 40 16

/-- `IDX`, `w[39:32]` (30_encoding.md R92). -/
def CmdWord.idx (w : CmdWord) : Idx := w.extractLsb' 32 8

/-- `VAL`, `w[31:0]` (30_encoding.md R92). -/
def CmdWord.val (w : CmdWord) : Val := w.extractLsb' 0 32

/-- Decode one command word: `OPC` alone selects the command (30_encoding.md R93), `RSV` and the unused
fields are dropped, and an unassigned `OPC` is rejected by name (R97). -/
def decodeWord (w : CmdWord) : Except Reject Instr :=
  match (CmdWord.opc w).toNat with
  | 0x01 => .ok (.freq (CmdWord.val w))
  | 0x02 => .ok (.lfo (CmdWord.val w))
  | 0x03 => .ok (.depth (CmdWord.val w))
  | 0x04 => .ok (.attack (CmdWord.val w))
  | 0x05 => .ok (.decay (CmdWord.val w))
  | 0x06 => .ok (.sustain (CmdWord.val w))
  | 0x07 => .ok (.susTime (CmdWord.val w))
  | 0x08 => .ok (.release (CmdWord.val w))
  | 0x09 => .ok .trigger
  | 0x0A => .ok (.seqGate (CmdWord.idx w) (CmdWord.val w))
  | 0x0B => .ok (.seqNote (CmdWord.idx w) (CmdWord.val w))
  | 0x0C => .ok (.seqOnOff (CmdWord.val w))
  | 0x0D => .ok (.bpm (CmdWord.val w))
  | 0x10 => .ok .seqResume
  | 0x11 => .ok .seqSuspend
  | 0x12 => .ok .seqReset
  | _ => .error (.unassigned (CmdWord.opc w))

/-- Whether the opcode uses the index field (30_encoding.md R93). -/
def Instr.usesIdx : Instr → Bool
  | .seqGate _ _ => true
  | .seqNote _ _ => true
  | .freq _ => false
  | .lfo _ => false
  | .depth _ => false
  | .attack _ => false
  | .decay _ => false
  | .sustain _ => false
  | .susTime _ => false
  | .release _ => false
  | .trigger => false
  | .seqOnOff _ => false
  | .bpm _ => false
  | .seqResume => false
  | .seqSuspend => false
  | .seqReset => false

/-- Whether the opcode uses the operand field (30_encoding.md R93, R94). -/
def Instr.usesVal : Instr → Bool
  | .trigger => false
  | .seqResume => false
  | .seqSuspend => false
  | .seqReset => false
  | .freq _ => true
  | .lfo _ => true
  | .depth _ => true
  | .attack _ => true
  | .decay _ => true
  | .sustain _ => true
  | .susTime _ => true
  | .release _ => true
  | .seqGate _ _ => true
  | .seqNote _ _ => true
  | .seqOnOff _ => true
  | .bpm _ => true

/-- The eight bytes of a word on a byte-wide transport, little-endian: "byte 0 is bits `[7:0]`"
(20_memory.md R64). -/
def wordBytes (w : CmdWord) : List Byte :=
  [w.extractLsb' 0 8, w.extractLsb' 8 8, w.extractLsb' 16 8, w.extractLsb' 24 8,
    w.extractLsb' 32 8, w.extractLsb' 40 8, w.extractLsb' 48 8, w.extractLsb' 56 8]

/-- The word that eight little-endian bytes carry (20_memory.md R64). -/
def wordOfBytes (b0 b1 b2 b3 b4 b5 b6 b7 : Byte) : CmdWord :=
  b7 ++ b6 ++ b5 ++ b4 ++ b3 ++ b2 ++ b1 ++ b0

/-- Decode the command at the head of a byte sequence and give the bytes after it; total on any bytes.
Every command is 64 bits long (30_encoding.md R92). -/
def decode : List Byte → Except Reject (Instr × List Byte)
  | b0 :: b1 :: b2 :: b3 :: b4 :: b5 :: b6 :: b7 :: rest =>
    match decodeWord (wordOfBytes b0 b1 b2 b3 b4 b5 b6 b7) with
    | .ok i => .ok (i, rest)
    | .error e => .error e
  | short => .error (.truncated short.length)

/-- The command word whose bits are those of `w` numbered as spec/opcode_table.json numbers them, of
which the table gives the lowest `nbits`; the bits above are 0. -/
def tableWord (nbits w : Nat) : CmdWord := BitVec.ofNat 64 (w % 2 ^ nbits)

/-- What the decoder reads from the instruction with the table's bits `w`, laid out as the hardware
carries it (little-endian bytes, 20_memory.md R64). -/
def decodeTableWord (nbits w : Nat) : Option Instr :=
  match decode (wordBytes (tableWord nbits w)) with
  | .ok (i, _) => some i
  | .error _ => none

/-- A word from its fields, `RSV` sent as 0 (30_encoding.md R92, R100). -/
def packWord (opc : BitVec 8) (idx : Idx) (val : Val) : CmdWord :=
  opc ++ 0#16 ++ idx ++ val

/-- The word of a command: "`RSV` is sent as 0 and, for opcodes that ignore them, `IDX` and `VAL` are
sent as 0" (30_encoding.md R100). -/
def encode : Instr → CmdWord
  | .freq v => packWord 0x01#8 0#8 v
  | .lfo v => packWord 0x02#8 0#8 v
  | .depth v => packWord 0x03#8 0#8 v
  | .attack v => packWord 0x04#8 0#8 v
  | .decay v => packWord 0x05#8 0#8 v
  | .sustain v => packWord 0x06#8 0#8 v
  | .susTime v => packWord 0x07#8 0#8 v
  | .release v => packWord 0x08#8 0#8 v
  | .trigger => packWord 0x09#8 0#8 0#32
  | .seqGate i v => packWord 0x0A#8 i v
  | .seqNote i v => packWord 0x0B#8 i v
  | .seqOnOff v => packWord 0x0C#8 0#8 v
  | .bpm v => packWord 0x0D#8 0#8 v
  | .seqResume => packWord 0x10#8 0#8 0#32
  | .seqSuspend => packWord 0x11#8 0#8 0#32
  | .seqReset => packWord 0x12#8 0#8 0#32

end Sys2Proof
end

