-- ==== Sys2Proof/Event.lean ====
section
/-! DEFINITION. The event alphabet of 00_scope.md R8: what the environment and the scheduler of the block
can make happen next. -/

namespace Sys2Proof

/-- The events of 00_scope.md R8.  Each is one atomic transition (20_memory.md R66). -/
inductive Event where
  /-- `RESET` (70_reset_and_hazards.md R260). -/
  | reset
  /-- `CMD(w)`: apply the command word `w` (30_encoding.md R96). -/
  | cmd (w : CmdWord)
  /-- `TICK(now)`: one tick of the sequencer's timer at `now` milliseconds (44_sequencer.md R191). -/
  | tick (now : Int)
  /-- `PRODUCE(LFO)` (41_oscillator.md R135). -/
  | produceLfo
  /-- `PRODUCE(EG)` (42_envelope.md R160). -/
  | produceEg
  /-- `PRODUCE(VCO, acc)`, `acc` the consumer's answer (41_oscillator.md R136). -/
  | produceVco (acc : Bool)
  /-- `PACE(LFO)` (40_control_channel.md R123). -/
  | paceLfo
  /-- `PACE(EG)` (40_control_channel.md R123). -/
  | paceEg
  /-- `READY` (41_oscillator.md R137). -/
  | ready
  /-- `STATUS` (10_state.md R41). -/
  | status
deriving DecidableEq, Repr, Inhabited

end Sys2Proof
end

