-- ==== Sys2Proof/Config.lean ====
section
/-! DEFINITION. The implementation parameters of 00_scope.md R11 and the model's free values.  An
`opaque` constant has no body: nothing can be proved of it, so a theorem holds for every value of it. -/

namespace Sys2Proof

/-! ## Open parameters (00_scope.md R11) -/

/-- What `Config.gain` is made of (43_gain_stage.md R181; assumption log 5). -/
opaque Config.gainRaw : Bool × Nat

/-- `GAIN`, the static gain, any finite number (43_gain_stage.md R181; assumption log 5). -/
def Config.gain : F64 := F64.ofCode Config.gainRaw.1 Config.gainRaw.2

/-- What `Config.ccDepth` is made of (40_control_channel.md R121; assumption log 6). -/
opaque Config.ccDepthRaw : Option Nat

/-- `CC_DEPTH`: `none` is `INF`, `some n` a positive natural number (40_control_channel.md R121;
assumption log 6). -/
def Config.ccDepth : Option Nat := Config.ccDepthRaw.map (· + 1)

/-- What `Config.noteFreq` is made of (44_sequencer.md R205; assumption log 4). -/
opaque Config.noteFreqRaw : Fin 128 → Bool × Nat

/-- `NOTE_FREQ`, "a configuration table the model takes as an argument, every entry finite"
(44_sequencer.md R205; assumption log 4). -/
def Config.noteFreq (n : Fin 128) : F64 :=
  F64.ofCode (Config.noteFreqRaw n).1 (Config.noteFreqRaw n).2

/-- The sign and magnitude `SIN2PI` is made of at each argument (00_scope.md R15; assumption log 3). -/
opaque Config.sinFree : F64 → Bool × Nat

/-! ## Free values -/

/-- The event that happens when the ports present none: any event of R8, since "which event happens next
is not fixed by the block" (00_scope.md R9; assumption log 8). -/
opaque Config.freeEvent : Nat → Event

/-- The bits a NaN takes at each position of the audio stream (20_memory.md R63, U6; assumption log 2). -/
opaque Config.nanAudio : Nat → Val

/-- The bits a NaN would take at each position of the stream of status words (U6; assumption log 16). -/
opaque Config.nanStatus : Nat → Val

/-! ## Reset parameters (10_state.md R40) -/

/-- The `RESET_*` parameters of 10_state.md R35 and R40. -/
structure ResetParams where
  freq : F64
  lfo : F64
  depth : F64
  attack : F64
  decay : F64
  sustain : F64
  susTime : F64
  release : F64
  bpm : F64
  note : Fin 128
deriving DecidableEq, Repr

/-- The decided defaults of 10_state.md R35: 440, 1, 0, 10, 100, 0.5, 100, 100, 120 and note 69, each
written as its binary64 magnitude code (assumption log 7). -/
def Config.resetParams : ResetParams where
  freq := .fin false ⟨0x407B800000000000, by decide⟩
  lfo := .fin false ⟨0x3FF0000000000000, by decide⟩
  depth := .fin false ⟨0, by decide⟩
  attack := .fin false ⟨0x4024000000000000, by decide⟩
  decay := .fin false ⟨0x4059000000000000, by decide⟩
  sustain := .fin false ⟨0x3FE0000000000000, by decide⟩
  susTime := .fin false ⟨0x4059000000000000, by decide⟩
  release := .fin false ⟨0x4059000000000000, by decide⟩
  bpm := .fin false ⟨0x405E000000000000, by decide⟩
  note := 69

end Sys2Proof
end

