-- ==== Sys2Proof/Machine/State.lean ====
section
/-! DEFINITION. The state of the block, the tuple of 10_state.md R20, as plain data; the reasons a step
can stop; the state after reset (R40). -/

namespace Sys2Proof.Machine

/-- OscillatorState (10_state.md R21), one copy for `LFO` and one for `VCO`.  The reference to the
channel is wiring (00_scope.md R7) and stands in the operations. -/
structure Osc (R : Type) where
  phase : R
  freq : R
  depth : R
deriving DecidableEq, Repr

/-- The phase tag of the envelope (10_state.md R24, R27). -/
inductive Stage where
  | idle | attack | decay | sustain | release
deriving DecidableEq, Repr

/-- EnvelopeState (10_state.md R24). -/
structure Env (R : Type) where
  st : Stage
  value : R
  cnt : Nat
  attackMs : R
  decayMs : R
  sustainLevel : R
  sustainMs : R
  releaseMs : R
deriving DecidableEq, Repr

/-- SequencerState without the pattern (10_state.md R28, R29). -/
structure Sequencer (R : Type) where
  step : Fin 16
  bpm : R
  running : Bool
  last : Int
deriving DecidableEq, Repr

/-- One entry of the pattern memory `PAT` (10_state.md R30). -/
structure PatEntry where
  gate : Bool
  note : Fin 128
deriving DecidableEq, Repr

/-- The answer to a status read: 42 words of 32 bits (10_state.md R41). -/
abbrev StatusWords := Vector (BitVec 32) 42

/-- The machine.  The fields down to `vcoBlocked` are exactly the tuple of 10_state.md R20; the last four
are the model's own. -/
structure State where
  /-- `LFO` (R22). -/
  lfo : Osc F64
  /-- `VCO` (R23). -/
  vco : Osc F64
  /-- `FREQ`, the host's frequency parameter (R23). -/
  freqReg : F64
  /-- `EG` (R24). -/
  eg : Env F64
  /-- `VCA.gain` (R26). -/
  gain : F64
  /-- `SEQ` (R28). -/
  seq : Sequencer F64
  /-- `PAT` (R30). -/
  pat : Vector PatEntry 16
  /-- `CC_LFO.q`, oldest buffer first (R32). -/
  ccLfo : List Buffer
  /-- `CC_FM.q` (R32). -/
  ccFm : List Buffer
  /-- `CC_AM.q` (R32). -/
  ccAm : List Buffer
  /-- `LFO.blocked` (R33). -/
  lfoBlocked : Bool
  /-- `EG.blocked` (R33). -/
  egBlocked : Bool
  /-- `VCO.blocked` (R33). -/
  vcoBlocked : Bool
  /-- `OUT`, the buffers emitted on `AUDIO_OUT` so far, a history no rule reads (R39; assumption log 10). -/
  out : List Buffer
  /-- The answers to `STATUS` reads so far, a history no rule reads (R39; assumption log 10). -/
  answers : List StatusWords
  /-- The model's own: the events the environment has presented and the block has not yet performed,
  oldest first (00_scope.md R9, 30_encoding.md R102; assumption log 8). -/
  pending : List Event
  /-- The model's own: how many free events have been drawn (assumption log 8). -/
  drawn : Nat
deriving DecidableEq, Repr

/-- There is no fault: "The block has no exception, no fault state, no cause code and no error register"
(60_exceptions.md R230). -/
inductive Fault where
deriving DecidableEq, Repr

/-- Why a step is refused. -/
inductive Refusal where
  /-- An instruction without a meaning yet, raised by an arm of `exec` only; safe.  No arm raises it. -/
  | notModelled (mnemonic : String)
deriving DecidableEq, Repr

/-- The number 0 as binary64 holds it. -/
def zero64 : F64 := .fin false ⟨0, by decide⟩

/-- The state of 10_state.md R40 for given `RESET_*` parameters. -/
def State.ofReset (p : ResetParams) : State where
  lfo := { phase := zero64, freq := p.lfo, depth := zero64 }
  vco := { phase := zero64, freq := p.freq, depth := p.depth }
  freqReg := p.freq
  eg := {
    st := .idle, value := zero64, cnt := 0, attackMs := p.attack, decayMs := p.decay,
    sustainLevel := p.sustain, sustainMs := p.susTime, releaseMs := p.release }
  gain := Config.gain
  seq := { step := 0, bpm := p.bpm, running := false, last := 0 }
  pat := ⟨⟨List.replicate 16 { gate := false, note := p.note }⟩, by simp⟩
  ccLfo := []
  ccFm := []
  ccAm := []
  lfoBlocked := false
  egBlocked := false
  vcoBlocked := false
  out := []
  answers := []
  pending := []
  drawn := 0

/-- The machine right after reset: the table of 10_state.md R40 with its default parameters. -/
def State.reset : State := State.ofReset Config.resetParams

end Sys2Proof.Machine
end

