-- ==== Sys2Proof/Machine/Float.lean ====
section
/-! DEFINITION. The arithmetic of 00_scope.md R14 (`NUM_F64`): every operation computes the exact result
and rounds it once, to nearest with ties to even.  Exact magnitudes are natural numbers counted in units
of the smallest positive number of the format, or quotients of such. -/

namespace Sys2Proof

/-- The magnitude with code `code`, counted in units of `2 ^ (-f.unit)`: subnormal codes count
themselves, a normal code has an implicit leading bit and an exponent. -/
def Format.units (f : Format) (code : Nat) : Nat :=
  if code < 2 ^ f.fracBits then code
  else (2 ^ f.fracBits + code % 2 ^ f.fracBits) * 2 ^ (code / 2 ^ f.fracBits - 1)

/-- How many units make 1, kept folded so that no proof unfolds the power. -/
@[irreducible] def Format.scale (f : Format) : Nat := 2 ^ f.unit

/-- `num / den` to the nearest natural number, ties to even. -/
def roundEven (num den : Nat) : Nat :=
  if 2 * (num % den) < den then num / den
  else if den < 2 * (num % den) then num / den + 1
  else num / den + num / den % 2

/-- The code of the magnitude nearest to `num / den` units, ties to even, as if the exponent range had no
upper bound (00_scope.md R14). -/
def Format.roundCode (f : Format) (num den : Nat) : Nat :=
  let shift := Nat.log2 (num / den) - f.fracBits
  shift * 2 ^ f.fracBits + roundEven num (den * 2 ^ shift)

/-- The number of sign `neg` nearest to `num / den` units; "overflow to infinity" (00_scope.md R14). -/
def Fl.ofQuot (f : Format) (neg : Bool) (num den : Nat) : Fl f :=
  if h : f.roundCode num den < f.top then .fin neg ⟨f.roundCode num den, h⟩ else .inf neg

/-- The rational number `num / den`, correctly rounded (00_scope.md R14). -/
def Fl.ofRatio (f : Format) (num : Int) (den : Nat) : Fl f :=
  .ofQuot f (decide (num < 0)) (num.natAbs * f.scale) den

/-- The value of a finite number in units of `2 ^ (-f.unit)`. -/
def Fl.signedUnits (f : Format) (neg : Bool) (code : Nat) : Int :=
  if neg then -(f.units code : Int) else (f.units code : Int)

def Fl.isFinite {f : Format} : Fl f → Bool
  | .fin _ _ => true
  | _ => false

def Fl.isNan {f : Format} : Fl f → Bool
  | .nan => true
  | _ => false

/-- `+0` or `-0`. -/
def Fl.isZero {f : Format} : Fl f → Bool
  | .fin _ k => decide (k.val = 0)
  | _ => false

def Fl.negate {f : Format} : Fl f → Fl f
  | .nan => .nan
  | .inf s => .inf (!s)
  | .fin s k => .fin (!s) k

/-- IEEE addition: a sum that is exactly zero is `-0` only when both terms are negative. -/
def Fl.add {f : Format} : Fl f → Fl f → Fl f
  | .nan, _ => .nan
  | .inf _, .nan => .nan
  | .fin _ _, .nan => .nan
  | .inf s, .inf t => if s = t then .inf s else .nan
  | .inf s, .fin _ _ => .inf s
  | .fin _ _, .inf t => .inf t
  | .fin s i, .fin t j =>
    let sum := Fl.signedUnits f s i + Fl.signedUnits f t j
    .ofQuot f (if sum = 0 then s && t else decide (sum < 0)) sum.natAbs 1

def Fl.sub {f : Format} (x y : Fl f) : Fl f := Fl.add x (Fl.negate y)

/-- IEEE multiplication; "`inf * 0 = NaN`" (93_implementation_defined.md U3). -/
def Fl.mul {f : Format} : Fl f → Fl f → Fl f
  | .nan, _ => .nan
  | .inf _, .nan => .nan
  | .fin _ _, .nan => .nan
  | .inf s, .inf t => .inf (s ^^ t)
  | .inf s, .fin t j => if j.val = 0 then .nan else .inf (s ^^ t)
  | .fin s i, .inf t => if i.val = 0 then .nan else .inf (s ^^ t)
  | .fin s i, .fin t j => .ofQuot f (s ^^ t) (f.units i * f.units j) f.scale

/-- IEEE division. -/
def Fl.div {f : Format} : Fl f → Fl f → Fl f
  | .nan, _ => .nan
  | .inf _, .nan => .nan
  | .fin _ _, .nan => .nan
  | .inf _, .inf _ => .nan
  | .inf s, .fin t _ => .inf (s ^^ t)
  | .fin s _, .inf t => .ofQuot f (s ^^ t) 0 1
  | .fin s i, .fin t j =>
    if j.val = 0 then (if i.val = 0 then .nan else .inf (s ^^ t))
    else .ofQuot f (s ^^ t) (f.units i * f.scale) (f.units j)

/-- The place of a number in the order of its format; the two zeros share one place.  Codes rise with
magnitudes, so they can stand for them. -/
def Fl.rank {f : Format} : Fl f → Int
  | .nan => 0
  | .inf s => if s then -(f.top : Int) else (f.top : Int)
  | .fin s k => if s then -(k.val : Int) else (k.val : Int)

/-- IEEE `<=`; "any comparison with a NaN is false" (00_scope.md R14). -/
def Fl.le {f : Format} (x y : Fl f) : Bool :=
  !x.isNan && !y.isNan && decide (x.rank ≤ y.rank)

/-- IEEE `<` (00_scope.md R14). -/
def Fl.lt {f : Format} (x y : Fl f) : Bool :=
  !x.isNan && !y.isNan && decide (x.rank < y.rank)

/-- The same number in another format, correctly rounded where it is not representable there. -/
def Fl.convert {f : Format} (g : Format) : Fl f → Fl g
  | .nan => .nan
  | .inf s => .inf s
  | .fin s k => .ofQuot g s (f.units k * g.scale) f.scale

/-- `ext : binary32 -> R`, exact (00_scope.md R12, R14). -/
def F32.ext (x : F32) : F64 := Fl.convert binary64 x

/-- `rnd32 : R -> binary32`, nearest even, "overflow to infinity" (00_scope.md R14). -/
def F64.rnd32 (x : F64) : F32 := Fl.convert binary32 x

/-- The correctly rounded binary64 value of an integer (00_scope.md R14), kept folded as a literal is. -/
@[irreducible] def F64.ofInt (n : Int) : F64 := Fl.ofRatio binary64 n 1

/-- The magnitude code of 1.0. -/
def oneCode : Nat := 0x3FF0000000000000

/-- `SIN2PI` (00_scope.md R15): a function of `p` alone (S1), within [-1, 1] for finite `p` (S2), 0 at 0
(S3; at `-0` the sign of the zero is free), a NaN for a non-finite `p` (S5); nothing else is fixed
(assumption log 3).  S4 is the premise `SinAccurate` of Exact.lean. -/
def F64.sin2pi (p : F64) : F64 :=
  match p with
  | .nan => .nan
  | .inf _ => .nan
  | .fin neg k =>
    if k.val = 0 then F64.ofCode (neg && (Config.sinFree p).1) 0
    else F64.ofCode (Config.sinFree p).1 ((Config.sinFree p).2 % (oneCode + 1))

/-- The binary32 number with bit pattern `v`. -/
def F32.ofBits (v : Val) : F32 :=
  if h : v.toNat % 2 ^ 31 < binary32.top then .fin v.msb ⟨v.toNat % 2 ^ 31, h⟩
  else if v.toNat % 2 ^ 31 = binary32.top then .inf v.msb
  else .nan

/-- A sign and a magnitude code as a bit pattern. -/
def packF32 (neg : Bool) (code : Nat) : Val :=
  BitVec.ofNat 32 ((if neg then 2 ^ 31 else 0) + code)

/-- A NaN's bits with sign and payload taken from `bits`: the exponent field is all ones, and a payload
of 0 (which would be infinity's) is replaced by 1. -/
def nanBits (bits : Val) : Val :=
  if bits.toNat % 2 ^ 23 = 0 then packF32 bits.msb (binary32.top + 1)
  else packF32 bits.msb (binary32.top + bits.toNat % 2 ^ 23)

/-- The bit pattern of a binary32 number; `free` supplies a NaN's sign and payload (20_memory.md R63). -/
def F32.toBits (free : Val) : F32 → Val
  | .nan => nanBits free
  | .inf s => packF32 s binary32.top
  | .fin s k => packF32 s k.val

/-- The operations the rules are written over: an abstract number type `R` and a buffer element type `B`
(00_scope.md R12). -/
structure NumOps (R B : Type) where
  add : R → R → R
  sub : R → R → R
  mul : R → R → R
  div : R → R → R
  le : R → R → Bool
  lt : R → R → Bool
  ofInt : Int → R
  /-- The literal `0.001` (42_envelope.md R155). -/
  milli : R
  sin2pi : R → R
  rnd32 : R → B
  ext : B → R

/-- `NUM_F64`, "the realisation decided for this hardware" (00_scope.md R14). -/
def numF64 : NumOps F64 F32 where
  add := Fl.add
  sub := Fl.sub
  mul := Fl.mul
  div := Fl.div
  le := Fl.le
  lt := Fl.lt
  ofInt := F64.ofInt
  milli := Fl.ofRatio binary64 1 1000
  sin2pi := F64.sin2pi
  rnd32 := F64.rnd32
  ext := F32.ext

end Sys2Proof
end

