-- ==== Sys2Proof/Machine/Ops.lean ====
section
/-! DEFINITION. The named operations over the state: one writer per piece of state, the ControlChannels
(40_control_channel.md), the forced state change `EG.trigger` (60_exceptions.md R235), and `ignore`,
which stands where another machine would raise an exception (00_scope.md R17, 60_exceptions.md R230). -/

namespace Sys2Proof.Machine

/-- What a command or an event answers. -/
abbrev Result := Host.Outcome State Fault Refusal

/-- "The primitive that takes its place is `ignore`: end the step with no state change" (00_scope.md R17). -/
def ignore (s : State) : Result := .next s

/-! ## Writers -/

def State.setLfo (s : State) (v : Osc F64) : State := { s with lfo := v }
def State.setVco (s : State) (v : Osc F64) : State := { s with vco := v }
def State.setFreqReg (s : State) (v : F64) : State := { s with freqReg := v }
def State.setEg (s : State) (v : Env F64) : State := { s with eg := v }
def State.setSeq (s : State) (v : Sequencer F64) : State := { s with seq := v }
def State.setPat (s : State) (v : Vector PatEntry 16) : State := { s with pat := v }
def State.setCcLfo (s : State) (v : List Buffer) : State := { s with ccLfo := v }
def State.setCcFm (s : State) (v : List Buffer) : State := { s with ccFm := v }
def State.setCcAm (s : State) (v : List Buffer) : State := { s with ccAm := v }
def State.setLfoBlocked (s : State) (v : Bool) : State := { s with lfoBlocked := v }
def State.setEgBlocked (s : State) (v : Bool) : State := { s with egBlocked := v }
def State.setVcoBlocked (s : State) (v : Bool) : State := { s with vcoBlocked := v }
def State.setPending (s : State) (v : List Event) : State := { s with pending := v }
def State.setDrawn (s : State) (v : Nat) : State := { s with drawn := v }

/-- "emit y on AUDIO_OUT -- OUT <- OUT ++ [y]" (41_oscillator.md R136). -/
def State.emit (s : State) (y : Buffer) : State := { s with out := s.out ++ [y] }

/-- Hand a status answer to the host (10_state.md R39, R41). -/
def State.answer (s : State) (a : StatusWords) : State := { s with answers := s.answers ++ [a] }

/-- `PAT[i]` written whole. -/
def State.setEntry (s : State) (i : Fin 16) (e : PatEntry) : State := s.setPat (s.pat.set i e)

/-- `VCO.freq <- f`, the write that `FREQ`, `TRIGGER` and the sequencer callback share (10_state.md R23). -/
def State.tuneVco (s : State) (f : F64) : State := s.setVco { s.vco with freq := f }

/-! ## ControlChannels -/

/-- The three ControlChannels (10_state.md R32). -/
inductive Channel where
  | ccLfo | ccFm | ccAm
deriving DecidableEq, Repr

/-- The queue of a channel, oldest buffer first. -/
def State.queue (s : State) : Channel → List Buffer
  | .ccLfo => s.ccLfo
  | .ccFm => s.ccFm
  | .ccAm => s.ccAm

def State.setQueue (s : State) : Channel → List Buffer → State
  | .ccLfo, q => s.setCcLfo q
  | .ccFm, q => s.setCcFm q
  | .ccAm, q => s.setCcAm q

/-- `writer(c).blocked <- true` (40_control_channel.md R122); nothing writes `CC_LFO` (R125). -/
def State.blockWriter (s : State) : Channel → State
  | .ccLfo => s
  | .ccFm => s.setLfoBlocked true
  | .ccAm => s.setEgBlocked true

/-- The queue after a write: drop-oldest when the channel holds `depth` buffers, `none` being `INF`
(40_control_channel.md R121, R122). -/
def enqueue (depth : Option Nat) (q : List Buffer) (b : Buffer) : List Buffer :=
  (if some q.length = depth then q.tail else q) ++ [b]

/-- `CC.write(c, b)` (40_control_channel.md R122). -/
def ccWrite (depth : Option Nat) (c : Channel) (b : Buffer) (s : State) : State :=
  (s.setQueue c (enqueue depth (s.queue c) b)).blockWriter c

/-- The result of `CC.read(c)`: the oldest buffer, or none (40_control_channel.md R124). -/
def ccHead (c : Channel) (s : State) : Option Buffer := (s.queue c).head?

/-- The state after `CC.read(c)`: the buffer it returned is gone (40_control_channel.md R124). -/
def ccDrop (c : Channel) (s : State) : State := s.setQueue c (s.queue c).tail

/-- The control samples a reader uses in one render cycle: sample `i` of the buffer for frame `i`, and 0
for every frame when there is none (20_memory.md R67, R68). -/
def controlSamples {R B : Type} (num : NumOps R B) : Option (Vector B bufferLen) → List R
  | none => List.replicate bufferLen (num.ofInt 0)
  | some b => b.toList.map num.ext

theorem controlSamples_length {R B : Type} (num : NumOps R B) (m : Option (Vector B bufferLen)) :
    (controlSamples num m).length = bufferLen := by
  cases m <;> simp [controlSamples]

/-! ## The forced state change -/

/-- `EG.trigger()`: "forces state=attack, value=0, sustain-counter=0 regardless of current state"
(42_envelope.md R151); nothing of the old envelope is saved (60_exceptions.md R235). -/
def envTrigger {R B : Type} (num : NumOps R B) (e : Env R) : Env R :=
  { e with st := .attack, value := num.ofInt 0, cnt := 0 }

/-- `EG.trigger()` on the machine. -/
def triggerEg (s : State) : State := s.setEg (envTrigger numF64 s.eg)

/-- `RESET`: every piece of the state of 10_state.md R20 takes its value of R40
(70_reset_and_hazards.md R260).  What has been emitted stays emitted, and what the environment has
presented stays presented (assumption log 10). -/
def resetBlock (s : State) : State :=
  { State.reset with out := s.out, answers := s.answers, pending := s.pending, drawn := s.drawn }

end Sys2Proof.Machine
end

