-- ==== Sys2Proof/Machine/Operands.lean ====
section
/-! DEFINITION. The operand forms of 30_encoding.md R94 and R95, the legal values of 10_state.md R36, and
how a command ignores an operand that is malformed (R98) or not legal (R99). -/

namespace Sys2Proof.Machine

/-- F32: "The value used is `ext(v)`"; none if `v` is not finite (30_encoding.md R94). -/
def operandF32 (v : Val) : Option F64 :=
  match F32.ofBits v with
  | .fin s k => some (F32.ext (.fin s k))
  | _ => none

/-- BOOL: "`VAL = 0` is false, `VAL = 1` is true; any other `VAL` is malformed" (30_encoding.md R94). -/
def operandBool (v : Val) : Option Bool :=
  if v = 0#32 then some false else if v = 1#32 then some true else none

/-- NOTE: "`VAL` in `0..127` is the note number" (30_encoding.md R94). -/
def operandNote (v : Val) : Option (Fin 128) :=
  if h : v.toNat < 128 then some ⟨v.toNat, h⟩ else none

/-- The index: `idx = zext(IDX)`, well formed up to 15 (30_encoding.md R95). -/
def operandIndex (i : Idx) : Option (Fin 16) :=
  if h : i.toNat < 16 then some ⟨i.toNat, h⟩ else none

/-! ## Legal values (10_state.md R35, R36) -/

/-- `freq`, `lfo`, `depth`: finite. -/
def legalFinite (x : F64) : Bool := x.isFinite

/-- `attack`, `decay`, `release`, `bpm`: finite and > 0. -/
def legalPositive (x : F64) : Bool := x.isFinite && Fl.lt (F64.ofInt 0) x

/-- `sustainTime`: finite and >= 0. -/
def legalNonneg (x : F64) : Bool := x.isFinite && Fl.le (F64.ofInt 0) x

/-- `sustain`: 0 <= v <= 1. -/
def legalUnit (x : F64) : Bool := Fl.le (F64.ofInt 0) x && Fl.le x (F64.ofInt 1)

/-! ## Applying a command's operands (30_encoding.md R96) -/

/-- A command that writes a number: a malformed operand (R98), then an illegal value (R99), is ignored. -/
def withF32 (legal : F64 → Bool) (v : Val) (write : F64 → State) (s : State) : Result :=
  match operandF32 v with
  | none => ignore s
  | some x => if legal x then .next (write x) else ignore s

/-- A command with a BOOL operand. -/
def withBool (v : Val) (write : Bool → State) (s : State) : Result :=
  match operandBool v with
  | none => ignore s
  | some b => .next (write b)

/-- A command with a pattern index and a BOOL operand. -/
def withIndexBool (i : Idx) (v : Val) (write : Fin 16 → Bool → State) (s : State) : Result :=
  match operandIndex i, operandBool v with
  | some i, some b => .next (write i b)
  | _, _ => ignore s

/-- A command with a pattern index and a NOTE operand. -/
def withIndexNote (i : Idx) (v : Val) (write : Fin 16 → Fin 128 → State) (s : State) : Result :=
  match operandIndex i, operandNote v with
  | some i, some n => .next (write i n)
  | _, _ => ignore s

/-- An F32 operand that is well formed and legal for the register it addresses. -/
def acceptsF32 (legal : F64 → Bool) (v : Val) : Bool :=
  match operandF32 v with
  | none => false
  | some x => legal x

/-- The command passes the checks of 30_encoding.md R96: well-formed operands (R98) of legal value
(R99).  A command that does not is a no-op. -/
def accepted : Instr → Bool
  | .freq v => acceptsF32 legalFinite v
  | .lfo v => acceptsF32 legalFinite v
  | .depth v => acceptsF32 legalFinite v
  | .attack v => acceptsF32 legalPositive v
  | .decay v => acceptsF32 legalPositive v
  | .sustain v => acceptsF32 legalUnit v
  | .susTime v => acceptsF32 legalNonneg v
  | .release v => acceptsF32 legalPositive v
  | .trigger => true
  | .seqGate i v => (operandIndex i).isSome && (operandBool v).isSome
  | .seqNote i v => (operandIndex i).isSome && (operandNote v).isSome
  | .seqOnOff v => (operandBool v).isSome
  | .bpm v => acceptsF32 legalPositive v
  | .seqResume => true
  | .seqSuspend => true
  | .seqReset => true

end Sys2Proof.Machine
end

