-- ==== Sys2Proof/Machine/Oscillator.lean ====
section
/-! DEFINITION. The Oscillator (41_oscillator.md): `OSC.render`, and the commands `FREQ`, `LFO`, `DEPTH`. -/

namespace Sys2Proof.Machine

/-- `SR`, 44100 Hz (00_scope.md R10). -/
def sampleRate {R B : Type} (num : NumOps R B) : R := num.ofInt 44100

/-- One frame's advance of the phase, `phase + ((freq + (cv * depth)) / SR)`, four operations in this
order; the phase is never reduced (41_oscillator.md R130, R133). -/
def advancePhase {R B : Type} (num : NumOps R B) (freq depth phase cv : R) : R :=
  num.add phase (num.div (num.add freq (num.mul cv depth)) (sampleRate num))

/-- The samples of the frames whose control samples are listed: "the sample is taken BEFORE the advance"
(41_oscillator.md R130). -/
def oscSamples {R B : Type} (num : NumOps R B) (freq depth : R) : R → List R → List B
  | _, [] => []
  | phase, cv :: cvs =>
    num.rnd32 (num.sin2pi phase) ::
      oscSamples num freq depth (advancePhase num freq depth phase cv) cvs

/-- The phase after those frames. -/
def oscPhase {R B : Type} (num : NumOps R B) (freq depth : R) : R → List R → R
  | phase, [] => phase
  | phase, cv :: cvs => oscPhase num freq depth (advancePhase num freq depth phase cv) cvs

theorem oscSamples_length {R B : Type} (num : NumOps R B) (freq depth : R) (cvs : List R) :
    ∀ phase, (oscSamples num freq depth phase cvs).length = cvs.length := by
  induction cvs with
  | nil => intro phase; rfl
  | cons cv cvs ih => intro phase; simp [oscSamples, ih]

/-- The buffer `OSC.render(o)` returns when `CC.read` answered `m` (41_oscillator.md R130). -/
def oscRender {R B : Type} (num : NumOps R B) (o : Osc R) (m : Option (Vector B bufferLen)) :
    Vector B bufferLen :=
  ⟨⟨oscSamples num o.freq o.depth o.phase (controlSamples num m)⟩, by
    simp [oscSamples_length, controlSamples_length]⟩

/-- The oscillator after that render cycle: only the phase has moved (41_oscillator.md R130). -/
def oscAfter {R B : Type} (num : NumOps R B) (o : Osc R) (m : Option (Vector B bufferLen)) : Osc R :=
  { o with phase := oscPhase num o.freq o.depth o.phase (controlSamples num m) }

/-- `FREQ v`: `FREQ <- ext(v); VCO.freq <- ext(v)` (41_oscillator.md R131). -/
def execFreq (v : Val) (s : State) : Result :=
  withF32 legalFinite v (fun x => (s.setFreqReg x).tuneVco x) s

/-- `LFO v`: `LFO.freq <- ext(v)` (41_oscillator.md R132). -/
def execLfo (v : Val) (s : State) : Result :=
  withF32 legalFinite v (fun x => s.setLfo { s.lfo with freq := x }) s

/-- `DEPTH v`: `VCO.depth <- ext(v)` (41_oscillator.md R134). -/
def execDepth (v : Val) (s : State) : Result :=
  withF32 legalFinite v (fun x => s.setVco { s.vco with depth := x }) s

end Sys2Proof.Machine
end

