-- ==== Sys2Proof/Machine/Envelope.lean ====
section
/-! DEFINITION. The EnvelopeGenerator (42_envelope.md): `EG.step`, `EG.render`, and the commands
`ATTACK`, `DECAY`, `SUSTAIN`, `SUSTIME`, `RELEASE`, `TRIGGER`. -/

namespace Sys2Proof.Machine

/-- `1000 / (SR * ms)`: the attack increment, decay rate and release decrement per sample, recomputed
from the current parameter at every use (42_envelope.md, abbreviations `a`, `d`, `r`). -/
def perSample {R B : Type} (num : NumOps R B) (ms : R) : R :=
  num.div (num.ofInt 1000) (num.mul (sampleRate num) ms)

/-- `(SR * 0.001) * sustainMs`, the sustain length in samples (42_envelope.md R155). -/
def sustainSamples {R B : Type} (num : NumOps R B) (ms : R) : R :=
  num.mul (num.mul (sampleRate num) num.milli) ms

/-- Attack step; the value is not clamped (42_envelope.md R153). -/
def envAttack {R B : Type} (num : NumOps R B) (e : Env R) : Env R :=
  let value := num.add e.value (perSample num e.attackMs)
  { e with value := value, st := if num.le (num.ofInt 1) value then .decay else e.st }

/-- Decay step; the decrement is scaled by the sustain level and the value is not clamped
(42_envelope.md R154). -/
def envDecay {R B : Type} (num : NumOps R B) (e : Env R) : Env R :=
  let value := num.sub e.value (num.mul (perSample num e.decayMs) e.sustainLevel)
  { e with value := value, st := if num.le value e.sustainLevel then .sustain else e.st }

/-- Sustain step: copy the level, increment the counter, then the strict test (42_envelope.md R155,
90_conflicts.md C2). -/
def envSustain {R B : Type} (num : NumOps R B) (e : Env R) : Env R :=
  if num.lt (sustainSamples num e.sustainMs) (num.ofInt ((e.cnt + 1 : Nat) : Int)) then
    { e with value := e.sustainLevel, cnt := 0, st := .release }
  else { e with value := e.sustainLevel, cnt := e.cnt + 1 }

/-- Release step, with the only clamp of the state machine (42_envelope.md R156). -/
def envRelease {R B : Type} (num : NumOps R B) (e : Env R) : Env R :=
  let value := num.sub e.value (perSample num e.releaseMs)
  if num.le value (num.ofInt 0) then { e with value := num.ofInt 0, st := .idle }
  else { e with value := value }

/-- Idle step (42_envelope.md R157). -/
def envIdle {R B : Type} (num : NumOps R B) (e : Env R) : Env R :=
  { e with value := num.ofInt 0 }

/-- `EG.step()`: "The case is selected by the tag at the start of the step" (42_envelope.md R152).  The
sample it emits is the value of the resulting state (R158). -/
def envStep {R B : Type} (num : NumOps R B) (e : Env R) : Env R :=
  match e.st with
  | .attack => envAttack num e
  | .decay => envDecay num e
  | .sustain => envSustain num e
  | .release => envRelease num e
  | .idle => envIdle num e

/-- The envelope after `n` generation steps. -/
def envAfter {R B : Type} (num : NumOps R B) : Nat → Env R → Env R
  | 0, e => e
  | n + 1, e => envAfter num n (envStep num e)

/-- The samples of `n` generation steps, each rounded as it is emitted (42_envelope.md R158, R159). -/
def envSamples {R B : Type} (num : NumOps R B) : Nat → Env R → List B
  | 0, _ => []
  | n + 1, e => num.rnd32 (envStep num e).value :: envSamples num n (envStep num e)

theorem envSamples_length {R B : Type} (num : NumOps R B) (n : Nat) :
    ∀ e, (envSamples num n e).length = n := by
  induction n with
  | zero => intro e; rfl
  | succ n ih => intro e; simp [envSamples, ih]

/-- The buffer `EG.render()` returns (42_envelope.md R159). -/
def envRender {R B : Type} (num : NumOps R B) (e : Env R) : Vector B bufferLen :=
  ⟨⟨envSamples num bufferLen e⟩, by simp [envSamples_length]⟩

/-- `ATTACK v`: `EG.attackMs <- ext(v)` (42_envelope.md R161). -/
def execAttack (v : Val) (s : State) : Result :=
  withF32 legalPositive v (fun x => s.setEg { s.eg with attackMs := x }) s

/-- `DECAY v`: `EG.decayMs <- ext(v)` (42_envelope.md R162). -/
def execDecay (v : Val) (s : State) : Result :=
  withF32 legalPositive v (fun x => s.setEg { s.eg with decayMs := x }) s

/-- `SUSTAIN v`: `EG.sustainLevel <- ext(v)` (42_envelope.md R163). -/
def execSustain (v : Val) (s : State) : Result :=
  withF32 legalUnit v (fun x => s.setEg { s.eg with sustainLevel := x }) s

/-- `SUSTIME v`: `EG.sustainMs <- ext(v)` (42_envelope.md R164). -/
def execSusTime (v : Val) (s : State) : Result :=
  withF32 legalNonneg v (fun x => s.setEg { s.eg with sustainMs := x }) s

/-- `RELEASE v`: `EG.releaseMs <- ext(v)` (42_envelope.md R165). -/
def execRelease (v : Val) (s : State) : Result :=
  withF32 legalPositive v (fun x => s.setEg { s.eg with releaseMs := x }) s

/-- `TRIGGER`: `EG.trigger(); VCO.freq <- FREQ` (42_envelope.md R166). -/
def execTrigger (s : State) : Result :=
  .next ((triggerEg s).tuneVco s.freqReg)

end Sys2Proof.Machine
end

