-- ==== Sys2Proof/Machine/Flags.lean ====
section
/-! DEFINITION. The one-bit state of 10_state.md R31 and what it gates.  "No instruction writes a flag as
a side effect other than as listed." -/

namespace Sys2Proof.Machine

/-- `SEQ.running <- b` (44_sequencer.md R194 to R197). -/
def setRunning {R : Type} (b : Bool) (q : Sequencer R) : Sequencer R := { q with running := b }

/-- `PAT[i].gate <- b` (44_sequencer.md R199). -/
def setGate (i : Fin 16) (b : Bool) (s : State) : State :=
  s.setEntry i { s.pat[i] with gate := b }

/-- Whether an event can happen: `PRODUCE(x)` "is enabled iff `x.blocked = false`" (10_state.md R33),
`PACE(x)` iff `x.blocked = true` (40_control_channel.md R123), every other event always (60_exceptions.md
R234, 70_reset_and_hazards.md R276, R277). -/
def enabled (s : State) : Event → Bool
  | .reset => true
  | .cmd _ => true
  | .tick _ => true
  | .produceLfo => !s.lfoBlocked
  | .produceEg => !s.egBlocked
  | .produceVco _ => !s.vcoBlocked
  | .paceLfo => s.lfoBlocked
  | .paceEg => s.egBlocked
  | .ready => true
  | .status => true

end Sys2Proof.Machine
end

