-- ==== Sys2Proof/Machine/Sequencer.lean ====
section
/-! DEFINITION. The StepSequencer (44_sequencer.md): `SEQ.tick`, its callback, its operations, and the
commands that reach them. -/

namespace Sys2Proof.Machine

/-- `stepIntervalMs = 6000 / SEQ.bpm` (44_sequencer.md R192). -/
def stepInterval {R B : Type} (num : NumOps R B) (bpm : R) : R := num.div (num.ofInt 6000) bpm

/-- Whether a tick at `now` fires: running, and "elapsed", read as `>=` (44_sequencer.md R191).  The
elapsed time is an integer difference, possibly negative, converted to `R`. -/
def tickFires {R B : Type} (num : NumOps R B) (q : Sequencer R) (now : Int) : Bool :=
  q.running && num.le (stepInterval num q.bpm) (num.ofInt (now - q.last))

/-- `SEQ.callback(step, gate, note)`: on an active gate, trigger the envelope and retune the VCO;
otherwise nothing (44_sequencer.md R193). -/
def seqCallback (noteFreq : Fin 128 → F64) (e : PatEntry) (s : State) : State :=
  if e.gate then (triggerEg s).tuneVco (noteFreq e.note) else s

/-- The step index advanced, `(step + 1) mod 16` (44_sequencer.md R191). -/
def nextStep (i : Fin 16) : Fin 16 := i + 1

/-- `SEQ.tick(now)`: at most one advance, the callback on the new step's entry, then the new timestamp
(44_sequencer.md R191, R208). -/
def seqTick (noteFreq : Fin 128 → F64) (now : Int) (s : State) : State :=
  if tickFires numF64 s.seq now then
    let s1 := s.setSeq { s.seq with step := nextStep s.seq.step }
    let s2 := seqCallback noteFreq s1.pat[nextStep s.seq.step] s1
    s2.setSeq { s2.seq with last := now }
  else s

/-- The sequencer's own state after a tick at `now`, the part of `SEQ.tick` that has a reading in either
realisation of the numbers (44_sequencer.md R191; 00_scope.md R13). -/
def seqAfter {R B : Type} (num : NumOps R B) (now : Int) (q : Sequencer R) : Sequencer R :=
  if tickFires num q now then { q with step := nextStep q.step, last := now } else q

/-- `step <- 0` (44_sequencer.md R194, R195, R198). -/
def rewind {R : Type} (q : Sequencer R) : Sequencer R := { q with step := 0 }

/-- `SEQ.start()`: `last` is not written (44_sequencer.md R194, R209). -/
def seqStart (s : State) : State := s.setSeq (setRunning true (rewind s.seq))

/-- `SEQ.stop()` (44_sequencer.md R195). -/
def seqStop (s : State) : State := s.setSeq (setRunning false (rewind s.seq))

/-- `SEQ_GATE idx, b`: `PAT[idx].gate <- b` (44_sequencer.md R199). -/
def execSeqGate (i : Idx) (v : Val) (s : State) : Result :=
  withIndexBool i v (fun k b => setGate k b s) s

/-- `SEQ_NOTE idx, n`: `PAT[idx].note <- n` (44_sequencer.md R200). -/
def execSeqNote (i : Idx) (v : Val) (s : State) : Result :=
  withIndexNote i v (fun k n => s.setEntry k { s.pat[k] with note := n }) s

/-- `SEQONOFF b`: `if b then SEQ.start() else SEQ.stop()` (44_sequencer.md R201). -/
def execSeqOnOff (v : Val) (s : State) : Result :=
  withBool v (fun b => if b then seqStart s else seqStop s) s

/-- `BPM v`: `SEQ.bpm <- ext(v)` (44_sequencer.md R202). -/
def execBpm (v : Val) (s : State) : Result :=
  withF32 legalPositive v (fun x => s.setSeq { s.seq with bpm := x }) s

/-- `SEQ_RESUME`: `SEQ.running <- true` (44_sequencer.md R203, R196). -/
def execSeqResume (s : State) : Result := .next (s.setSeq (setRunning true s.seq))

/-- `SEQ_SUSPEND`: `SEQ.running <- false` (44_sequencer.md R204, R197). -/
def execSeqSuspend (s : State) : Result := .next (s.setSeq (setRunning false s.seq))

/-- `SEQ_RESET`: `SEQ.step <- 0` (44_sequencer.md R206, R198). -/
def execSeqReset (s : State) : Result := .next (s.setSeq (rewind s.seq))

end Sys2Proof.Machine
end

