-- ==== Sys2Proof/Machine/Dispatch.lean ====
section
/-! DEFINITION. One arm per command (30_encoding.md R93, R96). -/

namespace Sys2Proof.Machine

def exec (i : Instr) (s : State) : Host.Outcome State Fault Refusal :=
  match i with
  | .freq v => Sys2Proof.Machine.execFreq v s
  | .lfo v => Sys2Proof.Machine.execLfo v s
  | .depth v => Sys2Proof.Machine.execDepth v s
  | .attack v => Sys2Proof.Machine.execAttack v s
  | .decay v => Sys2Proof.Machine.execDecay v s
  | .sustain v => Sys2Proof.Machine.execSustain v s
  | .susTime v => Sys2Proof.Machine.execSusTime v s
  | .release v => Sys2Proof.Machine.execRelease v s
  | .trigger => Sys2Proof.Machine.execTrigger s
  | .seqGate k v => Sys2Proof.Machine.execSeqGate k v s
  | .seqNote k v => Sys2Proof.Machine.execSeqNote k v s
  | .seqOnOff v => Sys2Proof.Machine.execSeqOnOff v s
  | .bpm v => Sys2Proof.Machine.execBpm v s
  | .seqResume => Sys2Proof.Machine.execSeqResume s
  | .seqSuspend => Sys2Proof.Machine.execSeqSuspend s
  | .seqReset => Sys2Proof.Machine.execSeqReset s

end Sys2Proof.Machine
end

