-- ==== Sys2Proof/Machine/GainStage.lean ====
section
/-! DEFINITION. The GainStage (43_gain_stage.md): `VCA.process`.  It has no command of its own. -/

namespace Sys2Proof.Machine

/-- One lane: `rnd32( (ext(x[i]) * VCA.gain) * cv )` (43_gain_stage.md R182). -/
def vcaLane {R B : Type} (num : NumOps R B) (gain : R) (x : B) (cv : R) : B :=
  num.rnd32 (num.mul (num.mul (num.ext x) gain) cv)

/-- The buffer `VCA.process(x)` returns when `CC.read(CC_AM)` answered `m`; without a control buffer the
control sample is 0, not 1 (43_gain_stage.md R182, R183). -/
def vcaProcess {R B : Type} (num : NumOps R B) (gain : R) (x : Vector B bufferLen)
    (m : Option (Vector B bufferLen)) : Vector B bufferLen :=
  ⟨⟨List.zipWith (vcaLane num gain) x.toList (controlSamples num m)⟩, by
    simp [controlSamples_length]⟩

end Sys2Proof.Machine
end

