-- ==== Sys2Proof/Machine/Status.lean ====
section
/-! DEFINITION. The status snapshot (10_state.md R41). -/

namespace Sys2Proof.Machine

/-- The binary32 image of an `R` register, exact by 10_state.md R37; `pos` is the place of the word in
the stream of status words, where a NaN (which no reachable register holds) would be a free value. -/
def statusReal (pos : Nat) (x : F64) : BitVec 32 := F32.toBits (Config.nanStatus pos) (F64.rnd32 x)

/-- "0 for false and 1 for true" (10_state.md R41). -/
def statusBool (b : Bool) : BitVec 32 := if b then 1#32 else 0#32

/-- "the note numbers zero-extended" (10_state.md R41). -/
def statusNote (n : Fin 128) : BitVec 32 := BitVec.ofNat 32 n.val

/-- Words 0 to 9, the ten parameter words in the source's order; `base` is the place of word 0. -/
def statusParams (base : Nat) (s : State) : List (BitVec 32) :=
  [statusReal base s.freqReg, statusReal (base + 1) s.lfo.freq, statusReal (base + 2) s.vco.depth,
    statusReal (base + 3) s.eg.attackMs, statusReal (base + 4) s.eg.decayMs,
    statusReal (base + 5) s.eg.sustainLevel, statusReal (base + 6) s.eg.sustainMs,
    statusReal (base + 7) s.eg.releaseMs, statusBool s.seq.running, statusReal (base + 9) s.seq.bpm]

/-- The answer of `STATUS`: 42 words, word 0 first (10_state.md R41). -/
def statusWords (s : State) : StatusWords :=
  ⟨⟨statusParams (42 * s.answers.length) s ++ s.pat.toList.map (fun e => statusBool e.gate) ++
      s.pat.toList.map (fun e => statusNote e.note)⟩, by simp [statusParams]⟩

end Sys2Proof.Machine
end

