-- ==== Sys2Proof/Machine/Events.lean ====
section
/-! DEFINITION. The events of 00_scope.md R8, each one atomic transition of the state. -/

namespace Sys2Proof.Machine

/-- `CMD(w)`: decode and apply one command word; an unassigned opcode is ignored (30_encoding.md R96,
R97). -/
def runCmd (w : CmdWord) (s : State) : Result :=
  match decodeWord w with
  | .ok i => exec i s
  | .error _ => ignore s

/-- `PRODUCE(LFO)`: render one buffer from `CC_LFO`'s control samples and write it to `CC_FM`
(41_oscillator.md R135). -/
def produceLfo (depth : Option Nat) (s : State) : State :=
  ccWrite depth .ccFm (oscRender numF64 s.lfo (ccHead .ccLfo s))
    ((ccDrop .ccLfo s).setLfo (oscAfter numF64 s.lfo (ccHead .ccLfo s)))

/-- `PRODUCE(EG)`: render one buffer and write it to `CC_AM` (42_envelope.md R160). -/
def produceEg (depth : Option Nat) (s : State) : State :=
  ccWrite depth .ccAm (envRender numF64 s.eg) (s.setEg (envAfter numF64 bufferLen s.eg))

/-- The buffer `PRODUCE(VCO, acc)` emits: the VCO's buffer through the GainStage (41_oscillator.md R136). -/
def vcoOutput (s : State) : Buffer :=
  vcaProcess numF64 s.gain (oscRender numF64 s.vco (ccHead .ccFm s)) (ccHead .ccAm s)

/-- `PRODUCE(VCO, acc)`: render, multiply, emit, and wait unless the consumer accepted
(41_oscillator.md R136). -/
def produceVco (acc : Bool) (s : State) : State :=
  (((ccDrop .ccAm (ccDrop .ccFm s)).setVco (oscAfter numF64 s.vco (ccHead .ccFm s))).emit
    (vcoOutput s)).setVcoBlocked (!acc)

/-- What an enabled event does (00_scope.md R8). -/
def happen (e : Event) (s : State) : Result :=
  match e with
  | .reset => .next (resetBlock s)
  | .cmd w => runCmd w s
  | .tick now => .next (seqTick Config.noteFreq now s)
  | .produceLfo => .next (produceLfo Config.ccDepth s)
  | .produceEg => .next (produceEg Config.ccDepth s)
  | .produceVco acc => .next (produceVco acc s)
  | .paceLfo => .next (s.setLfoBlocked false)
  | .paceEg => .next (s.setEgBlocked false)
  | .ready => .next (s.setVcoBlocked false)
  | .status => .next (s.answer (statusWords s))

/-- An event that is not enabled "cannot happen" (95_test_vectors.md V-CC-9, V-CC-10): presented all the
same, it is skipped and changes nothing (assumption log 8). -/
def perform (e : Event) (s : State) : Result :=
  if enabled s e then happen e s else ignore s

/-- Take the next event the ports present, or an unconstrained one if they present none
(00_scope.md R9; assumption log 8). -/
def nextEvent (s : State) : Event × State :=
  match s.pending with
  | e :: rest => (e, s.setPending rest)
  | [] => (Config.freeEvent s.drawn, s.setDrawn (s.drawn + 1))

/-- Perform a list of events in order, for claims about the state after "a given finite sequence of
events" (70_reset_and_hazards.md R276). -/
def performAll : List Event → State → Result
  | [], s => .next s
  | e :: es, s =>
    match perform e s with
    | .next s' => performAll es s'
    | .fault r => .fault r
    | .refused r => .refused r

/-- The word `w` of `nbits` table bits presented on the command port ahead of everything else, so that
it is the next event (30_encoding.md R102; assumption log 9). -/
def presentWord (s : State) (nbits w : Nat) : State :=
  s.setPending (.cmd (tableWord nbits w) :: s.pending)

end Sys2Proof.Machine
end

