-- ==== Sys2Proof/Machine/Step.lean ====
section
/-! DEFINITION. One step of the machine: the next event happens (00_scope.md R8, R9). -/

namespace Sys2Proof.Machine

/-- One event.  It always answers a next state: the block has no fault (60_exceptions.md R230). -/
def step (s : State) : Host.Outcome State Fault Refusal :=
  perform (nextEvent s).1 (nextEvent s).2

/-- `s` with the table's word presented on the command port, where the next step takes its event. -/
def State.withFetchWord (s : State) (nbits w : Nat) : State := presentWord s nbits w

end Sys2Proof.Machine
end

