-- ==== Sys2Proof/Exact.lean ====
section
/-! DEFINITION. The reference reading `NUM_EXACT` (00_scope.md R13) and the real values of binary
numbers.  The machine does not use this file: it is the named alternative realisation, over which the
closed forms and step counts of the spec hold exactly (90_conflicts.md C7; assumption log 17). -/

namespace Sys2Proof

open Classical in
/-- `NUM_EXACT`: "`R` is the real numbers, the four operations are exact, `SIN2PI(p) = sin(2·π·p)`
exactly, and `rnd32` is the identity (buffers hold reals)" (00_scope.md R13). -/
noncomputable def numExact : NumOps ℝ ℝ where
  add x y := x + y
  sub x y := x - y
  mul x y := x * y
  div x y := x / y
  le x y := decide (x ≤ y)
  lt x y := decide (x < y)
  ofInt n := (n : ℝ)
  milli := 1 / 1000
  sin2pi p := Real.sin (2 * Real.pi * p)
  rnd32 x := x
  ext x := x

/-! ## Step counts of the envelope (42_envelope.md R168) -/

/-- `n_A = ceil(SR·attackMs/1000)`, the steps of the attack (R153). -/
noncomputable def attackSteps (attackMs : ℝ) : ℕ := ⌈44100 * attackMs / 1000⌉₊

/-- `n_D = max(1, ceil((V - S)/(d·S)))`, the steps the decay takes from the value `V` (R154). -/
noncomputable def decaySteps (V decayMs S : ℝ) : ℕ :=
  max 1 ⌈(V - S) / (1000 / (44100 * decayMs) * S)⌉₊

/-- `n_S = floor(Ns) + 1`, the steps of the sustain, the one that leaves it counted (R155). -/
noncomputable def sustainSteps (sustainMs : ℝ) : ℕ := ⌊44100 * (1 / 1000) * sustainMs⌋₊ + 1

/-- `n_R = max(1, ceil(V/r))`, the steps the release takes from the value `V` (R156). -/
noncomputable def releaseSteps (V releaseMs : ℝ) : ℕ := max 1 ⌈V / (1000 / (44100 * releaseMs))⌉₊

/-! ## The real value of a binary number -/

/-- The real number a finite binary number is; a NaN and the infinities have no real value and are given
0, so every use says that the number is finite. -/
noncomputable def Fl.toReal {f : Format} : Fl f → ℝ
  | .fin s k => (if s then -1 else 1) * (f.units k : ℝ) / f.scale
  | _ => 0

/-- The last bit of the significand is 0, which decides a tie (00_scope.md R14). -/
def Fl.isEven {f : Format} : Fl f → Prop
  | .fin _ k => k.val % 2 = 0
  | _ => False

/-- `r` is a finite number nearest to `x`: no finite number of the format is nearer, and if another is as
near then `r` is the even one (00_scope.md R14, "round to nearest, ties to even"). -/
def Fl.NearestTo {f : Format} (r : Fl f) (x : ℝ) : Prop :=
  r.isFinite = true ∧ ∀ c : Fl f, c.isFinite = true →
    |r.toReal - x| ≤ |c.toReal - x| ∧
      (|r.toReal - x| = |c.toReal - x| → c.toReal ≠ r.toReal → r.isEven)

/-- Half way between the largest finite number and the one that would follow it: from here on a result
overflows to infinity (00_scope.md R14). -/
noncomputable def Format.overflow (f : Format) : ℝ :=
  ((f.units (f.top - 1) : ℝ) + f.units f.top) / 2 / f.scale

/-- `r` is the real number `x` correctly rounded (00_scope.md R14): the nearest number below the overflow
bound, an infinity of the sign of `x` from there on. -/
def Fl.RoundedFrom {f : Format} (r : Fl f) (x : ℝ) : Prop :=
  (|x| < f.overflow ∧ r.NearestTo x) ∨ (f.overflow ≤ |x| ∧ ∃ s, r = .inf s ∧ (s = true ↔ x < 0))

/-- S4 for a given `EPS_SIN`: `|SIN2PI(p) - sin(2·π·p)| <= EPS_SIN·max(1, |p|)` for finite `p`
(00_scope.md R15). -/
def SinAccurate (eps : ℝ) : Prop :=
  ∀ p : F64, p.isFinite = true →
    |(F64.sin2pi p).toReal - Real.sin (2 * Real.pi * p.toReal)| ≤ eps * max 1 |p.toReal|

end Sys2Proof
end

