-- ==== Sys2Proof/Machine/NoteTable.lean ====
section
/-! DEFINITION. The default note table (44_sequencer.md R205): twelve-tone equal temperament with note 69
at 440 Hz.  The machine itself takes `NOTE_FREQ` as an open parameter (`Config.noteFreq`); this table is
one value it may have (assumption log 4). -/

namespace Sys2Proof.Machine

/-- The magnitude codes of `440 * 2 ^ ((n - 69) / 12)`, "each entry correctly rounded", an octave a line. -/
def defaultNoteCodes : List Nat :=
  [0x40205A0250C2B956, 0x402152EC0E758E6F, 0x40225AA2E3AF0B21, 0x4023720820155764, 0x40249A0A791E127B, 0x4025D3A6D600CABC,
    0x40271FE927CA0DE9, 0x40287FED4E47ADFF, 0x4029F4E00A91D08E, 0x402B800000000000, 0x402D229EC465C8A2, 0x402EDE22007F791A] ++
  [0x40305A0250C2B956, 0x403152EC0E758E6F, 0x40325AA2E3AF0B21, 0x4033720820155764, 0x40349A0A791E127B, 0x4035D3A6D600CABC,
    0x40371FE927CA0DE9, 0x40387FED4E47ADFF, 0x4039F4E00A91D08E, 0x403B800000000000, 0x403D229EC465C8A2, 0x403EDE22007F791A] ++
  [0x40405A0250C2B956, 0x404152EC0E758E6F, 0x40425AA2E3AF0B21, 0x4043720820155764, 0x40449A0A791E127B, 0x4045D3A6D600CABC,
    0x40471FE927CA0DE9, 0x40487FED4E47ADFF, 0x4049F4E00A91D08E, 0x404B800000000000, 0x404D229EC465C8A2, 0x404EDE22007F791A] ++
  [0x40505A0250C2B956, 0x405152EC0E758E6F, 0x40525AA2E3AF0B21, 0x4053720820155764, 0x40549A0A791E127B, 0x4055D3A6D600CABC,
    0x40571FE927CA0DE9, 0x40587FED4E47ADFF, 0x4059F4E00A91D08E, 0x405B800000000000, 0x405D229EC465C8A2, 0x405EDE22007F791A] ++
  [0x40605A0250C2B956, 0x406152EC0E758E6F, 0x40625AA2E3AF0B21, 0x4063720820155764, 0x40649A0A791E127B, 0x4065D3A6D600CABC,
    0x40671FE927CA0DE9, 0x40687FED4E47ADFF, 0x4069F4E00A91D08E, 0x406B800000000000, 0x406D229EC465C8A2, 0x406EDE22007F791A] ++
  [0x40705A0250C2B956, 0x407152EC0E758E6F, 0x40725AA2E3AF0B21, 0x4073720820155764, 0x40749A0A791E127B, 0x4075D3A6D600CABC,
    0x40771FE927CA0DE9, 0x40787FED4E47ADFF, 0x4079F4E00A91D08E, 0x407B800000000000, 0x407D229EC465C8A2, 0x407EDE22007F791A] ++
  [0x40805A0250C2B956, 0x408152EC0E758E6F, 0x40825AA2E3AF0B21, 0x4083720820155764, 0x40849A0A791E127B, 0x4085D3A6D600CABC,
    0x40871FE927CA0DE9, 0x40887FED4E47ADFF, 0x4089F4E00A91D08E, 0x408B800000000000, 0x408D229EC465C8A2, 0x408EDE22007F791A] ++
  [0x40905A0250C2B956, 0x409152EC0E758E6F, 0x40925AA2E3AF0B21, 0x4093720820155764, 0x40949A0A791E127B, 0x4095D3A6D600CABC,
    0x40971FE927CA0DE9, 0x40987FED4E47ADFF, 0x4099F4E00A91D08E, 0x409B800000000000, 0x409D229EC465C8A2, 0x409EDE22007F791A] ++
  [0x40A05A0250C2B956, 0x40A152EC0E758E6F, 0x40A25AA2E3AF0B21, 0x40A3720820155764, 0x40A49A0A791E127B, 0x40A5D3A6D600CABC,
    0x40A71FE927CA0DE9, 0x40A87FED4E47ADFF, 0x40A9F4E00A91D08E, 0x40AB800000000000, 0x40AD229EC465C8A2, 0x40AEDE22007F791A] ++
  [0x40B05A0250C2B956, 0x40B152EC0E758E6F, 0x40B25AA2E3AF0B21, 0x40B3720820155764, 0x40B49A0A791E127B, 0x40B5D3A6D600CABC,
    0x40B71FE927CA0DE9, 0x40B87FED4E47ADFF, 0x40B9F4E00A91D08E, 0x40BB800000000000, 0x40BD229EC465C8A2, 0x40BEDE22007F791A] ++
  [0x40C05A0250C2B956, 0x40C152EC0E758E6F, 0x40C25AA2E3AF0B21, 0x40C3720820155764, 0x40C49A0A791E127B, 0x40C5D3A6D600CABC,
    0x40C71FE927CA0DE9, 0x40C87FED4E47ADFF]

/-- The default `NOTE_FREQ` (44_sequencer.md R205). -/
def defaultNoteFreq (n : Fin 128) : F64 := F64.ofCode false (defaultNoteCodes.getD n.val 0)

end Sys2Proof.Machine
end

