-- ==== Sys2Proof/Machine/Text.lean ====
section
/-! DEFINITION. The textual form of commands and its translation into command words (30_encoding.md R90,
R91, R98, R100, R101).  A message is taken as already parsed: parsing is outside the block (60_exceptions.md
R232, 92_eei_decisions.md D31), and a payload that does not parse yields no message, hence no word. -/

namespace Sys2Proof.Machine

/-- A `value`, or a field of a sub-object, as the message object holds it. -/
inductive TextValue where
  | absent
  | number (x : F64)
  | boolean (b : Bool)
  | other
deriving DecidableEq, Repr

/-- A `gate:{index,value}` or `note:{index,value}` sub-object (30_encoding.md R91). -/
structure SubObject where
  index : TextValue
  value : TextValue
deriving DecidableEq, Repr

/-- The `value` field of a message: a plain value, or the object of `seq` with the sub-objects it has
(30_encoding.md R90, R91). -/
inductive MessageValue where
  | plain (v : TextValue)
  | seqObject (gate note : Option SubObject)
deriving DecidableEq, Repr

/-- The kinds of 30_encoding.md R91, the three spellings R93 adds, and everything else. -/
inductive Kind where
  | freq | lfo | depth | attack | decay | sustain | sustainTime | release
  | trigger | seq | seqonoff | bpm | seqresume | seqsuspend | seqreset
  | unrecognized
deriving DecidableEq, Repr

/-- The kind a `message` string names (30_encoding.md R91, R93). -/
def Kind.ofName (name : String) : Kind :=
  if name = "freq" then .freq
  else if name = "lfo" then .lfo
  else if name = "depth" then .depth
  else if name = "attack" then .attack
  else if name = "decay" then .decay
  else if name = "sustain" then .sustain
  else if name = "sustainTime" then .sustainTime
  else if name = "release" then .release
  else if name = "trigger" then .trigger
  else if name = "seq" then .seq
  else if name = "seqonoff" then .seqonoff
  else if name = "bpm" then .bpm
  else if name = "seqresume" then .seqresume
  else if name = "seqsuspend" then .seqsuspend
  else if name = "seqreset" then .seqreset
  else .unrecognized

/-- One message object (30_encoding.md R90). -/
structure Message where
  message : String
  value : MessageValue
deriving DecidableEq, Repr

/-- A number becomes `rnd32(x)`; "if the result is not finite the field is malformed" (30_encoding.md
R100). -/
def textF32 : TextValue → Option Val
  | .number x => if (F64.rnd32 x).isFinite then some (F32.toBits 0 (F64.rnd32 x)) else none
  | _ => none

/-- "A boolean becomes BOOL 0 or 1; a number in a boolean position is malformed" (30_encoding.md R100). -/
def textBool : TextValue → Option Val
  | .boolean b => some (if b then 1#32 else 0#32)
  | _ => none

/-- The natural number below `bound` that `v` is: "must be an integer in range, else the field is
malformed" (30_encoding.md R100). -/
def textNat (bound : Nat) : TextValue → Option Nat
  | .number x => (List.range bound).find? fun n => Fl.le x (F64.ofInt n) && Fl.le (F64.ofInt n) x
  | _ => none

/-- The word of a number-valued kind, none if the value is malformed. -/
def numberWord (mk : Val → Instr) : MessageValue → List CmdWord
  | .plain v => ((textF32 v).map fun x => encode (mk x)).toList
  | .seqObject _ _ => []

/-- The word of a `gate` sub-object, none if a field of it is malformed (30_encoding.md R98). -/
def gateWord (o : SubObject) : Option CmdWord :=
  match textNat 16 o.index, textBool o.value with
  | some i, some b => some (encode (.seqGate (BitVec.ofNat 8 i) b))
  | _, _ => none

/-- The word of a `note` sub-object, none if a field of it is malformed (30_encoding.md R98). -/
def noteWord (o : SubObject) : Option CmdWord :=
  match textNat 16 o.index, textNat 128 o.value with
  | some i, some n => some (encode (.seqNote (BitVec.ofNat 8 i) (BitVec.ofNat 32 n)))
  | _, _ => none

/-- `seq` "expands to `SEQ_GATE` followed by `SEQ_NOTE`, each with its own index; either half is dropped
alone if malformed" (30_encoding.md R101). -/
def seqWords : MessageValue → List CmdWord
  | .plain _ => []
  | .seqObject gate note => (gate.bind gateWord).toList ++ (note.bind noteWord).toList

/-- `seqonoff` (30_encoding.md R101). -/
def onOffWords : MessageValue → List CmdWord
  | .plain v => ((textBool v).map fun b => encode (.seqOnOff b)).toList
  | .seqObject _ _ => []

/-- The command words of a message of a given kind, in the order they are sent (30_encoding.md R100,
R101); an unrecognised kind "produces no word". -/
def wordsOf (k : Kind) (v : MessageValue) : List CmdWord :=
  match k with
  | .freq => numberWord .freq v
  | .lfo => numberWord .lfo v
  | .depth => numberWord .depth v
  | .attack => numberWord .attack v
  | .decay => numberWord .decay v
  | .sustain => numberWord .sustain v
  | .sustainTime => numberWord .susTime v
  | .release => numberWord .release v
  | .trigger => [encode .trigger]
  | .seq => seqWords v
  | .seqonoff => onOffWords v
  | .bpm => numberWord .bpm v
  | .seqresume => [encode .seqResume]
  | .seqsuspend => [encode .seqSuspend]
  | .seqreset => [encode .seqReset]
  | .unrecognized => []

/-- The command words of a message (30_encoding.md R100). -/
def messageWords (m : Message) : List CmdWord := wordsOf (Kind.ofName m.message) m.value

end Sys2Proof.Machine
end

