-- ==== Sys2Proof/Machine/Wire.lean ====
section
/-! DEFINITION. The formats that cross a byte-wide boundary (20_memory.md R62 to R64). -/

namespace Sys2Proof.Machine

/-- "byte `4·i + k` (k = 0..3) is bits `[8k+7 : 8k]`" (20_memory.md R62), for one 32-bit value. -/
def leBytes (v : BitVec 32) : List Byte :=
  [v.extractLsb' 0 8, v.extractLsb' 8 8, v.extractLsb' 16 8, v.extractLsb' 24 8]

/-- The 32-bit value of four little-endian bytes. -/
def ofLeBytes (b0 b1 b2 b3 : Byte) : BitVec 32 := b3 ++ b2 ++ b1 ++ b0

/-- The bytes of consecutive samples; `pos` is the place of the first in the audio stream, where a NaN's
sign and payload are free values (20_memory.md R63, U6). -/
def sampleBytes : Nat → List F32 → List Byte
  | _, [] => []
  | pos, x :: xs => leBytes (F32.toBits (Config.nanAudio pos) x) ++ sampleBytes (pos + 1) xs

/-- The wire form of the `k`-th buffer of `OUT`, 1024 bytes, sample 0 first (20_memory.md R62). -/
def bufferBytes (k : Nat) (b : Buffer) : List Byte := sampleBytes (k * bufferLen) b.toList

/-- The wire form of consecutive buffers, "with no length prefix or sequence number" (20_memory.md R62). -/
def streamBytes : Nat → List Buffer → List Byte
  | _, [] => []
  | k, b :: bs => bufferBytes k b ++ streamBytes (k + 1) bs

/-- What has been sent on `AUDIO_OUT` so far, as bytes. -/
def audioBytes (s : State) : List Byte := streamBytes 0 s.out

/-- Read samples back from bytes; none if the bytes are not a whole number of samples. -/
def samplesOfBytes : List Byte → Option (List F32)
  | [] => some []
  | b0 :: b1 :: b2 :: b3 :: rest =>
    match samplesOfBytes rest with
    | some xs => some (F32.ofBits (ofLeBytes b0 b1 b2 b3) :: xs)
    | none => none
  | _ => none

/-- Read one buffer back from its wire form (20_memory.md R63); none unless it is exactly 256 samples
(R65). -/
def bufferOfBytes (bytes : List Byte) : Option Buffer :=
  match samplesOfBytes bytes with
  | some xs => if h : xs.length = bufferLen then some ⟨⟨xs⟩, h⟩ else none
  | none => none

/-- A status answer on a byte-wide transport: each word little-endian, word 0 first (20_memory.md R64). -/
def statusBytes (a : StatusWords) : List Byte := a.toList.flatMap leBytes

end Sys2Proof.Machine
end

