-- ==== Sys2Proof/Safety.lean ====
section
/-! DEFINITION. What counts as a safe state and a safe run: the named premises of 70_reset_and_hazards.md
R278, the legal parameter values of 10_state.md R36, and the invariants the rules give the state. -/

namespace Sys2Proof.Machine

/-- The tuple of 10_state.md R20 alone: the model's own fields emptied. -/
def State.block (s : State) : State := { s with out := [], answers := [], pending := [], drawn := 0 }

/-- `AT_RESET`: "the state is exactly the table of 10_state.md rule R40" (R278). -/
def AtReset (s : State) : Prop := s.block = State.reset

/-- `LEGAL_PARAMS`: "every parameter register holds a legal value" (R278; 10_state.md R35, R36).  The
ranges of `gate[i]` and `note[i]` are those of their types. -/
structure LegalParams (s : State) : Prop where
  freq : legalFinite s.freqReg = true
  lfo : legalFinite s.lfo.freq = true
  depth : legalFinite s.vco.depth = true
  attack : legalPositive s.eg.attackMs = true
  decay : legalPositive s.eg.decayMs = true
  sustain : legalUnit s.eg.sustainLevel = true
  susTime : legalNonneg s.eg.sustainMs = true
  release : legalPositive s.eg.releaseMs = true
  bpm : legalPositive s.seq.bpm = true

/-- The value is exactly representable in binary32: `ext` of a finite binary32 number. -/
def Binary32Exact (x : F64) : Prop := ∃ y : F32, y.isFinite = true ∧ x = F32.ext y

/-- "every parameter register always holds a value exactly representable in binary32" (10_state.md R37). -/
structure ParamsBinary32 (s : State) : Prop where
  freq : Binary32Exact s.freqReg
  lfo : Binary32Exact s.lfo.freq
  depth : Binary32Exact s.vco.depth
  attack : Binary32Exact s.eg.attackMs
  decay : Binary32Exact s.eg.decayMs
  sustain : Binary32Exact s.eg.sustainLevel
  susTime : Binary32Exact s.eg.sustainMs
  release : Binary32Exact s.eg.releaseMs
  bpm : Binary32Exact s.seq.bpm

/-- `length(q) <= CC_DEPTH` (10_state.md R32); with `INF` there is no bound. -/
def WithinDepth (depth : Option Nat) (q : List Buffer) : Prop := ∀ n, depth = some n → q.length ≤ n

/-- The two written channels are within `CC_DEPTH`, and `CC_LFO`, which nothing writes, is empty
(10_state.md R32, 40_control_channel.md R125). -/
structure ChannelsSound (s : State) : Prop where
  ccLfo : s.ccLfo = []
  ccFm : WithinDepth Config.ccDepth s.ccFm
  ccAm : WithinDepth Config.ccDepth s.ccAm

/-- "`cnt` is non-zero only while the tag is `sustain`" (42_envelope.md R155), and the value of an idle
envelope is 0 (R156, R157). -/
structure EnvelopeSound (e : Env F64) : Prop where
  cnt : e.st ≠ .sustain → e.cnt = 0
  idle : e.st = .idle → e.value = F64.ofInt 0

/-- The only sources of the frequency the VCO renders with: `FREQ` and the note table (10_state.md R23). -/
def VcoTuned (s : State) : Prop :=
  s.vco.freq = s.freqReg ∨ ∃ n : Fin 128, s.vco.freq = Config.noteFreq n

/-- What no event changes: "`VCA.gain` equals the configuration parameter `GAIN` at all times"
(43_gain_stage.md R181), and `LFO.depth` "is written only by `RESET`" (10_state.md R22). -/
structure ConstantsHeld (s : State) : Prop where
  gain : s.gain = Config.gain
  lfoDepth : s.lfo.depth = F64.ofInt 0

/-- A sample in [-1, 1], or a NaN (41_oscillator.md R139, 00_scope.md R15 S2, S5). -/
def UnitSample (x : F32) : Prop :=
  x = .nan ∨ ∃ neg, ∃ k : Fin binary32.top, x = .fin neg k ∧ k.val ≤ 0x3F800000

/-- Every buffer queued in `CC_FM` holds oscillator samples. -/
def FmInRange (s : State) : Prop := ∀ b ∈ s.ccFm, ∀ x ∈ b.toList, UnitSample x

/-- The invariants of every state reachable from reset. -/
structure Invariants (s : State) : Prop where
  legal : LegalParams s
  exact32 : ParamsBinary32 s
  channels : ChannelsSound s
  envelope : EnvelopeSound s.eg
  tuned : VcoTuned s
  constants : ConstantsHeld s
  fmRange : FmInRange s

/-- `FINITE_STATE`: "both phases, `EG.value` and every sample queued in a channel are finite" (R278). -/
structure FiniteState (s : State) : Prop where
  lfoPhase : s.lfo.phase.isFinite = true
  vcoPhase : s.vco.phase.isFinite = true
  value : s.eg.value.isFinite = true
  ccLfo : ∀ b ∈ s.ccLfo, ∀ x ∈ b.toList, Fl.isFinite x = true
  ccFm : ∀ b ∈ s.ccFm, ∀ x ∈ b.toList, Fl.isFinite x = true
  ccAm : ∀ b ∈ s.ccAm, ∀ x ∈ b.toList, Fl.isFinite x = true

/-- `CHANNELS_QUIET`: "`CC_FM` and `CC_AM` are empty" (R278). -/
def ChannelsQuiet (s : State) : Prop := s.ccFm = [] ∧ s.ccAm = []

/-- The `now` values of the ticks in a sequence of events. -/
def tickTimes : List Event → List Int
  | [] => []
  | .tick now :: es => now :: tickTimes es
  | _ :: es => tickTimes es

/-- `CLOCK_MONOTONE`: "the `now` values of successive ticks do not decrease" (R278). -/
def ClockMonotone (es : List Event) : Prop := (tickTimes es).Pairwise (· ≤ ·)

/-- Period 0 of `SCHED_LOCKSTEP` (R275). -/
def lockstepFirst : List Event := [.produceLfo, .produceEg, .produceVco false]

/-- Every later period of `SCHED_LOCKSTEP` (R275). -/
def lockstepPeriod : List Event :=
  [.paceLfo, .produceLfo, .paceEg, .produceEg, .ready, .produceVco false]

/-- Events that `SCHED_LOCKSTEP` allows between periods: "`CMD`, `TICK` and `STATUS` events occur only
between periods" (R275). -/
def betweenPeriods : Event → Bool
  | .cmd _ => true
  | .tick _ => true
  | .status => true
  | _ => false

/-- Periods of `SCHED_LOCKSTEP` after the first, with any events between them that it allows (R275). -/
inductive LockstepTail : List Event → Prop where
  | done : LockstepTail []
  | between (e : Event) (es : List Event) :
      betweenPeriods e = true → LockstepTail es → LockstepTail (e :: es)
  | period (es : List Event) : LockstepTail es → LockstepTail (lockstepPeriod ++ es)

/-- `LOCKSTEP`: "the event sequence follows `SCHED_LOCKSTEP`" (R278, R275). -/
inductive Lockstep : List Event → Prop where
  | between (e : Event) (es : List Event) :
      betweenPeriods e = true → Lockstep es → Lockstep (e :: es)
  | first (es : List Event) : LockstepTail es → Lockstep (lockstepFirst ++ es)
  | none : Lockstep []

/-- A state some sequence of events leads to from reset, whatever the environment chose (00_scope.md R9). -/
inductive Reachable : State → Prop where
  | reset (events : List Event) : Reachable (State.reset.setPending events)
  | step (s t : State) : Reachable s → step s = .next t → Reachable t

/-! ## Runs and fairness (00_scope.md R9, 70_reset_and_hazards.md R276, R277) -/

/-- A run: "Every behaviour is therefore an infinite sequence of events" (70_reset_and_hazards.md R276).
`ev n` is the event that happens in the state `st n`, where it is enabled, and `st (n + 1)` the state it
leaves; any interleaving of enabled events is a run (00_scope.md R9). -/
structure IsRun (ev : Nat → Event) (st : Nat → State) : Prop where
  isEnabled : ∀ n, enabled (st n) (ev n) = true
  isNext : ∀ n, perform (ev n) (st n) = .next (st (n + 1))

/-- A behaviour of the block: a run from the state after reset. -/
structure IsBehaviour (ev : Nat → Event) (st : Nat → State) : Prop extends IsRun ev st where
  start : st 0 = State.reset

/-- Weak fairness to the events of `E`: from any point of the run on, if one of them stays enabled, then
one of them eventually happens (00_scope.md R9). -/
def WeaklyFairTo (E : Event → Prop) (ev : Nat → Event) (st : Nat → State) : Prop :=
  ∀ n, (∀ m, n ≤ m → ∃ e, E e ∧ enabled (st m) e = true) → ∃ m, n ≤ m ∧ E (ev m)

/-- `PRODUCE(VCO, acc)` with either answer, which is the environment's (00_scope.md R8, R9). -/
def IsProduceVco (e : Event) : Prop := ∃ acc, e = .produceVco acc

/-- Weak fairness, "the only liveness assumption" (00_scope.md R9): each event that the block itself
performs, if it stays enabled, eventually happens.  The other events are the environment's, which has a
duty or a liberty for each of them (70_reset_and_hazards.md R277; assumption log 8). -/
structure WeaklyFair (ev : Nat → Event) (st : Nat → State) : Prop where
  produceLfo : WeaklyFairTo (· = .produceLfo) ev st
  produceEg : WeaklyFairTo (· = .produceEg) ev st
  produceVco : WeaklyFairTo IsProduceVco ev st
  paceLfo : WeaklyFairTo (· = .paceLfo) ev st
  paceEg : WeaklyFairTo (· = .paceEg) ev st

/-- The consumer's duty: "after answering `acc = false` the consumer must eventually send `READY`"
(70_reset_and_hazards.md R277); a `RESET` ends that wait as well (R260). -/
def ConsumerReady (ev : Nat → Event) (st : Nat → State) : Prop :=
  ∀ n, (st n).vcoBlocked = true → ∃ m, n ≤ m ∧ (ev m = .ready ∨ ev m = .reset)

/-- The clock's duty, "for sequencer progress only": `now` is non-decreasing, ticks keep arriving, and
`now` passes every bound (60_exceptions.md R241, 70_reset_and_hazards.md R277). -/
structure ClockAdvances (ev : Nat → Event) : Prop where
  monotone : ∀ n, ClockMonotone ((List.range n).map ev)
  advances : ∀ (n : Nat) (bound : Int), ∃ m now, n ≤ m ∧ ev m = .tick now ∧ bound ≤ now

end Sys2Proof.Machine
end

