-- ==== Sys2Proof/Certificates/Slice0/Obligations.lean ====
section
/-! DEFINITION. What the provers are asked to prove of the model, each from rules of spec/. -/

open Sys2Proof Sys2Proof.Machine

/-! ## Encoding and decoding (30_encoding.md) -/

/-- Every command sent as bytes is read back as itself, whatever bytes follow (R92, R93, R64). -/
def Obligations.DecodeUndoesEncode : Prop :=
  ∀ (i : Instr) (rest : List Byte), decode (wordBytes (encode i) ++ rest) = .ok (i, rest)

/-- The word sent for a decoded command has the same opcode and the same used fields, and 0 in every field
the opcode ignores (R92, R93, R100). -/
def Obligations.EncodeKeepsUsedFields : Prop :=
  ∀ (w : CmdWord) (i : Instr), decodeWord w = .ok i →
    CmdWord.opc (encode i) = CmdWord.opc w ∧ CmdWord.rsv (encode i) = 0#16 ∧
      CmdWord.idx (encode i) = (if i.usesIdx then CmdWord.idx w else 0#8) ∧
      CmdWord.val (encode i) = (if i.usesVal then CmdWord.val w else 0#32)

/-- Words that agree in the opcode and in the fields the opcode uses decode alike: RSV never matters, IDX
and VAL only where R93 gives them a use. -/
def Obligations.IgnoredFieldsDoNotMatter : Prop :=
  ∀ (w w' : CmdWord) (i : Instr), decodeWord w = .ok i → CmdWord.opc w' = CmdWord.opc w →
    (i.usesIdx = true → CmdWord.idx w' = CmdWord.idx w) →
    (i.usesVal = true → CmdWord.val w' = CmdWord.val w) → decodeWord w' = .ok i

/-- A word whose opcode R93 does not assign changes nothing (R97).  That the decoder rejects it by name is
the model's own choice (log 11, DEDUCED); R97 says only that the word is a no-op. -/
def Obligations.UnassignedOpcodeIsIgnored : Prop :=
  ∀ w : CmdWord,
    (CmdWord.opc w).toNat ∉ [0x01, 0x02, 0x03, 0x04, 0x05, 0x06, 0x07, 0x08, 0x09, 0x0A, 0x0B, 0x0C,
      0x0D, 0x10, 0x11, 0x12] →
    decodeWord w = .error (.unassigned (CmdWord.opc w)) ∧ ∀ s : State, perform (.cmd w) s = .next s

/-- Words of R100's table and of the vectors V-ENC, written out, decode to their commands. -/
def Obligations.WrittenWordsDecode : Prop :=
  decodeWord 0x0100000043DC0000#64 = .ok (.freq 0x43DC0000#32) ∧
    decodeWord 0x010000FF43DC0000#64 = .ok (.freq 0x43DC0000#32) ∧
    decodeWord 0x060000003F000000#64 = .ok (.sustain 0x3F000000#32) ∧
    decodeWord 0x09ABCDEF12345678#64 = .ok .trigger ∧
    decodeWord 0x0A00000300000001#64 = .ok (.seqGate 3#8 1#32) ∧
    decodeWord 0x0B00000300000045#64 = .ok (.seqNote 3#8 69#32) ∧
    decodeWord 0x1000001212345678#64 = .ok .seqResume ∧
    decode [0x00#8, 0x00#8, 0xDC#8, 0x43#8, 0x00#8, 0x00#8, 0x00#8, 0x01#8] =
      .ok (.freq 0x43DC0000#32, [])

/-! ## Running commands -/

/-- When the next event presented is a command word that decodes, the step is the command's effect on the
state from which the event has been taken (R96, R102). -/
def Obligations.StepRunsDecodedCommand : Prop :=
  ∀ (s : State) (w : CmdWord) (rest : List Event) (i : Instr),
    s.pending = .cmd w :: rest → decodeWord w = .ok i → step s = exec i { s with pending := rest }

/-- A command with a malformed operand changes nothing (R94, R95, R98). -/
def Obligations.MalformedOperandIsIgnored : Prop :=
  ∀ (i : Instr) (s : State), i.wellFormed = false → exec i s = .next s

/-- A command whose operands are well formed but not legal values changes nothing (R99). -/
def Obligations.IllegalValueIsIgnored : Prop :=
  ∀ (i : Instr) (s : State), i.wellFormed = true → accepted i = false → exec i s = .next s

/-- The legal operands of 10_state.md R35 and R36, read off the operand's bits. -/
def Obligations.LegalRangesByBits : Prop :=
  ∀ v : Val,
    (accepted (.freq v) = f32WellFormed v ∧ accepted (.lfo v) = f32WellFormed v ∧
      accepted (.depth v) = f32WellFormed v) ∧
    ((accepted (.attack v) = true ↔ 0 < v.toNat ∧ v.toNat < 0x7F800000) ∧
      (accepted (.decay v) = true ↔ 0 < v.toNat ∧ v.toNat < 0x7F800000) ∧
      (accepted (.release v) = true ↔ 0 < v.toNat ∧ v.toNat < 0x7F800000) ∧
      (accepted (.bpm v) = true ↔ 0 < v.toNat ∧ v.toNat < 0x7F800000)) ∧
    (accepted (.sustain v) = true ↔ v.toNat ≤ 0x3F800000 ∨ v = 0x80000000#32) ∧
    (accepted (.susTime v) = true ↔ v.toNat < 0x7F800000 ∨ v = 0x80000000#32)

/-- `FREQ`, `LFO` and `DEPTH` with a finite operand write their registers and nothing else (R131, R132,
R134). -/
def Obligations.OscillatorCommandsComplete : Prop :=
  ∀ (v : Val) (s : State), f32WellFormed v = true →
    exec (.freq v) s = .next { s with
      freqReg := F32.ext (F32.ofBits v), vco := { s.vco with freq := F32.ext (F32.ofBits v) } } ∧
    exec (.lfo v) s = .next { s with lfo := { s.lfo with freq := F32.ext (F32.ofBits v) } } ∧
    exec (.depth v) s = .next { s with vco := { s.vco with depth := F32.ext (F32.ofBits v) } }

/-- The five envelope parameters: each command with a legal operand writes its own register and nothing
else (R161 to R165). -/
def Obligations.EnvelopeCommandsComplete : Prop :=
  ∀ (v : Val) (s : State),
    (0 < v.toNat ∧ v.toNat < 0x7F800000 →
      exec (.attack v) s = .next { s with eg := { s.eg with attackMs := F32.ext (F32.ofBits v) } } ∧
      exec (.decay v) s = .next { s with eg := { s.eg with decayMs := F32.ext (F32.ofBits v) } } ∧
      exec (.release v) s = .next { s with eg := { s.eg with releaseMs := F32.ext (F32.ofBits v) } }) ∧
    (v.toNat ≤ 0x3F800000 ∨ v = 0x80000000#32 →
      exec (.sustain v) s = .next { s with eg := { s.eg with sustainLevel := F32.ext (F32.ofBits v) } }) ∧
    (v.toNat < 0x7F800000 ∨ v = 0x80000000#32 →
      exec (.susTime v) s = .next { s with eg := { s.eg with sustainMs := F32.ext (F32.ofBits v) } })

/-- `TRIGGER` restarts the envelope from any state and puts the host's frequency back into the VCO; the
parameters and the phases stay (R151, R166). -/
def Obligations.TriggerRestartsAndRestores : Prop :=
  ∀ s : State, exec .trigger s = .next { s with
    eg := { s.eg with st := .attack, value := F64.ofInt 0, cnt := 0 },
    vco := { s.vco with freq := s.freqReg } }

/-- `SEQ_GATE` and `SEQ_NOTE` write one field of the addressed entry and nothing else (R199, R200). -/
def Obligations.PatternCommandsComplete : Prop :=
  ∀ (k : Fin 16) (s : State),
    (∀ b : Bool, exec (.seqGate (BitVec.ofNat 8 k.val) (if b then 1#32 else 0#32)) s =
      .next { s with pat := s.pat.set k { s.pat[k] with gate := b } }) ∧
    (∀ n : Fin 128, exec (.seqNote (BitVec.ofNat 8 k.val) (BitVec.ofNat 32 n.val)) s =
      .next { s with pat := s.pat.set k { s.pat[k] with note := n } })

/-- `SEQONOFF` starts or stops the sequencer, rewinding it either way and leaving `last` (R201, R194,
R195). -/
def Obligations.SeqOnOffRewinds : Prop :=
  ∀ (b : Bool) (s : State), exec (.seqOnOff (if b then 1#32 else 0#32)) s =
    .next { s with seq := { s.seq with step := 0, running := b } }

/-- `BPM` with a finite positive operand writes the tempo and nothing else (R202). -/
def Obligations.BpmWritesTempo : Prop :=
  ∀ (v : Val) (s : State), 0 < v.toNat → v.toNat < 0x7F800000 →
    exec (.bpm v) s = .next { s with seq := { s.seq with bpm := F32.ext (F32.ofBits v) } }

/-- `SEQ_RESUME`, `SEQ_SUSPEND` and `SEQ_RESET` write one field of the sequencer each (R203, R204, R206,
R196 to R198). -/
def Obligations.SequencerExtensionsComplete : Prop :=
  ∀ s : State,
    exec .seqResume s = .next { s with seq := { s.seq with running := true } } ∧
    exec .seqSuspend s = .next { s with seq := { s.seq with running := false } } ∧
    exec .seqReset s = .next { s with seq := { s.seq with step := 0 } }

/-- What no command changes: the phases, `LFO.depth`, the gain, the channels, the blocked flags, the
sequencer's timestamp, the emitted audio and the answers (R35, R73, R272). -/
def Obligations.CommandFrame : Prop :=
  ∀ (i : Instr) (s t : State), exec i s = .next t →
    t.lfo.phase = s.lfo.phase ∧ t.vco.phase = s.vco.phase ∧ t.lfo.depth = s.lfo.depth ∧
      t.gain = s.gain ∧ t.ccLfo = s.ccLfo ∧ t.ccFm = s.ccFm ∧ t.ccAm = s.ccAm ∧
      t.lfoBlocked = s.lfoBlocked ∧ t.egBlocked = s.egBlocked ∧ t.vcoBlocked = s.vcoBlocked ∧
      t.seq.last = s.seq.last ∧ t.out = s.out ∧ t.answers = s.answers ∧ t.pending = s.pending ∧
      t.drawn = s.drawn

/-- Apart from `RESET`, each parameter register changes only by a command that names it: `gate[i]` and
`note[i]` only by the command with index `i`, `seqonoff` only by `SEQONOFF`, `SEQ_RESUME` and `SEQ_SUSPEND`
(10_state.md R22 to R24, R28, R30, R31, R35). -/
def Obligations.ParametersHaveOneWriter : Prop :=
  ∀ (e : Event) (s t : State), perform e s = .next t → e ≠ .reset →
    (t.freqReg ≠ s.freqReg → ∃ w v, e = .cmd w ∧ decodeWord w = .ok (.freq v)) ∧
    (t.lfo.freq ≠ s.lfo.freq → ∃ w v, e = .cmd w ∧ decodeWord w = .ok (.lfo v)) ∧
    (t.vco.depth ≠ s.vco.depth → ∃ w v, e = .cmd w ∧ decodeWord w = .ok (.depth v)) ∧
    (t.eg.attackMs ≠ s.eg.attackMs → ∃ w v, e = .cmd w ∧ decodeWord w = .ok (.attack v)) ∧
    (t.eg.decayMs ≠ s.eg.decayMs → ∃ w v, e = .cmd w ∧ decodeWord w = .ok (.decay v)) ∧
    (t.eg.sustainLevel ≠ s.eg.sustainLevel → ∃ w v, e = .cmd w ∧ decodeWord w = .ok (.sustain v)) ∧
    (t.eg.sustainMs ≠ s.eg.sustainMs → ∃ w v, e = .cmd w ∧ decodeWord w = .ok (.susTime v)) ∧
    (t.eg.releaseMs ≠ s.eg.releaseMs → ∃ w v, e = .cmd w ∧ decodeWord w = .ok (.release v)) ∧
    (t.seq.bpm ≠ s.seq.bpm → ∃ w v, e = .cmd w ∧ decodeWord w = .ok (.bpm v)) ∧
    (∀ i : Fin 16, t.pat[i].gate ≠ s.pat[i].gate →
      ∃ w k v, e = .cmd w ∧ decodeWord w = .ok (.seqGate k v) ∧ k.toNat = i.val) ∧
    (∀ i : Fin 16, t.pat[i].note ≠ s.pat[i].note →
      ∃ w k v, e = .cmd w ∧ decodeWord w = .ok (.seqNote k v) ∧ k.toNat = i.val) ∧
    (t.seq.running ≠ s.seq.running → ∃ w, e = .cmd w ∧
      ((∃ v, decodeWord w = .ok (.seqOnOff v)) ∨ decodeWord w = .ok .seqResume ∨
        decodeWord w = .ok .seqSuspend))

/-! ## The sequencer (44_sequencer.md) -/

/-- A tick that is not due, or comes while the sequencer is stopped, changes nothing; one that is due
advances exactly one step, records the time and, on an active gate of the new step only, triggers the
envelope and retunes the VCO (R191, R193, R208). -/
def Obligations.TickAdvancesOneStep : Prop :=
  ∀ (now : Int) (s : State),
    (s.seq.running = false ∨
        Fl.le (Fl.div (F64.ofInt 6000) s.seq.bpm) (F64.ofInt (now - s.seq.last)) = false →
      perform (.tick now) s = .next s) ∧
    (s.seq.running = true →
      Fl.le (Fl.div (F64.ofInt 6000) s.seq.bpm) (F64.ofInt (now - s.seq.last)) = true →
      (s.pat[s.seq.step + 1].gate = false →
        perform (.tick now) s =
          .next { s with seq := { s.seq with step := s.seq.step + 1, last := now } }) ∧
      (s.pat[s.seq.step + 1].gate = true →
        perform (.tick now) s = .next { s with
          seq := { s.seq with step := s.seq.step + 1, last := now },
          eg := { s.eg with st := .attack, value := F64.ofInt 0, cnt := 0 },
          vco := { s.vco with freq := Config.noteFreq s.pat[s.seq.step + 1].note } }))

/-- At 120 BPM a running sequencer fires exactly when 50 ms have elapsed, for every pair of times, under
`NUM_F64` and under `NUM_EXACT`; under `NUM_EXACT` it fires at any tempo exactly when `6000/bpm` ms have
(R191, R192; 00_scope.md R13; L1-7). -/
def Obligations.StepIntervalAt120 : Prop :=
  (∀ (q : Sequencer F64) (now : Int), q.running = true → q.bpm = F64.ofInt 120 →
      (tickFires numF64 q now = true ↔ 50 ≤ now - q.last)) ∧
    (∀ (q : Sequencer ℝ) (now : Int), q.running = true →
      (tickFires numExact q now = true ↔ 6000 / q.bpm ≤ ((now - q.last : Int) : ℝ)) ∧
        (q.bpm = 120 → (tickFires numExact q now = true ↔ 50 ≤ now - q.last)))

/-- At 120 BPM, ticks at least 50 ms apart advance one step each, so that sixteen of them come back to
the same step; no lateness is caught up.  Under `NUM_EXACT` so do ticks at least `6000/bpm` ms apart at any
tempo (R191, R192, R207, R208; 00_scope.md R13; L1-7). -/
def Obligations.SpacedTicksAdvanceOneEach : Prop :=
  (∀ (s : State) (times : List Int), s.seq.running = true → s.seq.bpm = F64.ofInt 120 →
      (s.seq.last :: times).IsChain (fun a b => 50 ≤ b - a) →
      ∃ t, performAll (times.map .tick) s = .next t ∧
        t.seq.step.val = (s.seq.step.val + times.length) % 16 ∧
        t.seq.last = times.getLast?.getD s.seq.last) ∧
    (∀ (q : Sequencer ℝ) (times : List Int), q.running = true →
      (q.last :: times).IsChain (fun a b => 6000 / q.bpm ≤ ((b - a : Int) : ℝ)) →
      (times.foldl (fun q now => seqAfter numExact now q) q).step.val =
          (q.step.val + times.length) % 16 ∧
        (times.foldl (fun q now => seqAfter numExact now q) q).last = times.getLast?.getD q.last)

/-- "`SEQ.last` is written only by a firing tick (and `RESET`)" (R209). -/
def Obligations.TimestampOnlyFromFiringTick : Prop :=
  ∀ (e : Event) (s t : State), perform e s = .next t → t.seq.last ≠ s.seq.last →
    e = .reset ∨ ∃ now, e = .tick now ∧ tickFires numF64 s.seq now = true ∧ t.seq.last = now

/-! ## The envelope (42_envelope.md), under `NUM_EXACT` where counts are exact (90_conflicts.md C7) -/

/-- The attack lasts `ceil(SR·attackMs/1000)` steps, rising by `a` a step, and overshoots 1 by less than
`a` (R153; L1-3). -/
def Obligations.AttackStepCount : Prop :=
  ∀ e : Env ℝ, e.st = .attack → e.value = 0 → 0 < e.attackMs →
    (∀ k < attackSteps e.attackMs, (envAfter numExact k e).st = .attack ∧
      (envAfter numExact k e).value = k * (1000 / (44100 * e.attackMs))) ∧
    (envAfter numExact (attackSteps e.attackMs) e).st = .decay ∧
    (envAfter numExact (attackSteps e.attackMs) e).value =
      attackSteps e.attackMs * (1000 / (44100 * e.attackMs)) ∧
    1 ≤ (envAfter numExact (attackSteps e.attackMs) e).value ∧
    (envAfter numExact (attackSteps e.attackMs) e).value < 1 + 1000 / (44100 * e.attackMs)

/-- The decay falls by `d·S` a step for `max(1, ceil((V - S)/(d·S)))` steps and undershoots `S` by less
than `d·S` (R154). -/
def Obligations.DecayStepCount : Prop :=
  ∀ e : Env ℝ, e.st = .decay → 0 < e.decayMs → 0 < e.sustainLevel →
    (∀ k < decaySteps e.value e.decayMs e.sustainLevel, (envAfter numExact k e).st = .decay ∧
      (envAfter numExact k e).value = e.value - k * (1000 / (44100 * e.decayMs) * e.sustainLevel)) ∧
    (envAfter numExact (decaySteps e.value e.decayMs e.sustainLevel) e).st = .sustain ∧
    (envAfter numExact (decaySteps e.value e.decayMs e.sustainLevel) e).value ≤ e.sustainLevel ∧
    (e.sustainLevel < e.value →
      e.sustainLevel - 1000 / (44100 * e.decayMs) * e.sustainLevel <
        (envAfter numExact (decaySteps e.value e.decayMs e.sustainLevel) e).value)

/-- Exactly `floor(Ns)` sustain steps leave the tag at sustain and the next one moves to release with the
counter back at 0; all of them output the sustain level (R155; L1-4). -/
def Obligations.SustainStepCount : Prop :=
  ∀ e : Env ℝ, e.st = .sustain → e.cnt = 0 → 0 ≤ e.sustainMs →
    (∀ k ≤ ⌊44100 * (1 / 1000) * e.sustainMs⌋₊, (envAfter numExact k e).st = .sustain ∧
      (envAfter numExact k e).cnt = k ∧ (0 < k → (envAfter numExact k e).value = e.sustainLevel)) ∧
    (envAfter numExact (⌊44100 * (1 / 1000) * e.sustainMs⌋₊ + 1) e).st = .release ∧
    (envAfter numExact (⌊44100 * (1 / 1000) * e.sustainMs⌋₊ + 1) e).cnt = 0 ∧
    (envAfter numExact (⌊44100 * (1 / 1000) * e.sustainMs⌋₊ + 1) e).value = e.sustainLevel

/-- The release falls by `r` a step for `max(1, ceil(V/r))` steps, the last of which is clamped to 0 and
goes idle (R156). -/
def Obligations.ReleaseStepCount : Prop :=
  ∀ e : Env ℝ, e.st = .release → 0 < e.releaseMs →
    (∀ k < releaseSteps e.value e.releaseMs, (envAfter numExact k e).st = .release ∧
      (envAfter numExact k e).value = e.value - k * (1000 / (44100 * e.releaseMs)) ∧
      (0 < k → 0 < (envAfter numExact k e).value)) ∧
    (envAfter numExact (releaseSteps e.value e.releaseMs) e).st = .idle ∧
    (envAfter numExact (releaseSteps e.value e.releaseMs) e).value = 0

/-- The whole envelope after a trigger: `n_A` attack, `n_D` decay, `n_S` sustain and `n_R` release steps,
then idle at 0 for ever (R168). -/
def Obligations.WholeEnvelopeLength : Prop :=
  ∀ (e : Env ℝ) (nA nD nS nR : ℕ), e.st = .attack → e.value = 0 → e.cnt = 0 → 0 < e.attackMs →
    0 < e.decayMs → 0 < e.sustainLevel → 0 ≤ e.sustainMs → 0 < e.releaseMs →
    nA = attackSteps e.attackMs →
    nD = decaySteps (nA * (1000 / (44100 * e.attackMs))) e.decayMs e.sustainLevel →
    nS = sustainSteps e.sustainMs → nR = releaseSteps e.sustainLevel e.releaseMs →
    (∀ k < nA, (envAfter numExact k e).st = .attack) ∧
    (∀ k < nD, (envAfter numExact (nA + k) e).st = .decay) ∧
    (∀ k < nS, (envAfter numExact (nA + nD + k) e).st = .sustain) ∧
    (∀ k < nR, (envAfter numExact (nA + nD + nS + k) e).st = .release) ∧
    (∀ k, (envAfter numExact (nA + nD + nS + nR + k) e).st = .idle ∧
      (envAfter numExact (nA + nD + nS + nR + k) e).value = 0)

/-- The true range of the envelope's value after a trigger: at least `-max(0, d - 1)·S`, below `1 + a`
(R167; 90_conflicts.md C1). -/
def Obligations.EnvelopeValueRange : Prop :=
  ∀ (e : Env ℝ) (k : ℕ), e.st = .attack → e.value = 0 → 0 < e.attackMs → 0 < e.decayMs →
    0 ≤ e.sustainLevel → e.sustainLevel ≤ 1 → 0 < e.releaseMs →
    -(max 0 (1000 / (44100 * e.decayMs) - 1)) * e.sustainLevel ≤ (envAfter numExact k e).value ∧
      (envAfter numExact k e).value < 1 + 1000 / (44100 * e.attackMs)

/-- With the sustain level at 0 the decay never ends: under `NUM_F64` the envelope keeps its tag and its
value through any number of steps (R154, 70_reset_and_hazards.md R268). -/
def Obligations.DecayStuckAtSustainZero : Prop :=
  ∀ (e : Env F64) (n : ℕ), e.st = .decay → Fl.isZero e.sustainLevel = true →
    Fl.isFinite e.value = true → Fl.le (F64.ofInt 1) e.value = true →
    Fl.isFinite (perSample numF64 e.decayMs) = true → envAfter numF64 n e = e

/-! ## Oscillators and the gain stage (41_oscillator.md, 43_gain_stage.md) -/

/-- The closed form of a render cycle under `NUM_EXACT`, and the sine of constant frequency it gives with
no modulation, counted across buffers (R138; L1-1). -/
def Obligations.OscillatorClosedForm : Prop :=
  ∀ (o : Osc ℝ) (m : Option (Vector ℝ bufferLen)),
    (∀ i : Fin bufferLen, (oscRender numExact o m)[i] =
      Real.sin (2 * Real.pi * (o.phase + (i.val * o.freq +
        o.depth * ((controlSamples numExact m).take i.val).sum) / 44100))) ∧
    (oscAfter numExact o m).phase =
      o.phase + (256 * o.freq + o.depth * (controlSamples numExact m).sum) / 44100 ∧
    (∀ k : ℕ, o.depth = 0 → o.phase = 256 * k * o.freq / 44100 →
      (∀ i : Fin bufferLen, (oscRender numExact o m)[i] =
        Real.sin (2 * Real.pi * o.freq * ((256 * k + i.val : ℕ) : ℝ) / 44100)) ∧
      (oscAfter numExact o m).phase = 256 * (k + 1 : ℕ) * o.freq / 44100)

/-- Sample `i` an oscillator of the machine renders is taken at the phase before frame `i`, the phase
after the advances of the `i` frames before it (R130).  It is in [-1, 1] or a NaN, in [-1, 1] when that
phase is finite, and 0 when that phase is 0 (R139; 00_scope.md R15 S2, S3, S5). -/
def Obligations.OscillatorSampleRange : Prop :=
  ∀ (o : Osc F64) (m : Option Buffer) (i : Fin bufferLen) (p : F64),
    p = oscPhase numF64 o.freq o.depth o.phase ((controlSamples numF64 m).take i.val) →
    (oscRender numF64 o m)[i] = F64.rnd32 (F64.sin2pi p) ∧
      UnitSample (oscRender numF64 o m)[i] ∧
      (p.isFinite = true → (oscRender numF64 o m)[i].isFinite = true) ∧
      (p.isZero = true → (oscRender numF64 o m)[i].isZero = true)

/-- With modulation depth 0 and a finite non-zero frequency a render cycle does not depend on the control
samples, if these are finite (R139; L1-1). -/
def Obligations.DepthZeroIgnoresControl : Prop :=
  ∀ (o : Osc F64) (b : Buffer), Fl.isZero o.depth = true → Fl.isFinite o.freq = true →
    Fl.isZero o.freq = false → (∀ x ∈ b.toList, Fl.isFinite x = true) →
    oscRender numF64 o (some b) = oscRender numF64 o (none : Option Buffer) ∧
      oscAfter numF64 o (some b) = oscAfter numF64 o (none : Option Buffer)

/-- Lane `i` of the gain stage's output is `rnd32((ext(x[i]) * gain) * cv)` with the control sample of
lane `i`, 0 when no buffer is queued; no lane depends on another (R182, R183). -/
def Obligations.GainStageLanes : Prop :=
  ∀ (gain : F64) (x : Buffer) (m : Option Buffer) (i : Fin bufferLen),
    (vcaProcess numF64 gain x m)[i] =
      F64.rnd32 (Fl.mul (Fl.mul (F32.ext x[i]) gain)
        (match m with
          | none => F64.ofInt 0
          | some b => F32.ext b[i]))

/-- Without a control buffer every lane whose product with the gain is finite is a zero: silence, not the
input (R183, R184; V-VCA-2). -/
def Obligations.SilenceWithoutControl : Prop :=
  ∀ (gain : F64) (x : Buffer) (i : Fin bufferLen),
    Fl.isFinite (Fl.mul (F32.ext x[i]) gain) = true →
    Fl.isZero (vcaProcess numF64 gain x none)[i] = true

/-- The source's property of the gain stage under `NUM_EXACT`: a constant control buffer `c` gives
`input·g·c`, no control buffer gives 0 (R182; L1-5). -/
def Obligations.GainStageExactProduct : Prop :=
  ∀ (g c : ℝ) (x : Vector ℝ bufferLen) (i : Fin bufferLen),
    (vcaProcess numExact g x (some (Vector.replicate bufferLen c)))[i] = x[i] * g * c ∧
      (vcaProcess numExact g x none)[i] = 0

/-! ## ControlChannels and events (40_control_channel.md) -/

/-- A write keeps the newest buffers in order: at most the capacity of them, all of them with no bound
(R121, R122). -/
def Obligations.ChannelKeepsNewest : Prop :=
  ∀ (n : ℕ) (q : List Buffer) (b : Buffer), 0 < n → q.length ≤ n →
    enqueue (some n) q b = (q ++ [b]).drop (q.length + 1 - n) ∧
      (enqueue (some n) q b).length ≤ n ∧ enqueue none q b = q ++ [b]

/-- `PRODUCE(LFO)` and `PRODUCE(EG)`, when enabled, render one buffer, write it to their channel, and
block their node; nothing else changes (41_oscillator.md R135, 42_envelope.md R160). -/
def Obligations.ControlProducersQueueOneBuffer : Prop :=
  ∀ s : State,
    (s.lfoBlocked = false → perform .produceLfo s = .next { s with
      lfo := { s.lfo with
        phase := oscPhase numF64 s.lfo.freq s.lfo.depth s.lfo.phase (controlSamples numF64 s.ccLfo.head?) },
      ccLfo := s.ccLfo.tail,
      ccFm := enqueue Config.ccDepth s.ccFm (oscRender numF64 s.lfo s.ccLfo.head?),
      lfoBlocked := true }) ∧
    (s.egBlocked = false → perform .produceEg s = .next { s with
      eg := envAfter numF64 bufferLen s.eg,
      ccAm := enqueue Config.ccDepth s.ccAm (envRender numF64 s.eg),
      egBlocked := true })

/-- `PRODUCE(VCO, acc)`, when enabled, consumes at most one buffer of each control channel, emits exactly
one buffer whether or not it is accepted, and blocks the VCO iff it was not (41_oscillator.md R136). -/
def Obligations.ProduceVcoEmitsOneBuffer : Prop :=
  ∀ (acc : Bool) (s : State), s.vcoBlocked = false →
    perform (.produceVco acc) s = .next { s with
      vco := { s.vco with
        phase := oscPhase numF64 s.vco.freq s.vco.depth s.vco.phase (controlSamples numF64 s.ccFm.head?) },
      ccFm := s.ccFm.tail,
      ccAm := s.ccAm.tail,
      out := s.out ++ [vcaProcess numF64 s.gain (oscRender numF64 s.vco s.ccFm.head?) s.ccAm.head?],
      vcoBlocked := !acc }

/-- The unblocking events clear their flag and change nothing else; a `READY` with the VCO unblocked
changes nothing (R123, 41_oscillator.md R137).  The flags decide what can happen: a node's `PRODUCE` iff it
is not blocked (10_state.md R33), its `PACE` iff it is (R123).  That an event which is not enabled, if it is
presented all the same, changes nothing is the model's choice (log 8). -/
def Obligations.UnblockingEvents : Prop :=
  ∀ s : State,
    enabled s .produceLfo = !s.lfoBlocked ∧ enabled s .produceEg = !s.egBlocked ∧
    (∀ acc, enabled s (.produceVco acc) = !s.vcoBlocked) ∧
    enabled s .paceLfo = s.lfoBlocked ∧ enabled s .paceEg = s.egBlocked ∧
    (∀ e, enabled s e = false → perform e s = .next s) ∧
    (s.lfoBlocked = true → perform .paceLfo s = .next { s with lfoBlocked := false }) ∧
    (s.egBlocked = true → perform .paceEg s = .next { s with egBlocked := false }) ∧
    perform .ready s = .next { s with vcoBlocked := false } ∧
    (s.vcoBlocked = false → perform .ready s = .next s)

/-- The emitted stream only grows, by one buffer a `PRODUCE(VCO, _)` and by nothing else (20_memory.md
R74, 10_state.md R39).  That a `RESET` leaves it as it is, is the model's choice (log 10, DESIGN CHOICE). -/
def Obligations.OutputOnlyGrows : Prop :=
  ∀ (e : Event) (s t : State), perform e s = .next t →
    t.out = s.out ∨ ((∃ acc, e = .produceVco acc) ∧ ∃ y, t.out = s.out ++ [y])

/-- One period of the lockstep schedule, from quiet channels: it emits the VCO's buffer modulated by the
LFO's buffer and multiplied by the envelope's buffer of the same period, and leaves the channels quiet,
for any channel capacity (70_reset_and_hazards.md R275). -/
def Obligations.LockstepPeriodOutput : Prop :=
  ∀ s : State, ChannelsQuiet s → s.ccLfo = [] →
    (s.lfoBlocked = true ∧ s.egBlocked = true ∧ s.vcoBlocked = true →
      ∃ t, performAll lockstepPeriod s = .next t ∧ ChannelsQuiet t ∧
        (t.lfoBlocked = true ∧ t.egBlocked = true ∧ t.vcoBlocked = true) ∧
        t.out = s.out ++ [vcaProcess numF64 s.gain
          (oscRender numF64 s.vco (some (oscRender numF64 s.lfo (none : Option Buffer))))
          (some (envRender numF64 s.eg))]) ∧
    (s.lfoBlocked = false ∧ s.egBlocked = false ∧ s.vcoBlocked = false →
      ∃ t, performAll lockstepFirst s = .next t ∧ ChannelsQuiet t ∧
        (t.lfoBlocked = true ∧ t.egBlocked = true ∧ t.vcoBlocked = true) ∧
        t.out = s.out ++ [vcaProcess numF64 s.gain
          (oscRender numF64 s.vco (some (oscRender numF64 s.lfo (none : Option Buffer))))
          (some (envRender numF64 s.eg))])

/-! ## Reset and status (10_state.md) -/

/-- The reset values of R40, every row of the table.  That the ten parameter registers take the table's
default `RESET_*` values (440, 1, 0, 10, 100, 0.5, 100, 100, 120, note 69), which R40 lets a model override,
is the model's choice (log 7, DESIGN CHOICE). -/
def Obligations.ResetTable : Prop :=
  (State.reset.lfo.phase = F64.ofInt 0 ∧ State.reset.vco.phase = F64.ofInt 0) ∧
    (State.reset.freqReg = F64.ofInt 440 ∧ State.reset.vco.freq = F64.ofInt 440) ∧
    State.reset.lfo.freq = F64.ofInt 1 ∧
    State.reset.vco.depth = F64.ofInt 0 ∧
    State.reset.lfo.depth = F64.ofInt 0 ∧
    State.reset.eg = {
      st := .idle, value := F64.ofInt 0, cnt := 0, attackMs := F64.ofInt 10,
      decayMs := F64.ofInt 100, sustainLevel := Fl.ofRatio binary64 1 2, sustainMs := F64.ofInt 100,
      releaseMs := F64.ofInt 100 } ∧
    State.reset.gain = Config.gain ∧
    State.reset.seq = { step := 0, bpm := F64.ofInt 120, running := false, last := 0 } ∧
    (∀ i : Fin 16, State.reset.pat[i] = { gate := false, note := 69 }) ∧
    (State.reset.ccLfo = [] ∧ State.reset.ccFm = [] ∧ State.reset.ccAm = []) ∧
    (State.reset.lfoBlocked = false ∧ State.reset.egBlocked = false ∧ State.reset.vcoBlocked = false)

/-- `RESET` puts every piece of the state to its reset value, in any state (70_reset_and_hazards.md R260).
That what has been emitted and answered stays is the model's choice (log 10). -/
def Obligations.ResetEventRestoresTable : Prop :=
  ∀ s : State, ∃ t, perform .reset s = .next t ∧ AtReset t ∧ t.out = s.out ∧ t.answers = s.answers ∧
    t.pending = s.pending ∧ t.drawn = s.drawn

/-- `STATUS` changes nothing but the history of answers, and the answer's 42 words are the registers in
the source's order, the numbers as their exact binary32 images (R41, R37). -/
def Obligations.StatusAnswer : Prop :=
  ∀ s : State, ∃ a : StatusWords, perform .status s = .next { s with answers := s.answers ++ [a] } ∧
    (∀ y : F32, y.isFinite = true →
      (s.freqReg = F32.ext y → a[0] = F32.toBits 0#32 y) ∧
      (s.lfo.freq = F32.ext y → a[1] = F32.toBits 0#32 y) ∧
      (s.vco.depth = F32.ext y → a[2] = F32.toBits 0#32 y) ∧
      (s.eg.attackMs = F32.ext y → a[3] = F32.toBits 0#32 y) ∧
      (s.eg.decayMs = F32.ext y → a[4] = F32.toBits 0#32 y) ∧
      (s.eg.sustainLevel = F32.ext y → a[5] = F32.toBits 0#32 y) ∧
      (s.eg.sustainMs = F32.ext y → a[6] = F32.toBits 0#32 y) ∧
      (s.eg.releaseMs = F32.ext y → a[7] = F32.toBits 0#32 y) ∧
      (s.seq.bpm = F32.ext y → a[9] = F32.toBits 0#32 y)) ∧
    a[8] = (if s.seq.running then 1#32 else 0#32) ∧
    (∀ i : Fin 16, a[10 + i.val]'(by omega) = (if s.pat[i].gate then 1#32 else 0#32)) ∧
    (∀ i : Fin 16, a[26 + i.val]'(by omega) = BitVec.ofNat 32 s.pat[i].note.val)

/-! ## Invariants -/

/-- Every step keeps every parameter register legal, from every state that has them legal (10_state.md
R36; `LEGAL_PARAMS` of 70_reset_and_hazards.md R278). -/
def Obligations.StepKeepsLegalParams : Prop :=
  ∀ s t : State, LegalParams s → step s = .next t → LegalParams t

/-- Every step keeps the channels within their capacity and `CC_LFO` empty (10_state.md R32,
40_control_channel.md R121, R125). -/
def Obligations.StepKeepsChannelBounds : Prop :=
  ∀ s t : State, ChannelsSound s → step s = .next t → ChannelsSound t

/-- Every step keeps every parameter register exactly representable in binary32 (10_state.md R37). -/
def Obligations.StepKeepsBinary32Params : Prop :=
  ∀ s t : State, ParamsBinary32 s → step s = .next t → ParamsBinary32 t

/-- Every step keeps the counter at 0 outside the sustain and the value at 0 while idle (42_envelope.md
R155 to R157). -/
def Obligations.StepKeepsEnvelopeSound : Prop :=
  ∀ s t : State, EnvelopeSound s.eg → step s = .next t → EnvelopeSound t.eg

/-- Every step leaves the VCO tuned to `FREQ` or to a note of the table (10_state.md R23). -/
def Obligations.StepKeepsVcoTuned : Prop :=
  ∀ s t : State, VcoTuned s → step s = .next t → VcoTuned t

/-- Every step keeps the gain at `GAIN` and `LFO.depth` at its reset value (43_gain_stage.md R181,
10_state.md R22, R26). -/
def Obligations.StepKeepsConstants : Prop :=
  ∀ s t : State, ConstantsHeld s → step s = .next t → ConstantsHeld t

/-- Every step keeps every sample queued in `CC_FM` in [-1, 1] or a NaN (41_oscillator.md R139). -/
def Obligations.StepKeepsFmRange : Prop :=
  ∀ s t : State, FmInRange s → step s = .next t → FmInRange t

/-- The state after reset meets every invariant. -/
def Obligations.ResetMeetsInvariants : Prop := Invariants State.reset

/-- Every state that any sequence of events leads to from reset meets every invariant. -/
def Obligations.ReachableStatesSound : Prop := ∀ s : State, Reachable s → Invariants s

/-- "`CC.read(CC_LFO)` returns `none` in every reachable state, and the LFO's control sample is 0 in every
frame" (40_control_channel.md R125). -/
def Obligations.LfoChannelAlwaysEmpty : Prop :=
  ∀ s : State, Reachable s → ccHead .ccLfo s = none ∧
    controlSamples numF64 (ccHead .ccLfo s) = List.replicate 256 (F64.ofInt 0)

/-- The block never faults and never refuses: every step from every state answers a next state; and some
event is always enabled (60_exceptions.md R230, 70_reset_and_hazards.md R276).  That every step answers a
next state is the model's choice: an event with nothing to do still happens (log 21, DEDUCED), and one that
is presented without being enabled is skipped (log 8, DESIGN CHOICE). -/
def Obligations.EveryStepAnswersNext : Prop :=
  ∀ s : State, (∃ t, step s = .next t) ∧ enabled s .ready = true ∧
    (∀ w, enabled s (.cmd w) = true) ∧ (∀ now, enabled s (.tick now) = true) ∧
    (enabled s .produceLfo = true ∨ enabled s .paceLfo = true) ∧
    (enabled s .produceEg = true ∨ enabled s .paceEg = true)

/-! ## Numbers (00_scope.md R14, R15) -/

/-- Each of the four operations gives the exact result correctly rounded: nearest, ties to even, overflow
to infinity (R14). -/
def Obligations.ArithmeticRoundsCorrectly : Prop :=
  ∀ a b : F64, a.isFinite = true → b.isFinite = true →
    (Fl.add a b).RoundedFrom (a.toReal + b.toReal) ∧
    (Fl.sub a b).RoundedFrom (a.toReal - b.toReal) ∧
    (Fl.mul a b).RoundedFrom (a.toReal * b.toReal) ∧
    (b.isZero = false → (Fl.div a b).RoundedFrom (a.toReal / b.toReal))

/-- `rnd32` and the conversion of integers are correctly rounded, `ext` is exact, and comparisons are
those of the numbers; a comparison with a NaN is false (R14). -/
def Obligations.ConversionsAndComparisons : Prop :=
  (∀ x : F64, x.isFinite = true → (F64.rnd32 x).RoundedFrom x.toReal) ∧
    (∀ n : Int, (F64.ofInt n).RoundedFrom n) ∧
    (∀ x : F32, x.isFinite = true → (F32.ext x).isFinite = true ∧ (F32.ext x).toReal = x.toReal) ∧
    (∀ a b : F64, a.isFinite = true → b.isFinite = true →
      (Fl.le a b = true ↔ a.toReal ≤ b.toReal) ∧ (Fl.lt a b = true ↔ a.toReal < b.toReal)) ∧
    (∀ a b : F64, a = .nan ∨ b = .nan → Fl.le a b = false ∧ Fl.lt a b = false)

/-- The properties S2, S3 and S5 that R15 lets a proof assume of `SIN2PI` (S1 is that it is a function),
and what its S4, for any constant, says of an emitted sample: it is off by no more than `SIN2PI` is, and
the rounding to binary32.  That nothing more is fixed is the model's choice (log 3). -/
def Obligations.SineProperties : Prop :=
  (∀ p : F64, p.isFinite = true → (F64.sin2pi p).isFinite = true ∧ |(F64.sin2pi p).toReal| ≤ 1) ∧
    (∀ p : F64, p.isZero = true → (F64.sin2pi p).toReal = 0) ∧
    (∀ p : F64, p.isFinite = false → F64.sin2pi p = .nan) ∧
    (∀ eps : ℝ, SinAccurate eps → ∀ p : F64, p.isFinite = true →
      |(F64.rnd32 (F64.sin2pi p)).toReal - Real.sin (2 * Real.pi * p.toReal)| ≤
        eps * max 1 |p.toReal| + 1 / 2 ^ 25)

/-! ## Formats (20_memory.md) and the textual form (30_encoding.md) -/

/-- A buffer's wire form is 1024 bytes, of which "byte `4·i + k` (k = 0..3) is bits `[8k+7 : 8k]` of the
binary32 encoding of `b[i]`" (R62).  A NaN's bits are the model's free value of its place in the stream
(log 2, DESIGN CHOICE), so a statement of them holds for every choice of those bits.  The form reads
back as the buffer: every finite value, zero sign and infinity exactly, a NaN as a NaN (R63; L1-8). -/
def Obligations.BufferWireForm : Prop :=
  ∀ (n : ℕ) (b : Buffer), (bufferBytes n b).length = 1024 ∧
    (∀ (i : Fin bufferLen) (k : Fin 4), (bufferBytes n b)[4 * i.val + k.val]? =
      some ((F32.toBits (Config.nanAudio (n * 256 + i.val)) b[i]).extractLsb' (8 * k.val) 8)) ∧
    bufferOfBytes (bufferBytes n b) = some b

/-- Whatever a textual message says, every word it is translated to decodes to a command with well-formed
operands: a malformed field produces no word (R98, R100, R101). -/
def Obligations.TextSendsWellFormedWords : Prop :=
  ∀ (m : Message) (w : CmdWord), w ∈ messageWords m →
    ∃ i, decodeWord w = .ok i ∧ i.wellFormed = true
end

