-- ==== Sys2Proof/Laws/State.lean ====
section
/-! SUPPORT. What each writer of Machine/Ops.lean leaves in each field, so that no proof unfolds a record
update. -/

namespace Sys2Proof.Machine

variable (s : State)

section
variable (v : Osc F64)
@[simp] theorem State.setLfo_lfo : (s.setLfo v).lfo = v := rfl
@[simp] theorem State.setLfo_vco : (s.setLfo v).vco = s.vco := rfl
@[simp] theorem State.setLfo_freqReg : (s.setLfo v).freqReg = s.freqReg := rfl
@[simp] theorem State.setLfo_eg : (s.setLfo v).eg = s.eg := rfl
@[simp] theorem State.setLfo_gain : (s.setLfo v).gain = s.gain := rfl
@[simp] theorem State.setLfo_seq : (s.setLfo v).seq = s.seq := rfl
@[simp] theorem State.setLfo_pat : (s.setLfo v).pat = s.pat := rfl
@[simp] theorem State.setLfo_ccLfo : (s.setLfo v).ccLfo = s.ccLfo := rfl
@[simp] theorem State.setLfo_ccFm : (s.setLfo v).ccFm = s.ccFm := rfl
@[simp] theorem State.setLfo_ccAm : (s.setLfo v).ccAm = s.ccAm := rfl
@[simp] theorem State.setLfo_lfoBlocked : (s.setLfo v).lfoBlocked = s.lfoBlocked := rfl
@[simp] theorem State.setLfo_egBlocked : (s.setLfo v).egBlocked = s.egBlocked := rfl
@[simp] theorem State.setLfo_vcoBlocked : (s.setLfo v).vcoBlocked = s.vcoBlocked := rfl
@[simp] theorem State.setLfo_out : (s.setLfo v).out = s.out := rfl
@[simp] theorem State.setLfo_answers : (s.setLfo v).answers = s.answers := rfl
@[simp] theorem State.setLfo_pending : (s.setLfo v).pending = s.pending := rfl
@[simp] theorem State.setLfo_drawn : (s.setLfo v).drawn = s.drawn := rfl
end

section
variable (v : Osc F64)
@[simp] theorem State.setVco_lfo : (s.setVco v).lfo = s.lfo := rfl
@[simp] theorem State.setVco_vco : (s.setVco v).vco = v := rfl
@[simp] theorem State.setVco_freqReg : (s.setVco v).freqReg = s.freqReg := rfl
@[simp] theorem State.setVco_eg : (s.setVco v).eg = s.eg := rfl
@[simp] theorem State.setVco_gain : (s.setVco v).gain = s.gain := rfl
@[simp] theorem State.setVco_seq : (s.setVco v).seq = s.seq := rfl
@[simp] theorem State.setVco_pat : (s.setVco v).pat = s.pat := rfl
@[simp] theorem State.setVco_ccLfo : (s.setVco v).ccLfo = s.ccLfo := rfl
@[simp] theorem State.setVco_ccFm : (s.setVco v).ccFm = s.ccFm := rfl
@[simp] theorem State.setVco_ccAm : (s.setVco v).ccAm = s.ccAm := rfl
@[simp] theorem State.setVco_lfoBlocked : (s.setVco v).lfoBlocked = s.lfoBlocked := rfl
@[simp] theorem State.setVco_egBlocked : (s.setVco v).egBlocked = s.egBlocked := rfl
@[simp] theorem State.setVco_vcoBlocked : (s.setVco v).vcoBlocked = s.vcoBlocked := rfl
@[simp] theorem State.setVco_out : (s.setVco v).out = s.out := rfl
@[simp] theorem State.setVco_answers : (s.setVco v).answers = s.answers := rfl
@[simp] theorem State.setVco_pending : (s.setVco v).pending = s.pending := rfl
@[simp] theorem State.setVco_drawn : (s.setVco v).drawn = s.drawn := rfl
end

section
variable (v : F64)
@[simp] theorem State.setFreqReg_lfo : (s.setFreqReg v).lfo = s.lfo := rfl
@[simp] theorem State.setFreqReg_vco : (s.setFreqReg v).vco = s.vco := rfl
@[simp] theorem State.setFreqReg_freqReg : (s.setFreqReg v).freqReg = v := rfl
@[simp] theorem State.setFreqReg_eg : (s.setFreqReg v).eg = s.eg := rfl
@[simp] theorem State.setFreqReg_gain : (s.setFreqReg v).gain = s.gain := rfl
@[simp] theorem State.setFreqReg_seq : (s.setFreqReg v).seq = s.seq := rfl
@[simp] theorem State.setFreqReg_pat : (s.setFreqReg v).pat = s.pat := rfl
@[simp] theorem State.setFreqReg_ccLfo : (s.setFreqReg v).ccLfo = s.ccLfo := rfl
@[simp] theorem State.setFreqReg_ccFm : (s.setFreqReg v).ccFm = s.ccFm := rfl
@[simp] theorem State.setFreqReg_ccAm : (s.setFreqReg v).ccAm = s.ccAm := rfl
@[simp] theorem State.setFreqReg_lfoBlocked : (s.setFreqReg v).lfoBlocked = s.lfoBlocked := rfl
@[simp] theorem State.setFreqReg_egBlocked : (s.setFreqReg v).egBlocked = s.egBlocked := rfl
@[simp] theorem State.setFreqReg_vcoBlocked : (s.setFreqReg v).vcoBlocked = s.vcoBlocked := rfl
@[simp] theorem State.setFreqReg_out : (s.setFreqReg v).out = s.out := rfl
@[simp] theorem State.setFreqReg_answers : (s.setFreqReg v).answers = s.answers := rfl
@[simp] theorem State.setFreqReg_pending : (s.setFreqReg v).pending = s.pending := rfl
@[simp] theorem State.setFreqReg_drawn : (s.setFreqReg v).drawn = s.drawn := rfl
end

section
variable (v : Env F64)
@[simp] theorem State.setEg_lfo : (s.setEg v).lfo = s.lfo := rfl
@[simp] theorem State.setEg_vco : (s.setEg v).vco = s.vco := rfl
@[simp] theorem State.setEg_freqReg : (s.setEg v).freqReg = s.freqReg := rfl
@[simp] theorem State.setEg_eg : (s.setEg v).eg = v := rfl
@[simp] theorem State.setEg_gain : (s.setEg v).gain = s.gain := rfl
@[simp] theorem State.setEg_seq : (s.setEg v).seq = s.seq := rfl
@[simp] theorem State.setEg_pat : (s.setEg v).pat = s.pat := rfl
@[simp] theorem State.setEg_ccLfo : (s.setEg v).ccLfo = s.ccLfo := rfl
@[simp] theorem State.setEg_ccFm : (s.setEg v).ccFm = s.ccFm := rfl
@[simp] theorem State.setEg_ccAm : (s.setEg v).ccAm = s.ccAm := rfl
@[simp] theorem State.setEg_lfoBlocked : (s.setEg v).lfoBlocked = s.lfoBlocked := rfl
@[simp] theorem State.setEg_egBlocked : (s.setEg v).egBlocked = s.egBlocked := rfl
@[simp] theorem State.setEg_vcoBlocked : (s.setEg v).vcoBlocked = s.vcoBlocked := rfl
@[simp] theorem State.setEg_out : (s.setEg v).out = s.out := rfl
@[simp] theorem State.setEg_answers : (s.setEg v).answers = s.answers := rfl
@[simp] theorem State.setEg_pending : (s.setEg v).pending = s.pending := rfl
@[simp] theorem State.setEg_drawn : (s.setEg v).drawn = s.drawn := rfl
end

section
variable (v : Sequencer F64)
@[simp] theorem State.setSeq_lfo : (s.setSeq v).lfo = s.lfo := rfl
@[simp] theorem State.setSeq_vco : (s.setSeq v).vco = s.vco := rfl
@[simp] theorem State.setSeq_freqReg : (s.setSeq v).freqReg = s.freqReg := rfl
@[simp] theorem State.setSeq_eg : (s.setSeq v).eg = s.eg := rfl
@[simp] theorem State.setSeq_gain : (s.setSeq v).gain = s.gain := rfl
@[simp] theorem State.setSeq_seq : (s.setSeq v).seq = v := rfl
@[simp] theorem State.setSeq_pat : (s.setSeq v).pat = s.pat := rfl
@[simp] theorem State.setSeq_ccLfo : (s.setSeq v).ccLfo = s.ccLfo := rfl
@[simp] theorem State.setSeq_ccFm : (s.setSeq v).ccFm = s.ccFm := rfl
@[simp] theorem State.setSeq_ccAm : (s.setSeq v).ccAm = s.ccAm := rfl
@[simp] theorem State.setSeq_lfoBlocked : (s.setSeq v).lfoBlocked = s.lfoBlocked := rfl
@[simp] theorem State.setSeq_egBlocked : (s.setSeq v).egBlocked = s.egBlocked := rfl
@[simp] theorem State.setSeq_vcoBlocked : (s.setSeq v).vcoBlocked = s.vcoBlocked := rfl
@[simp] theorem State.setSeq_out : (s.setSeq v).out = s.out := rfl
@[simp] theorem State.setSeq_answers : (s.setSeq v).answers = s.answers := rfl
@[simp] theorem State.setSeq_pending : (s.setSeq v).pending = s.pending := rfl
@[simp] theorem State.setSeq_drawn : (s.setSeq v).drawn = s.drawn := rfl
end

section
variable (v : Vector PatEntry 16)
@[simp] theorem State.setPat_lfo : (s.setPat v).lfo = s.lfo := rfl
@[simp] theorem State.setPat_vco : (s.setPat v).vco = s.vco := rfl
@[simp] theorem State.setPat_freqReg : (s.setPat v).freqReg = s.freqReg := rfl
@[simp] theorem State.setPat_eg : (s.setPat v).eg = s.eg := rfl
@[simp] theorem State.setPat_gain : (s.setPat v).gain = s.gain := rfl
@[simp] theorem State.setPat_seq : (s.setPat v).seq = s.seq := rfl
@[simp] theorem State.setPat_pat : (s.setPat v).pat = v := rfl
@[simp] theorem State.setPat_ccLfo : (s.setPat v).ccLfo = s.ccLfo := rfl
@[simp] theorem State.setPat_ccFm : (s.setPat v).ccFm = s.ccFm := rfl
@[simp] theorem State.setPat_ccAm : (s.setPat v).ccAm = s.ccAm := rfl
@[simp] theorem State.setPat_lfoBlocked : (s.setPat v).lfoBlocked = s.lfoBlocked := rfl
@[simp] theorem State.setPat_egBlocked : (s.setPat v).egBlocked = s.egBlocked := rfl
@[simp] theorem State.setPat_vcoBlocked : (s.setPat v).vcoBlocked = s.vcoBlocked := rfl
@[simp] theorem State.setPat_out : (s.setPat v).out = s.out := rfl
@[simp] theorem State.setPat_answers : (s.setPat v).answers = s.answers := rfl
@[simp] theorem State.setPat_pending : (s.setPat v).pending = s.pending := rfl
@[simp] theorem State.setPat_drawn : (s.setPat v).drawn = s.drawn := rfl
end

section
variable (v : List Buffer)
@[simp] theorem State.setCcLfo_lfo : (s.setCcLfo v).lfo = s.lfo := rfl
@[simp] theorem State.setCcLfo_vco : (s.setCcLfo v).vco = s.vco := rfl
@[simp] theorem State.setCcLfo_freqReg : (s.setCcLfo v).freqReg = s.freqReg := rfl
@[simp] theorem State.setCcLfo_eg : (s.setCcLfo v).eg = s.eg := rfl
@[simp] theorem State.setCcLfo_gain : (s.setCcLfo v).gain = s.gain := rfl
@[simp] theorem State.setCcLfo_seq : (s.setCcLfo v).seq = s.seq := rfl
@[simp] theorem State.setCcLfo_pat : (s.setCcLfo v).pat = s.pat := rfl
@[simp] theorem State.setCcLfo_ccLfo : (s.setCcLfo v).ccLfo = v := rfl
@[simp] theorem State.setCcLfo_ccFm : (s.setCcLfo v).ccFm = s.ccFm := rfl
@[simp] theorem State.setCcLfo_ccAm : (s.setCcLfo v).ccAm = s.ccAm := rfl
@[simp] theorem State.setCcLfo_lfoBlocked : (s.setCcLfo v).lfoBlocked = s.lfoBlocked := rfl
@[simp] theorem State.setCcLfo_egBlocked : (s.setCcLfo v).egBlocked = s.egBlocked := rfl
@[simp] theorem State.setCcLfo_vcoBlocked : (s.setCcLfo v).vcoBlocked = s.vcoBlocked := rfl
@[simp] theorem State.setCcLfo_out : (s.setCcLfo v).out = s.out := rfl
@[simp] theorem State.setCcLfo_answers : (s.setCcLfo v).answers = s.answers := rfl
@[simp] theorem State.setCcLfo_pending : (s.setCcLfo v).pending = s.pending := rfl
@[simp] theorem State.setCcLfo_drawn : (s.setCcLfo v).drawn = s.drawn := rfl
end

section
variable (v : List Buffer)
@[simp] theorem State.setCcFm_lfo : (s.setCcFm v).lfo = s.lfo := rfl
@[simp] theorem State.setCcFm_vco : (s.setCcFm v).vco = s.vco := rfl
@[simp] theorem State.setCcFm_freqReg : (s.setCcFm v).freqReg = s.freqReg := rfl
@[simp] theorem State.setCcFm_eg : (s.setCcFm v).eg = s.eg := rfl
@[simp] theorem State.setCcFm_gain : (s.setCcFm v).gain = s.gain := rfl
@[simp] theorem State.setCcFm_seq : (s.setCcFm v).seq = s.seq := rfl
@[simp] theorem State.setCcFm_pat : (s.setCcFm v).pat = s.pat := rfl
@[simp] theorem State.setCcFm_ccLfo : (s.setCcFm v).ccLfo = s.ccLfo := rfl
@[simp] theorem State.setCcFm_ccFm : (s.setCcFm v).ccFm = v := rfl
@[simp] theorem State.setCcFm_ccAm : (s.setCcFm v).ccAm = s.ccAm := rfl
@[simp] theorem State.setCcFm_lfoBlocked : (s.setCcFm v).lfoBlocked = s.lfoBlocked := rfl
@[simp] theorem State.setCcFm_egBlocked : (s.setCcFm v).egBlocked = s.egBlocked := rfl
@[simp] theorem State.setCcFm_vcoBlocked : (s.setCcFm v).vcoBlocked = s.vcoBlocked := rfl
@[simp] theorem State.setCcFm_out : (s.setCcFm v).out = s.out := rfl
@[simp] theorem State.setCcFm_answers : (s.setCcFm v).answers = s.answers := rfl
@[simp] theorem State.setCcFm_pending : (s.setCcFm v).pending = s.pending := rfl
@[simp] theorem State.setCcFm_drawn : (s.setCcFm v).drawn = s.drawn := rfl
end

section
variable (v : List Buffer)
@[simp] theorem State.setCcAm_lfo : (s.setCcAm v).lfo = s.lfo := rfl
@[simp] theorem State.setCcAm_vco : (s.setCcAm v).vco = s.vco := rfl
@[simp] theorem State.setCcAm_freqReg : (s.setCcAm v).freqReg = s.freqReg := rfl
@[simp] theorem State.setCcAm_eg : (s.setCcAm v).eg = s.eg := rfl
@[simp] theorem State.setCcAm_gain : (s.setCcAm v).gain = s.gain := rfl
@[simp] theorem State.setCcAm_seq : (s.setCcAm v).seq = s.seq := rfl
@[simp] theorem State.setCcAm_pat : (s.setCcAm v).pat = s.pat := rfl
@[simp] theorem State.setCcAm_ccLfo : (s.setCcAm v).ccLfo = s.ccLfo := rfl
@[simp] theorem State.setCcAm_ccFm : (s.setCcAm v).ccFm = s.ccFm := rfl
@[simp] theorem State.setCcAm_ccAm : (s.setCcAm v).ccAm = v := rfl
@[simp] theorem State.setCcAm_lfoBlocked : (s.setCcAm v).lfoBlocked = s.lfoBlocked := rfl
@[simp] theorem State.setCcAm_egBlocked : (s.setCcAm v).egBlocked = s.egBlocked := rfl
@[simp] theorem State.setCcAm_vcoBlocked : (s.setCcAm v).vcoBlocked = s.vcoBlocked := rfl
@[simp] theorem State.setCcAm_out : (s.setCcAm v).out = s.out := rfl
@[simp] theorem State.setCcAm_answers : (s.setCcAm v).answers = s.answers := rfl
@[simp] theorem State.setCcAm_pending : (s.setCcAm v).pending = s.pending := rfl
@[simp] theorem State.setCcAm_drawn : (s.setCcAm v).drawn = s.drawn := rfl
end

section
variable (v : Bool)
@[simp] theorem State.setLfoBlocked_lfo : (s.setLfoBlocked v).lfo = s.lfo := rfl
@[simp] theorem State.setLfoBlocked_vco : (s.setLfoBlocked v).vco = s.vco := rfl
@[simp] theorem State.setLfoBlocked_freqReg : (s.setLfoBlocked v).freqReg = s.freqReg := rfl
@[simp] theorem State.setLfoBlocked_eg : (s.setLfoBlocked v).eg = s.eg := rfl
@[simp] theorem State.setLfoBlocked_gain : (s.setLfoBlocked v).gain = s.gain := rfl
@[simp] theorem State.setLfoBlocked_seq : (s.setLfoBlocked v).seq = s.seq := rfl
@[simp] theorem State.setLfoBlocked_pat : (s.setLfoBlocked v).pat = s.pat := rfl
@[simp] theorem State.setLfoBlocked_ccLfo : (s.setLfoBlocked v).ccLfo = s.ccLfo := rfl
@[simp] theorem State.setLfoBlocked_ccFm : (s.setLfoBlocked v).ccFm = s.ccFm := rfl
@[simp] theorem State.setLfoBlocked_ccAm : (s.setLfoBlocked v).ccAm = s.ccAm := rfl
@[simp] theorem State.setLfoBlocked_lfoBlocked : (s.setLfoBlocked v).lfoBlocked = v := rfl
@[simp] theorem State.setLfoBlocked_egBlocked : (s.setLfoBlocked v).egBlocked = s.egBlocked := rfl
@[simp] theorem State.setLfoBlocked_vcoBlocked : (s.setLfoBlocked v).vcoBlocked = s.vcoBlocked := rfl
@[simp] theorem State.setLfoBlocked_out : (s.setLfoBlocked v).out = s.out := rfl
@[simp] theorem State.setLfoBlocked_answers : (s.setLfoBlocked v).answers = s.answers := rfl
@[simp] theorem State.setLfoBlocked_pending : (s.setLfoBlocked v).pending = s.pending := rfl
@[simp] theorem State.setLfoBlocked_drawn : (s.setLfoBlocked v).drawn = s.drawn := rfl
end

section
variable (v : Bool)
@[simp] theorem State.setEgBlocked_lfo : (s.setEgBlocked v).lfo = s.lfo := rfl
@[simp] theorem State.setEgBlocked_vco : (s.setEgBlocked v).vco = s.vco := rfl
@[simp] theorem State.setEgBlocked_freqReg : (s.setEgBlocked v).freqReg = s.freqReg := rfl
@[simp] theorem State.setEgBlocked_eg : (s.setEgBlocked v).eg = s.eg := rfl
@[simp] theorem State.setEgBlocked_gain : (s.setEgBlocked v).gain = s.gain := rfl
@[simp] theorem State.setEgBlocked_seq : (s.setEgBlocked v).seq = s.seq := rfl
@[simp] theorem State.setEgBlocked_pat : (s.setEgBlocked v).pat = s.pat := rfl
@[simp] theorem State.setEgBlocked_ccLfo : (s.setEgBlocked v).ccLfo = s.ccLfo := rfl
@[simp] theorem State.setEgBlocked_ccFm : (s.setEgBlocked v).ccFm = s.ccFm := rfl
@[simp] theorem State.setEgBlocked_ccAm : (s.setEgBlocked v).ccAm = s.ccAm := rfl
@[simp] theorem State.setEgBlocked_lfoBlocked : (s.setEgBlocked v).lfoBlocked = s.lfoBlocked := rfl
@[simp] theorem State.setEgBlocked_egBlocked : (s.setEgBlocked v).egBlocked = v := rfl
@[simp] theorem State.setEgBlocked_vcoBlocked : (s.setEgBlocked v).vcoBlocked = s.vcoBlocked := rfl
@[simp] theorem State.setEgBlocked_out : (s.setEgBlocked v).out = s.out := rfl
@[simp] theorem State.setEgBlocked_answers : (s.setEgBlocked v).answers = s.answers := rfl
@[simp] theorem State.setEgBlocked_pending : (s.setEgBlocked v).pending = s.pending := rfl
@[simp] theorem State.setEgBlocked_drawn : (s.setEgBlocked v).drawn = s.drawn := rfl
end

section
variable (v : Bool)
@[simp] theorem State.setVcoBlocked_lfo : (s.setVcoBlocked v).lfo = s.lfo := rfl
@[simp] theorem State.setVcoBlocked_vco : (s.setVcoBlocked v).vco = s.vco := rfl
@[simp] theorem State.setVcoBlocked_freqReg : (s.setVcoBlocked v).freqReg = s.freqReg := rfl
@[simp] theorem State.setVcoBlocked_eg : (s.setVcoBlocked v).eg = s.eg := rfl
@[simp] theorem State.setVcoBlocked_gain : (s.setVcoBlocked v).gain = s.gain := rfl
@[simp] theorem State.setVcoBlocked_seq : (s.setVcoBlocked v).seq = s.seq := rfl
@[simp] theorem State.setVcoBlocked_pat : (s.setVcoBlocked v).pat = s.pat := rfl
@[simp] theorem State.setVcoBlocked_ccLfo : (s.setVcoBlocked v).ccLfo = s.ccLfo := rfl
@[simp] theorem State.setVcoBlocked_ccFm : (s.setVcoBlocked v).ccFm = s.ccFm := rfl
@[simp] theorem State.setVcoBlocked_ccAm : (s.setVcoBlocked v).ccAm = s.ccAm := rfl
@[simp] theorem State.setVcoBlocked_lfoBlocked : (s.setVcoBlocked v).lfoBlocked = s.lfoBlocked := rfl
@[simp] theorem State.setVcoBlocked_egBlocked : (s.setVcoBlocked v).egBlocked = s.egBlocked := rfl
@[simp] theorem State.setVcoBlocked_vcoBlocked : (s.setVcoBlocked v).vcoBlocked = v := rfl
@[simp] theorem State.setVcoBlocked_out : (s.setVcoBlocked v).out = s.out := rfl
@[simp] theorem State.setVcoBlocked_answers : (s.setVcoBlocked v).answers = s.answers := rfl
@[simp] theorem State.setVcoBlocked_pending : (s.setVcoBlocked v).pending = s.pending := rfl
@[simp] theorem State.setVcoBlocked_drawn : (s.setVcoBlocked v).drawn = s.drawn := rfl
end

section
variable (v : List Event)
@[simp] theorem State.setPending_lfo : (s.setPending v).lfo = s.lfo := rfl
@[simp] theorem State.setPending_vco : (s.setPending v).vco = s.vco := rfl
@[simp] theorem State.setPending_freqReg : (s.setPending v).freqReg = s.freqReg := rfl
@[simp] theorem State.setPending_eg : (s.setPending v).eg = s.eg := rfl
@[simp] theorem State.setPending_gain : (s.setPending v).gain = s.gain := rfl
@[simp] theorem State.setPending_seq : (s.setPending v).seq = s.seq := rfl
@[simp] theorem State.setPending_pat : (s.setPending v).pat = s.pat := rfl
@[simp] theorem State.setPending_ccLfo : (s.setPending v).ccLfo = s.ccLfo := rfl
@[simp] theorem State.setPending_ccFm : (s.setPending v).ccFm = s.ccFm := rfl
@[simp] theorem State.setPending_ccAm : (s.setPending v).ccAm = s.ccAm := rfl
@[simp] theorem State.setPending_lfoBlocked : (s.setPending v).lfoBlocked = s.lfoBlocked := rfl
@[simp] theorem State.setPending_egBlocked : (s.setPending v).egBlocked = s.egBlocked := rfl
@[simp] theorem State.setPending_vcoBlocked : (s.setPending v).vcoBlocked = s.vcoBlocked := rfl
@[simp] theorem State.setPending_out : (s.setPending v).out = s.out := rfl
@[simp] theorem State.setPending_answers : (s.setPending v).answers = s.answers := rfl
@[simp] theorem State.setPending_pending : (s.setPending v).pending = v := rfl
@[simp] theorem State.setPending_drawn : (s.setPending v).drawn = s.drawn := rfl
end

section
variable (v : Nat)
@[simp] theorem State.setDrawn_lfo : (s.setDrawn v).lfo = s.lfo := rfl
@[simp] theorem State.setDrawn_vco : (s.setDrawn v).vco = s.vco := rfl
@[simp] theorem State.setDrawn_freqReg : (s.setDrawn v).freqReg = s.freqReg := rfl
@[simp] theorem State.setDrawn_eg : (s.setDrawn v).eg = s.eg := rfl
@[simp] theorem State.setDrawn_gain : (s.setDrawn v).gain = s.gain := rfl
@[simp] theorem State.setDrawn_seq : (s.setDrawn v).seq = s.seq := rfl
@[simp] theorem State.setDrawn_pat : (s.setDrawn v).pat = s.pat := rfl
@[simp] theorem State.setDrawn_ccLfo : (s.setDrawn v).ccLfo = s.ccLfo := rfl
@[simp] theorem State.setDrawn_ccFm : (s.setDrawn v).ccFm = s.ccFm := rfl
@[simp] theorem State.setDrawn_ccAm : (s.setDrawn v).ccAm = s.ccAm := rfl
@[simp] theorem State.setDrawn_lfoBlocked : (s.setDrawn v).lfoBlocked = s.lfoBlocked := rfl
@[simp] theorem State.setDrawn_egBlocked : (s.setDrawn v).egBlocked = s.egBlocked := rfl
@[simp] theorem State.setDrawn_vcoBlocked : (s.setDrawn v).vcoBlocked = s.vcoBlocked := rfl
@[simp] theorem State.setDrawn_out : (s.setDrawn v).out = s.out := rfl
@[simp] theorem State.setDrawn_answers : (s.setDrawn v).answers = s.answers := rfl
@[simp] theorem State.setDrawn_pending : (s.setDrawn v).pending = s.pending := rfl
@[simp] theorem State.setDrawn_drawn : (s.setDrawn v).drawn = v := rfl
end

section
variable (v : Buffer)
@[simp] theorem State.emit_lfo : (s.emit v).lfo = s.lfo := rfl
@[simp] theorem State.emit_vco : (s.emit v).vco = s.vco := rfl
@[simp] theorem State.emit_freqReg : (s.emit v).freqReg = s.freqReg := rfl
@[simp] theorem State.emit_eg : (s.emit v).eg = s.eg := rfl
@[simp] theorem State.emit_gain : (s.emit v).gain = s.gain := rfl
@[simp] theorem State.emit_seq : (s.emit v).seq = s.seq := rfl
@[simp] theorem State.emit_pat : (s.emit v).pat = s.pat := rfl
@[simp] theorem State.emit_ccLfo : (s.emit v).ccLfo = s.ccLfo := rfl
@[simp] theorem State.emit_ccFm : (s.emit v).ccFm = s.ccFm := rfl
@[simp] theorem State.emit_ccAm : (s.emit v).ccAm = s.ccAm := rfl
@[simp] theorem State.emit_lfoBlocked : (s.emit v).lfoBlocked = s.lfoBlocked := rfl
@[simp] theorem State.emit_egBlocked : (s.emit v).egBlocked = s.egBlocked := rfl
@[simp] theorem State.emit_vcoBlocked : (s.emit v).vcoBlocked = s.vcoBlocked := rfl
@[simp] theorem State.emit_out : (s.emit v).out = s.out ++ [v] := rfl
@[simp] theorem State.emit_answers : (s.emit v).answers = s.answers := rfl
@[simp] theorem State.emit_pending : (s.emit v).pending = s.pending := rfl
@[simp] theorem State.emit_drawn : (s.emit v).drawn = s.drawn := rfl
end

section
variable (v : StatusWords)
@[simp] theorem State.answer_lfo : (s.answer v).lfo = s.lfo := rfl
@[simp] theorem State.answer_vco : (s.answer v).vco = s.vco := rfl
@[simp] theorem State.answer_freqReg : (s.answer v).freqReg = s.freqReg := rfl
@[simp] theorem State.answer_eg : (s.answer v).eg = s.eg := rfl
@[simp] theorem State.answer_gain : (s.answer v).gain = s.gain := rfl
@[simp] theorem State.answer_seq : (s.answer v).seq = s.seq := rfl
@[simp] theorem State.answer_pat : (s.answer v).pat = s.pat := rfl
@[simp] theorem State.answer_ccLfo : (s.answer v).ccLfo = s.ccLfo := rfl
@[simp] theorem State.answer_ccFm : (s.answer v).ccFm = s.ccFm := rfl
@[simp] theorem State.answer_ccAm : (s.answer v).ccAm = s.ccAm := rfl
@[simp] theorem State.answer_lfoBlocked : (s.answer v).lfoBlocked = s.lfoBlocked := rfl
@[simp] theorem State.answer_egBlocked : (s.answer v).egBlocked = s.egBlocked := rfl
@[simp] theorem State.answer_vcoBlocked : (s.answer v).vcoBlocked = s.vcoBlocked := rfl
@[simp] theorem State.answer_out : (s.answer v).out = s.out := rfl
@[simp] theorem State.answer_answers : (s.answer v).answers = s.answers ++ [v] := rfl
@[simp] theorem State.answer_pending : (s.answer v).pending = s.pending := rfl
@[simp] theorem State.answer_drawn : (s.answer v).drawn = s.drawn := rfl
end

section
variable (f : F64)
@[simp] theorem State.tuneVco_lfo : (s.tuneVco f).lfo = s.lfo := rfl
@[simp] theorem State.tuneVco_vco : (s.tuneVco f).vco = { s.vco with freq := f } := rfl
@[simp] theorem State.tuneVco_freqReg : (s.tuneVco f).freqReg = s.freqReg := rfl
@[simp] theorem State.tuneVco_eg : (s.tuneVco f).eg = s.eg := rfl
@[simp] theorem State.tuneVco_gain : (s.tuneVco f).gain = s.gain := rfl
@[simp] theorem State.tuneVco_seq : (s.tuneVco f).seq = s.seq := rfl
@[simp] theorem State.tuneVco_pat : (s.tuneVco f).pat = s.pat := rfl
@[simp] theorem State.tuneVco_ccLfo : (s.tuneVco f).ccLfo = s.ccLfo := rfl
@[simp] theorem State.tuneVco_ccFm : (s.tuneVco f).ccFm = s.ccFm := rfl
@[simp] theorem State.tuneVco_ccAm : (s.tuneVco f).ccAm = s.ccAm := rfl
@[simp] theorem State.tuneVco_lfoBlocked : (s.tuneVco f).lfoBlocked = s.lfoBlocked := rfl
@[simp] theorem State.tuneVco_egBlocked : (s.tuneVco f).egBlocked = s.egBlocked := rfl
@[simp] theorem State.tuneVco_vcoBlocked : (s.tuneVco f).vcoBlocked = s.vcoBlocked := rfl
@[simp] theorem State.tuneVco_out : (s.tuneVco f).out = s.out := rfl
@[simp] theorem State.tuneVco_answers : (s.tuneVco f).answers = s.answers := rfl
@[simp] theorem State.tuneVco_pending : (s.tuneVco f).pending = s.pending := rfl
@[simp] theorem State.tuneVco_drawn : (s.tuneVco f).drawn = s.drawn := rfl
end

section
variable (i : Fin 16) (e : PatEntry)
@[simp] theorem State.setEntry_lfo : (s.setEntry i e).lfo = s.lfo := rfl
@[simp] theorem State.setEntry_vco : (s.setEntry i e).vco = s.vco := rfl
@[simp] theorem State.setEntry_freqReg : (s.setEntry i e).freqReg = s.freqReg := rfl
@[simp] theorem State.setEntry_eg : (s.setEntry i e).eg = s.eg := rfl
@[simp] theorem State.setEntry_gain : (s.setEntry i e).gain = s.gain := rfl
@[simp] theorem State.setEntry_seq : (s.setEntry i e).seq = s.seq := rfl
@[simp] theorem State.setEntry_pat : (s.setEntry i e).pat = s.pat.set i e := rfl
@[simp] theorem State.setEntry_ccLfo : (s.setEntry i e).ccLfo = s.ccLfo := rfl
@[simp] theorem State.setEntry_ccFm : (s.setEntry i e).ccFm = s.ccFm := rfl
@[simp] theorem State.setEntry_ccAm : (s.setEntry i e).ccAm = s.ccAm := rfl
@[simp] theorem State.setEntry_lfoBlocked : (s.setEntry i e).lfoBlocked = s.lfoBlocked := rfl
@[simp] theorem State.setEntry_egBlocked : (s.setEntry i e).egBlocked = s.egBlocked := rfl
@[simp] theorem State.setEntry_vcoBlocked : (s.setEntry i e).vcoBlocked = s.vcoBlocked := rfl
@[simp] theorem State.setEntry_out : (s.setEntry i e).out = s.out := rfl
@[simp] theorem State.setEntry_answers : (s.setEntry i e).answers = s.answers := rfl
@[simp] theorem State.setEntry_pending : (s.setEntry i e).pending = s.pending := rfl
@[simp] theorem State.setEntry_drawn : (s.setEntry i e).drawn = s.drawn := rfl
end

@[simp] theorem triggerEg_lfo : (triggerEg s).lfo = s.lfo := rfl
@[simp] theorem triggerEg_vco : (triggerEg s).vco = s.vco := rfl
@[simp] theorem triggerEg_freqReg : (triggerEg s).freqReg = s.freqReg := rfl
@[simp] theorem triggerEg_eg : (triggerEg s).eg = envTrigger numF64 s.eg := rfl
@[simp] theorem triggerEg_gain : (triggerEg s).gain = s.gain := rfl
@[simp] theorem triggerEg_seq : (triggerEg s).seq = s.seq := rfl
@[simp] theorem triggerEg_pat : (triggerEg s).pat = s.pat := rfl
@[simp] theorem triggerEg_ccLfo : (triggerEg s).ccLfo = s.ccLfo := rfl
@[simp] theorem triggerEg_ccFm : (triggerEg s).ccFm = s.ccFm := rfl
@[simp] theorem triggerEg_ccAm : (triggerEg s).ccAm = s.ccAm := rfl
@[simp] theorem triggerEg_lfoBlocked : (triggerEg s).lfoBlocked = s.lfoBlocked := rfl
@[simp] theorem triggerEg_egBlocked : (triggerEg s).egBlocked = s.egBlocked := rfl
@[simp] theorem triggerEg_vcoBlocked : (triggerEg s).vcoBlocked = s.vcoBlocked := rfl
@[simp] theorem triggerEg_out : (triggerEg s).out = s.out := rfl
@[simp] theorem triggerEg_answers : (triggerEg s).answers = s.answers := rfl
@[simp] theorem triggerEg_pending : (triggerEg s).pending = s.pending := rfl
@[simp] theorem triggerEg_drawn : (triggerEg s).drawn = s.drawn := rfl

@[simp] theorem resetBlock_lfo : (resetBlock s).lfo = State.reset.lfo := rfl
@[simp] theorem resetBlock_vco : (resetBlock s).vco = State.reset.vco := rfl
@[simp] theorem resetBlock_freqReg : (resetBlock s).freqReg = State.reset.freqReg := rfl
@[simp] theorem resetBlock_eg : (resetBlock s).eg = State.reset.eg := rfl
@[simp] theorem resetBlock_gain : (resetBlock s).gain = State.reset.gain := rfl
@[simp] theorem resetBlock_seq : (resetBlock s).seq = State.reset.seq := rfl
@[simp] theorem resetBlock_pat : (resetBlock s).pat = State.reset.pat := rfl
@[simp] theorem resetBlock_ccLfo : (resetBlock s).ccLfo = State.reset.ccLfo := rfl
@[simp] theorem resetBlock_ccFm : (resetBlock s).ccFm = State.reset.ccFm := rfl
@[simp] theorem resetBlock_ccAm : (resetBlock s).ccAm = State.reset.ccAm := rfl
@[simp] theorem resetBlock_lfoBlocked : (resetBlock s).lfoBlocked = State.reset.lfoBlocked := rfl
@[simp] theorem resetBlock_egBlocked : (resetBlock s).egBlocked = State.reset.egBlocked := rfl
@[simp] theorem resetBlock_vcoBlocked : (resetBlock s).vcoBlocked = State.reset.vcoBlocked := rfl
@[simp] theorem resetBlock_out : (resetBlock s).out = s.out := rfl
@[simp] theorem resetBlock_answers : (resetBlock s).answers = s.answers := rfl
@[simp] theorem resetBlock_pending : (resetBlock s).pending = s.pending := rfl
@[simp] theorem resetBlock_drawn : (resetBlock s).drawn = s.drawn := rfl

end Sys2Proof.Machine
end

