-- ==== Sys2Proof/Laws/Channel.lean ====
section
/-! SUPPORT. ControlChannels: what a write and a read leave in each channel and flag. -/

namespace Sys2Proof.Machine

@[simp] theorem controlSamples_none_length {R B : Type} (num : NumOps R B) :
    (controlSamples num (none : Option (Vector B bufferLen))).length = bufferLen :=
  controlSamples_length num none

theorem enqueue_unbounded (q : List Buffer) (b : Buffer) : enqueue none q b = q ++ [b] := by
  simp [enqueue]

theorem enqueue_room {n : Nat} {q : List Buffer} (h : q.length ≠ n) (b : Buffer) :
    enqueue (some n) q b = q ++ [b] := by
  simp [enqueue, h]

theorem enqueue_full {n : Nat} {q : List Buffer} (h : q.length = n) (b : Buffer) :
    enqueue (some n) q b = q.tail ++ [b] := by
  simp [enqueue, h]

/-- `CC_DEPTH` is a positive number or `INF` (40_control_channel.md R121). -/
theorem ccDepth_pos {n : Nat} (h : Config.ccDepth = some n) : 0 < n := by
  unfold Config.ccDepth at h
  cases hr : Config.ccDepthRaw with
  | none => simp [hr] at h
  | some m => simp [hr] at h; omega

/-- A write to an empty channel leaves the one buffer, whatever the capacity. -/
theorem enqueue_empty (b : Buffer) : enqueue Config.ccDepth [] b = [b] := by
  cases h : Config.ccDepth with
  | none => exact enqueue_unbounded [] b
  | some n => exact enqueue_room (by have := ccDepth_pos h; simp; omega) b

/-- The newest buffer of a channel after a write is the one written. -/
theorem enqueue_getLast? (d : Option Nat) (q : List Buffer) (b : Buffer) :
    (enqueue d q b).getLast? = some b := by
  simp [enqueue]

theorem mem_enqueue {d : Option Nat} {q : List Buffer} {b x : Buffer} (h : x ∈ enqueue d q b) :
    x ∈ q ∨ x = b := by
  unfold enqueue at h
  rw [List.mem_append, List.mem_singleton] at h
  rcases h with h | h
  · split at h
    · exact .inl (List.mem_of_mem_tail h)
    · exact .inl h
  · exact .inr h

/-! ## `CC.write` on the two written channels -/

section
variable (d : Option Nat) (b : Buffer) (s : State)

theorem ccWrite_fm : ccWrite d .ccFm b s = (s.setCcFm (enqueue d s.ccFm b)).setLfoBlocked true := rfl

theorem ccWrite_am : ccWrite d .ccAm b s = (s.setCcAm (enqueue d s.ccAm b)).setEgBlocked true := rfl

end

/-! ## `CC.read` -/

section
variable (s : State)

@[simp] theorem ccDrop_lfo : ccDrop .ccLfo s = s.setCcLfo s.ccLfo.tail := rfl

@[simp] theorem ccDrop_fm : ccDrop .ccFm s = s.setCcFm s.ccFm.tail := rfl

@[simp] theorem ccDrop_am : ccDrop .ccAm s = s.setCcAm s.ccAm.tail := rfl

@[simp] theorem ccHead_lfo : ccHead .ccLfo s = s.ccLfo.head? := rfl

@[simp] theorem ccHead_fm : ccHead .ccFm s = s.ccFm.head? := rfl

@[simp] theorem ccHead_am : ccHead .ccAm s = s.ccAm.head? := rfl

end

end Sys2Proof.Machine
end

