-- ==== Sys2Proof/Laws/Decode.lean ====
section
/-! SUPPORT. The fields of a packed word, and the bytes of a word. -/

namespace Sys2Proof

theorem toNat_append_eq {m n : Nat} (x : BitVec m) (y : BitVec n) :
    (x ++ y).toNat = x.toNat * 2 ^ n + y.toNat := by
  rw [BitVec.toNat_append, ← Nat.shiftLeft_add_eq_or_of_lt y.isLt, Nat.shiftLeft_eq]

theorem packWord_toNat (o : BitVec 8) (i : Idx) (v : Val) :
    (packWord o i v).toNat = o.toNat * 2 ^ 56 + i.toNat * 2 ^ 32 + v.toNat := by
  have h : (packWord o i v).toNat = (((o.toNat * 2 ^ 16 + 0) * 2 ^ 8 + i.toNat) * 2 ^ 32 + v.toNat) := by
    unfold packWord
    rw [toNat_append_eq, toNat_append_eq, toNat_append_eq]
    rfl
  rw [h]; ring

@[simp] theorem packWord_opc (o : BitVec 8) (i : Idx) (v : Val) : CmdWord.opc (packWord o i v) = o := by
  have := i.isLt; have := v.isLt; have := o.isLt
  apply BitVec.eq_of_toNat_eq
  rw [CmdWord.opc, BitVec.extractLsb'_toNat, packWord_toNat, Nat.shiftRight_eq_div_pow]
  omega

@[simp] theorem packWord_rsv (o : BitVec 8) (i : Idx) (v : Val) :
    CmdWord.rsv (packWord o i v) = 0#16 := by
  have := i.isLt; have := v.isLt; have := o.isLt
  apply BitVec.eq_of_toNat_eq
  rw [CmdWord.rsv, BitVec.extractLsb'_toNat, packWord_toNat, Nat.shiftRight_eq_div_pow]
  simp only [BitVec.toNat_ofNat]
  omega

@[simp] theorem packWord_idx (o : BitVec 8) (i : Idx) (v : Val) : CmdWord.idx (packWord o i v) = i := by
  have := i.isLt; have := v.isLt; have := o.isLt
  apply BitVec.eq_of_toNat_eq
  rw [CmdWord.idx, BitVec.extractLsb'_toNat, packWord_toNat, Nat.shiftRight_eq_div_pow]
  omega

@[simp] theorem packWord_val (o : BitVec 8) (i : Idx) (v : Val) : CmdWord.val (packWord o i v) = v := by
  have := i.isLt; have := v.isLt; have := o.isLt
  apply BitVec.eq_of_toNat_eq
  rw [CmdWord.val, BitVec.extractLsb'_toNat, packWord_toNat, Nat.shiftRight_eq_div_pow]
  omega

/-- The bytes of a word carry the word (20_memory.md R64). -/
theorem wordOfBytes_of_extract (w : CmdWord) :
    wordOfBytes (w.extractLsb' 0 8) (w.extractLsb' 8 8) (w.extractLsb' 16 8) (w.extractLsb' 24 8)
      (w.extractLsb' 32 8) (w.extractLsb' 40 8) (w.extractLsb' 48 8) (w.extractLsb' 56 8) = w := by
  apply BitVec.eq_of_toNat_eq
  have := w.isLt
  unfold wordOfBytes
  simp only [toNat_append_eq, BitVec.extractLsb'_toNat, Nat.shiftRight_eq_div_pow]
  omega

/-- Decoding the bytes of a word is decoding the word, and leaves the bytes after it. -/
theorem decode_wordBytes (w : CmdWord) (rest : List Byte) :
    decode (wordBytes w ++ rest) =
      match decodeWord w with
      | .ok i => .ok (i, rest)
      | .error e => .error e := by
  have h : decode (wordBytes w ++ rest) = match decodeWord (wordOfBytes (w.extractLsb' 0 8)
      (w.extractLsb' 8 8) (w.extractLsb' 16 8) (w.extractLsb' 24 8) (w.extractLsb' 32 8)
      (w.extractLsb' 40 8) (w.extractLsb' 48 8) (w.extractLsb' 56 8)) with
    | .ok i => .ok (i, rest)
    | .error e => .error e := rfl
  rw [h, wordOfBytes_of_extract]

/-- What the host's table words decode to. -/
theorem decodeTableWord_eq (nbits w : Nat) :
    decodeTableWord nbits w =
      match decodeWord (tableWord nbits w) with
      | .ok i => some i
      | .error _ => none := by
  have h := decode_wordBytes (tableWord nbits w) []
  rw [List.append_nil] at h
  unfold decodeTableWord
  rw [h]
  cases decodeWord (tableWord nbits w) <;> rfl

end Sys2Proof
end

