-- ==== Sys2Proof/Laws/Rounding.lean ====
section
/-! SUPPORT. Rounding: magnitude codes rise with magnitudes, `Format.roundCode` gives a nearest magnitude,
the even one in a tie, and gives back the code of a magnitude that needs no rounding. -/

namespace Sys2Proof

theorem roundEven_upper (num den : Nat) : 2 * (roundEven num den * den) ≤ 2 * num + den := by
  have h := Nat.div_add_mod num den
  have hm : num % den ≤ num := Nat.mod_le num den
  have hc : den * (num / den) = num / den * den := Nat.mul_comm _ _
  unfold roundEven
  split
  · omega
  · split
    · rw [Nat.add_mul]; omega
    · rcases Nat.mod_two_eq_zero_or_one (num / den) with h2 | h2 <;> rw [h2, Nat.add_mul] <;> omega

theorem roundEven_lower (num den : Nat) (hd : 0 < den) :
    2 * num ≤ 2 * (roundEven num den * den) + den := by
  have h := Nat.div_add_mod num den
  have hm := Nat.mod_lt num hd
  have hc : den * (num / den) = num / den * den := Nat.mul_comm _ _
  unfold roundEven
  split
  · omega
  · split
    · rw [Nat.add_mul]; omega
    · rcases Nat.mod_two_eq_zero_or_one (num / den) with h2 | h2 <;> rw [h2, Nat.add_mul] <;> omega

theorem roundEven_tie (num den : Nat) (hd : 0 < den)
    (h : 2 * (roundEven num den * den) = 2 * num + den ∨
      2 * num = 2 * (roundEven num den * den) + den) : roundEven num den % 2 = 0 := by
  have h0 := Nat.div_add_mod num den
  have hm := Nat.mod_lt num hd
  have hc : den * (num / den) = num / den * den := Nat.mul_comm _ _
  unfold roundEven at h ⊢
  split at h
  · omega
  · split at h
    · rw [Nat.add_mul] at h; omega
    · rename_i h1 h2
      rw [if_neg h1, if_neg h2]; omega

theorem roundEven_bounds (num den : Nat) :
    num / den ≤ roundEven num den ∧ roundEven num den ≤ num / den + 1 := by
  unfold roundEven
  split
  · omega
  · split <;> omega

/-- The magnitude of a code written as an exponent and a significand. -/
theorem Format.units_split (f : Format) (s q : Nat) (hq : q ≤ 2 * 2 ^ f.fracBits)
    (hs : s = 0 ∨ 2 ^ f.fracBits ≤ q) : f.units (s * 2 ^ f.fracBits + q) = q * 2 ^ s := by
  unfold Format.units
  have hP : 0 < 2 ^ f.fracBits := Nat.two_pow_pos _
  generalize 2 ^ f.fracBits = P at *
  by_cases h1 : s * P + q < P
  · have hs0 : s = 0 := by
      rcases hs with h | h
      · exact h
      · exact absurd h1 (by have := Nat.zero_le (s * P); omega)
    subst hs0
    simp at h1 ⊢
    intro h; omega
  · rw [if_neg h1]
    rcases Nat.lt_or_ge q P with hlt | hge
    · rcases hs with h | h
      · subst h; simp at h1; omega
      · omega
    · rcases Nat.lt_or_ge q (2 * P) with hlt2 | hge2
      · have e : s * P + q = (q - P) + P * (s + 1) := by
          rw [Nat.mul_add, Nat.mul_comm P s]; omega
        rw [e, Nat.add_mul_mod_self_left, Nat.add_mul_div_left _ _ hP,
          Nat.mod_eq_of_lt (by omega), Nat.div_eq_of_lt (by omega)]
        have : P + (q - P) = q := by omega
        simp [this]
      · have e : s * P + q = 0 + P * (s + 2) := by
          rw [Nat.mul_add, Nat.mul_comm P s]; omega
        rw [e, Nat.add_mul_mod_self_left, Nat.add_mul_div_left _ _ hP]
        have hq2 : q = 2 * P := by omega
        have : 0 / P + (s + 2) - 1 = s + 1 := by simp
        rw [this, hq2, Nat.zero_mod, Nat.pow_succ]
        ring

theorem Format.units_lt_succ (f : Format) (k : Nat) : f.units k < f.units (k + 1) := by
  have hP : 0 < 2 ^ f.fracBits := Nat.two_pow_pos _
  rcases Nat.lt_or_ge k (2 ^ f.fracBits) with h | h
  · have a := f.units_split 0 k (by omega) (.inl rfl)
    have b := f.units_split 0 (k + 1) (by omega) (.inl rfl)
    simp at a b
    omega
  · have hdm := Nat.div_add_mod k (2 ^ f.fracBits)
    have hml := Nat.mod_lt k hP
    have hdp : 1 ≤ k / 2 ^ f.fracBits := (Nat.one_le_div_iff hP).2 h
    obtain ⟨s, hs⟩ : ∃ s, k / 2 ^ f.fracBits = s + 1 := ⟨_, (Nat.sub_add_cancel hdp).symm⟩
    rw [hs, Nat.mul_add, Nat.mul_comm _ s] at hdm
    have a := f.units_split s (2 ^ f.fracBits + k % 2 ^ f.fracBits) (by omega) (.inr (by omega))
    have b := f.units_split s (2 ^ f.fracBits + k % 2 ^ f.fracBits + 1) (by omega) (.inr (by omega))
    have ea : s * 2 ^ f.fracBits + (2 ^ f.fracBits + k % 2 ^ f.fracBits) = k := by omega
    have eb : s * 2 ^ f.fracBits + (2 ^ f.fracBits + k % 2 ^ f.fracBits + 1) = k + 1 := by omega
    rw [ea] at a
    rw [eb] at b
    rw [a, b, Nat.add_mul _ 1]
    have := Nat.two_pow_pos s
    omega

theorem Format.units_strictMono (f : Format) : StrictMono f.units :=
  strictMono_nat_of_lt_succ f.units_lt_succ

theorem Format.units_le_iff (f : Format) {i j : Nat} : f.units i ≤ f.units j ↔ i ≤ j :=
  f.units_strictMono.le_iff_le

theorem Format.units_lt_iff (f : Format) {i j : Nat} : f.units i < f.units j ↔ i < j :=
  f.units_strictMono.lt_iff_lt

@[simp] theorem Format.units_zero (f : Format) : f.units 0 = 0 := by
  simp [Format.units]

theorem Format.units_eq_zero (f : Format) {k : Nat} : f.units k = 0 ↔ k = 0 := by
  have h := f.units_strictMono.injective.eq_iff (a := k) (b := 0)
  rwa [f.units_zero] at h

/-- What `roundCode` computes: the exponent and the significand of the rounded quotient. -/
theorem Format.roundCode_split (f : Format) (num den : Nat) (hd : 0 < den) :
    ∃ s q, f.roundCode num den = s * 2 ^ f.fracBits + q ∧ q = roundEven num (den * 2 ^ s) ∧
      q ≤ 2 * 2 ^ f.fracBits ∧ (s = 0 ∨ 2 ^ f.fracBits ≤ q) ∧
      (s = 0 ∨ 2 ^ f.fracBits * (den * 2 ^ s) ≤ num) := by
  refine ⟨Nat.log2 (num / den) - f.fracBits, _, rfl, rfl, ?_⟩
  have hb := roundEven_bounds num (den * 2 ^ (Nat.log2 (num / den) - f.fracBits))
  rw [← Nat.div_div_eq_div_mul] at hb
  have hD : 0 < den * 2 ^ (Nat.log2 (num / den) - f.fracBits) := by positivity
  have hlt : num / den < 2 ^ (Nat.log2 (num / den) + 1) := Nat.lt_log2_self
  rcases Nat.lt_or_ge f.fracBits (Nat.log2 (num / den)) with h | h
  · have hn : num / den ≠ 0 := by
      intro h0; rw [h0] at h; simp at h
    have hle : 2 ^ Nat.log2 (num / den) ≤ num / den := Nat.log2_self_le hn
    obtain ⟨s, hs⟩ : ∃ s, Nat.log2 (num / den) = f.fracBits + s := ⟨_, (Nat.add_sub_cancel' h.le).symm⟩
    rw [hs] at hb hD hlt hle ⊢
    rw [Nat.add_sub_cancel_left] at hb hD ⊢
    have h1 : num / den / 2 ^ s < 2 * 2 ^ f.fracBits := by
      rw [Nat.div_lt_iff_lt_mul (Nat.two_pow_pos s)]
      calc num / den < 2 ^ (f.fracBits + s + 1) := hlt
        _ = 2 * 2 ^ f.fracBits * 2 ^ s := by ring
    have h2 : 2 ^ f.fracBits ≤ num / den / 2 ^ s := by
      rw [Nat.le_div_iff_mul_le (Nat.two_pow_pos s), ← Nat.pow_add]; exact hle
    refine ⟨by omega, .inr (by omega), .inr ?_⟩
    have h3 : 2 ^ (f.fracBits + s) * den ≤ num := (Nat.le_div_iff_mul_le hd).1 hle
    calc 2 ^ f.fracBits * (den * 2 ^ s) = 2 ^ (f.fracBits + s) * den := by ring
      _ ≤ num := h3
  · have hs : Nat.log2 (num / den) - f.fracBits = 0 := by omega
    rw [hs] at hb ⊢
    have : 2 ^ (Nat.log2 (num / den) + 1) ≤ 2 ^ (f.fracBits + 1) :=
      Nat.pow_le_pow_right (by decide) (by omega)
    rw [Nat.pow_succ 2 f.fracBits] at this
    simp only [Nat.pow_zero, Nat.div_one, Nat.mul_one] at hb ⊢
    exact ⟨by omega, .inl trivial, .inl trivial⟩

/-- No code is nearer to the quotient than the rounded one; in a tie with another it is even. -/
theorem Format.roundCode_nearest (f : Format) (num den : Nat) (hd : 0 < den) (c : Nat) :
    |(f.units (f.roundCode num den) * den : Int) - num| ≤ |(f.units c * den : Int) - num| ∧
      (0 < f.fracBits → c ≠ f.roundCode num den →
        |(f.units (f.roundCode num den) * den : Int) - num| = |(f.units c * den : Int) - num| →
        f.roundCode num den % 2 = 0) := by
  obtain ⟨s, q, hk, hq, hq1, hq2, hlow⟩ := f.roundCode_split num den hd
  have hU : f.units (f.roundCode num den) = q * 2 ^ s := by rw [hk]; exact f.units_split s q hq1 hq2
  have hDpos : 0 < den * 2 ^ s := by positivity
  have hup := roundEven_upper num (den * 2 ^ s)
  have hlo := roundEven_lower num (den * 2 ^ s) hDpos
  have htie := roundEven_tie num (den * 2 ^ s) hDpos
  rw [← hq] at hup hlo htie
  have hUd : f.units (f.roundCode num den) * den = q * (den * 2 ^ s) := by rw [hU]; ring
  have hpar : 0 < f.fracBits → f.roundCode num den % 2 = q % 2 := by
    intro hf
    obtain ⟨m, hm⟩ : ∃ m, f.fracBits = m + 1 := ⟨_, (Nat.sub_add_cancel hf).symm⟩
    rw [hk, hm, Nat.pow_succ, ← Nat.mul_assoc]
    omega
  have hcast : (f.units (f.roundCode num den) * den : Int) = (q * (den * 2 ^ s) : Nat) := by
    rw [← hUd]; push_cast; ring
  have hcc : (f.units c * den : Int) = (f.units c * den : Nat) := by push_cast; ring
  rw [hcast, hcc]
  have absA := abs_cases (((q * (den * 2 ^ s) : Nat) : Int) - num)
  have absC := abs_cases (((f.units c * den : Nat) : Int) - num)
  rcases Nat.lt_trichotomy c (f.roundCode num den) with hlt | heq | hgt
  · by_cases hsp : s = 0 ∨ 2 ^ f.fracBits < q
    · have hq0 : 0 < q := by
        rcases Nat.eq_zero_or_pos q with h0 | h0
        · rcases hsp with h | h
          · subst h; subst h0; rw [hk] at hlt; simp at hlt
          · omega
        · exact h0
      have hprev : f.units (s * 2 ^ f.fracBits + (q - 1)) = (q - 1) * 2 ^ s :=
        f.units_split s (q - 1) (by omega) (by rcases hsp with h | h; exact .inl h; exact .inr (by omega))
      have hcle : f.units c ≤ (q - 1) * 2 ^ s := by
        rw [← hprev]; apply f.units_le_iff.2; omega
      have hcd : f.units c * den ≤ (q - 1) * (den * 2 ^ s) :=
        calc f.units c * den ≤ (q - 1) * 2 ^ s * den := Nat.mul_le_mul_right _ hcle
          _ = (q - 1) * (den * 2 ^ s) := by ring
      have hqs : (q - 1) * (den * 2 ^ s) + den * 2 ^ s = q * (den * 2 ^ s) := by
        rw [← Nat.succ_mul]; congr 1; omega
      generalize q * (den * 2 ^ s) = A at *
      generalize den * 2 ^ s = D at *
      refine ⟨by omega, fun hf _ h => ?_⟩
      rw [hpar hf]
      apply htie
      omega
    · have hq3 : q = 2 ^ f.fracBits := by
        rcases hq2 with h | h
        · exact absurd (.inl h) hsp
        · rcases Nat.lt_or_ge (2 ^ f.fracBits) q with h' | h'
          · exact absurd (.inr h') hsp
          · omega
      have hlow' : q * (den * 2 ^ s) ≤ num := by
        rcases hlow with h | h
        · exact absurd (.inl h) hsp
        · rw [hq3]; exact h
      have hc : f.units c * den < q * (den * 2 ^ s) := by
        rw [← hUd]; exact Nat.mul_lt_mul_of_pos_right (f.units_lt_iff.2 hlt) hd
      generalize q * (den * 2 ^ s) = A at *
      exact ⟨by omega, fun _ _ h => by omega⟩
  · rw [heq, hUd]; exact ⟨le_refl _, fun _ h => absurd rfl h⟩
  · have hnext : (q + 1) * 2 ^ s ≤ f.units (f.roundCode num den + 1) := by
      rcases Nat.lt_or_ge q (2 * 2 ^ f.fracBits) with h | h
      · rw [hk, Nat.add_assoc, f.units_split s (q + 1) (by omega) (by omega)]
      · have hq4 : q = 2 * 2 ^ f.fracBits := by omega
        have hP : 0 < 2 ^ f.fracBits := Nat.two_pow_pos _
        have e : f.roundCode num den + 1 = (s + 1) * 2 ^ f.fracBits + (2 ^ f.fracBits + 1) := by
          rw [hk, hq4]; ring
        rw [e, f.units_split (s + 1) (2 ^ f.fracBits + 1) (by omega) (.inr (by omega)), hq4]
        have : (2 ^ f.fracBits + 1) * 2 ^ (s + 1) = (2 * 2 ^ f.fracBits + 1) * 2 ^ s + 2 ^ s := by
          rw [Nat.pow_succ]; ring
        rw [this]
        exact Nat.le_add_right _ _
    have hcge : (q + 1) * 2 ^ s ≤ f.units c := le_trans hnext (f.units_le_iff.2 hgt)
    have hcd : q * (den * 2 ^ s) + den * 2 ^ s ≤ f.units c * den :=
      calc q * (den * 2 ^ s) + den * 2 ^ s = (q + 1) * 2 ^ s * den := by ring
        _ ≤ f.units c * den := Nat.mul_le_mul_right _ hcge
    generalize q * (den * 2 ^ s) = A at *
    generalize den * 2 ^ s = D at *
    refine ⟨by omega, fun hf _ h => ?_⟩
    rw [hpar hf]
    apply htie
    omega

/-- Rounding does not pass a magnitude from below. -/
theorem Format.roundCode_le (f : Format) {num den c : Nat} (hd : 0 < den)
    (h : num ≤ f.units c * den) : f.roundCode num den ≤ c := by
  by_contra hlt
  have hn := (f.roundCode_nearest num den hd c).1
  have hu : f.units c * den < f.units (f.roundCode num den) * den :=
    Nat.mul_lt_mul_of_pos_right (f.units_lt_iff.2 (by omega)) hd
  have e1 : (f.units c * den : Int) = (f.units c * den : Nat) := by push_cast; ring
  have e2 : (f.units (f.roundCode num den) * den : Int) =
      (f.units (f.roundCode num den) * den : Nat) := by push_cast; ring
  rw [e1, e2] at hn
  have a1 := abs_cases (((f.units c * den : Nat) : Int) - num)
  have a2 := abs_cases (((f.units (f.roundCode num den) * den : Nat) : Int) - num)
  omega

/-- Rounding does not pass a magnitude from above. -/
theorem Format.le_roundCode (f : Format) {num den c : Nat} (hd : 0 < den)
    (h : f.units c * den ≤ num) : c ≤ f.roundCode num den := by
  by_contra hlt
  have hn := (f.roundCode_nearest num den hd c).1
  have hu : f.units (f.roundCode num den) * den < f.units c * den :=
    Nat.mul_lt_mul_of_pos_right (f.units_lt_iff.2 (by omega)) hd
  have e1 : (f.units c * den : Int) = (f.units c * den : Nat) := by push_cast; ring
  have e2 : (f.units (f.roundCode num den) * den : Int) =
      (f.units (f.roundCode num den) * den : Nat) := by push_cast; ring
  rw [e1, e2] at hn
  have a1 := abs_cases (((f.units c * den : Nat) : Int) - num)
  have a2 := abs_cases (((f.units (f.roundCode num den) * den : Nat) : Int) - num)
  omega

/-- A magnitude that needs no rounding keeps its code. -/
theorem Format.roundCode_exact (f : Format) (k den : Nat) (hd : 0 < den) :
    f.roundCode (f.units k * den) den = k :=
  le_antisymm (f.roundCode_le hd le_rfl) (f.le_roundCode hd le_rfl)

@[simp] theorem Format.roundCode_zero (f : Format) (den : Nat) (hd : 0 < den) :
    f.roundCode 0 den = 0 := by
  simpa using f.roundCode_exact 0 den hd

end Sys2Proof
end

