-- ==== Sys2Proof/Laws/Float.lean ====
section
/-! SUPPORT. What each operation on binary numbers answers, stated once: `ofQuot`, the conversions between
the formats (`ext` loses nothing, `rnd32` undoes it), the comparisons, the literals and `SIN2PI`. -/

namespace Sys2Proof

/-- `ofQuot` answers a finite number with the rounded code, or overflows to infinity. -/
theorem Fl.ofQuot_cases (f : Format) (neg : Bool) (num den : Nat) :
    (∃ h : f.roundCode num den < f.top, Fl.ofQuot f neg num den = .fin neg ⟨f.roundCode num den, h⟩) ∨
      (f.top ≤ f.roundCode num den ∧ Fl.ofQuot f neg num den = .inf neg) := by
  unfold Fl.ofQuot
  split
  · exact .inl ⟨‹_›, rfl⟩
  · exact .inr ⟨by omega, rfl⟩

theorem Fl.ofQuot_of_code (f : Format) (neg : Bool) {num den : Nat} (k : Fin f.top)
    (h : f.roundCode num den = k.val) : Fl.ofQuot f neg num den = .fin neg k := by
  simp [Fl.ofQuot, h]

/-- A magnitude the format holds comes out as itself. -/
theorem Fl.ofQuot_exact (f : Format) (neg : Bool) (k : Fin f.top) (den : Nat) (hd : 0 < den) :
    Fl.ofQuot f neg (f.units k.val * den) den = .fin neg k :=
  Fl.ofQuot_of_code f neg k (f.roundCode_exact k.val den hd)

@[simp] theorem Fl.isFinite_fin {f : Format} (s : Bool) (k : Fin f.top) :
    (Fl.fin s k : Fl f).isFinite = true := rfl

@[simp] theorem Fl.isFinite_inf {f : Format} (s : Bool) : (Fl.inf s : Fl f).isFinite = false := rfl

@[simp] theorem Fl.isFinite_nan {f : Format} : (Fl.nan : Fl f).isFinite = false := rfl

theorem Fl.isFinite_iff {f : Format} {x : Fl f} : x.isFinite = true ↔ ∃ s k, x = .fin s k := by
  cases x <;> simp [Fl.isFinite]

@[simp] theorem F64.ofCode_isFinite (s : Bool) (c : Nat) : (F64.ofCode s c).isFinite = true := rfl

/-! ## The two formats -/

theorem two_pow_mul {a b n : Nat} (h : a + b = n) : 2 ^ a * 2 ^ b = 2 ^ n := by
  rw [← h, Nat.pow_add]

/-- The magnitude of a power of two in a format, from the exponent field of its code. -/
theorem Format.units_power (f : Format) {s c n : Nat} (hc : s * 2 ^ f.fracBits + 2 ^ f.fracBits = c)
    (hn : f.fracBits + s = n) : f.units c = 2 ^ n := by
  rw [← hc, f.units_split s (2 ^ f.fracBits) (by omega) (.inr le_rfl), two_pow_mul hn]

theorem units_top64 : binary64.units binary64.top = 2 ^ 2098 :=
  binary64.units_power (s := 2046) (by decide) (by decide)

theorem units_top32 : binary32.units binary32.top = 2 ^ 277 :=
  binary32.units_power (s := 254) (by decide) (by decide)

/-- How many powers of two finer the unit of binary64 is than that of binary32. -/
def unitGap : Nat := 925

/-- Every binary32 magnitude is a binary64 magnitude. -/
theorem exists_code64 (k : Nat) (hk : k < binary32.top) :
    ∃ c, c < binary64.top ∧ binary64.units c = binary32.units k * 2 ^ unitGap := by
  rcases Nat.eq_zero_or_pos k with h0 | hpos
  · subst h0
    exact ⟨0, by decide, by simp⟩
  -- the significand and the exponent of the binary32 magnitude
  obtain ⟨s, q, hq0, hq, hkq⟩ : ∃ s q, q ≠ 0 ∧ q < 2 ^ 53 ∧ binary32.units k = q * 2 ^ s := by
    by_cases h : k < 2 ^ 23
    · refine ⟨0, k, by omega, lt_trans h (by norm_num), ?_⟩
      unfold Format.units
      rw [if_pos h]; simp
    · refine ⟨k / 2 ^ 23 - 1, 2 ^ 23 + k % 2 ^ 23, by positivity, ?_, ?_⟩
      · have := Nat.mod_lt k (Nat.two_pow_pos 23)
        calc 2 ^ 23 + k % 2 ^ 23 < 2 ^ 23 + 2 ^ 23 := by omega
          _ ≤ 2 ^ 53 := by norm_num
      · unfold Format.units
        rw [if_neg h]
  have hL : Nat.log2 q ≤ 52 := by
    have := (Nat.log2_lt hq0).2 hq
    omega
  have hlo := Nat.log2_self_le hq0
  have hhi : q < 2 ^ (Nat.log2 q + 1) := Nat.lt_log2_self
  have hq1 : q * 2 ^ (52 - Nat.log2 q) ≤ 2 * 2 ^ 52 := by
    calc q * 2 ^ (52 - Nat.log2 q) ≤ 2 ^ (Nat.log2 q + 1) * 2 ^ (52 - Nat.log2 q) :=
          Nat.mul_le_mul_right _ hhi.le
      _ = 2 ^ (Nat.log2 q + 1 + (52 - Nat.log2 q)) := (Nat.pow_add _ _ _).symm
      _ = 2 ^ 53 := by congr 1; omega
      _ = 2 * 2 ^ 52 := by norm_num
  have hq2 : 2 ^ 52 ≤ q * 2 ^ (52 - Nat.log2 q) := by
    calc 2 ^ 52 = 2 ^ (Nat.log2 q + (52 - Nat.log2 q)) := by congr 1; omega
      _ = 2 ^ Nat.log2 q * 2 ^ (52 - Nat.log2 q) := Nat.pow_add _ _ _
      _ ≤ q * 2 ^ (52 - Nat.log2 q) := Nat.mul_le_mul_right _ hlo
  have hsplit := binary64.units_split (s + unitGap + Nat.log2 q - 52) (q * 2 ^ (52 - Nat.log2 q)) hq1 (.inr hq2)
  have hval : q * 2 ^ (52 - Nat.log2 q) * 2 ^ (s + unitGap + Nat.log2 q - 52) = binary32.units k * 2 ^ unitGap := by
    rw [hkq, Nat.mul_assoc, Nat.mul_assoc, ← Nat.pow_add, ← Nat.pow_add]
    congr 2; unfold unitGap; omega
  rw [hval] at hsplit
  refine ⟨_, ?_, hsplit⟩
  rw [← binary64.units_lt_iff, hsplit]
  calc binary32.units k * 2 ^ unitGap < binary32.units binary32.top * 2 ^ unitGap :=
        Nat.mul_lt_mul_of_pos_right (binary32.units_lt_iff.2 hk) (Nat.two_pow_pos _)
    _ = 2 ^ (277 + unitGap) := by rw [units_top32, two_pow_mul rfl]
    _ ≤ binary64.units binary64.top := by
        rw [units_top64]; exact Nat.pow_le_pow_right (by decide) (by decide)

theorem Format.scale_eq (f : Format) : f.scale = 2 ^ f.unit := by unfold Format.scale; rfl

theorem Format.scale_pos (f : Format) : 0 < f.scale := f.scale_eq ▸ Nat.two_pow_pos _

/-- The unit of binary64 is `2 ^ unitGap` times finer. -/
theorem scale64_eq : 2 ^ unitGap * binary32.scale = binary64.scale := by
  rw [Format.scale_eq, Format.scale_eq]
  exact two_pow_mul (by decide)

theorem F32.ext_eq_ofQuot (s : Bool) (k : Fin binary32.top) : F32.ext (.fin s k) =
    Fl.ofQuot binary64 s (binary32.units k.val * binary64.scale) binary32.scale := rfl

theorem F64.rnd32_eq_ofQuot (s : Bool) (k : Fin binary64.top) : F64.rnd32 (.fin s k) =
    Fl.ofQuot binary32 s (binary64.units k.val * binary32.scale) binary64.scale := rfl

/-- `ext` is exact: the binary64 number has the same sign and the same magnitude. -/
theorem F32.ext_fin (s : Bool) (k : Fin binary32.top) :
    ∃ c : Fin binary64.top, F32.ext (.fin s k) = .fin s c ∧
      binary64.units c.val = binary32.units k.val * 2 ^ unitGap := by
  obtain ⟨c, hc, hu⟩ := exists_code64 k.val k.isLt
  refine ⟨⟨c, hc⟩, ?_, hu⟩
  have e : binary32.units k.val * binary64.scale = binary64.units c * binary32.scale := by
    rw [hu, Nat.mul_assoc, scale64_eq]
  rw [F32.ext_eq_ofQuot, e]
  exact Fl.ofQuot_exact binary64 s ⟨c, hc⟩ _ (binary32.scale_pos)

@[simp] theorem F32.ext_isFinite (x : F32) : (F32.ext x).isFinite = x.isFinite := by
  cases x with
  | nan => rfl
  | inf s => rfl
  | fin s k => obtain ⟨c, hc, -⟩ := F32.ext_fin s k; rw [hc]; rfl

@[simp] theorem F32.ext_isNan (x : F32) : (F32.ext x).isNan = x.isNan := by
  cases x with
  | nan => rfl
  | inf s => rfl
  | fin s k => obtain ⟨c, hc, -⟩ := F32.ext_fin s k; rw [hc]; rfl

/-- "the status snapshot returns it without rounding" (10_state.md R37): `rnd32` undoes `ext`. -/
@[simp] theorem F64.rnd32_ext (x : F32) : F64.rnd32 (F32.ext x) = x := by
  cases x with
  | nan => rfl
  | inf s => rfl
  | fin s k =>
    obtain ⟨c, hc, hu⟩ := F32.ext_fin s k
    have e : binary64.units c.val * binary32.scale = binary32.units k.val * binary64.scale := by
      rw [hu, Nat.mul_assoc, scale64_eq]
    rw [hc, F64.rnd32_eq_ofQuot, e]
    exact Fl.ofQuot_exact binary32 s k _ (binary64.scale_pos)

theorem F32.ext_injective : Function.Injective F32.ext :=
  Function.LeftInverse.injective F64.rnd32_ext

/-- `ext` keeps the order of finite numbers. -/
theorem F32.ext_rank_le (s t : Bool) (i j : Fin binary32.top) :
    (F32.ext (.fin s i)).rank ≤ (F32.ext (.fin t j)).rank ↔
      (Fl.fin s i : F32).rank ≤ (Fl.fin t j : F32).rank := by
  obtain ⟨c, hc, hu⟩ := F32.ext_fin s i
  obtain ⟨d, hd, hv⟩ := F32.ext_fin t j
  have hcd : c.val ≤ d.val ↔ i.val ≤ j.val := by
    rw [← binary64.units_le_iff, hu, hv, Nat.mul_le_mul_right_iff (Nat.two_pow_pos _),
      binary32.units_le_iff]
  have hdc : d.val ≤ c.val ↔ j.val ≤ i.val := by
    rw [← binary64.units_le_iff, hu, hv, Nat.mul_le_mul_right_iff (Nat.two_pow_pos _),
      binary32.units_le_iff]
  have hc0 : c.val = 0 ↔ i.val = 0 := by
    rw [← binary64.units_eq_zero, hu, Nat.mul_eq_zero, or_iff_left (Nat.two_pow_pos _).ne',
      binary32.units_eq_zero]
  have hd0 : d.val = 0 ↔ j.val = 0 := by
    rw [← binary64.units_eq_zero, hv, Nat.mul_eq_zero, or_iff_left (Nat.two_pow_pos _).ne',
      binary32.units_eq_zero]
  rw [hc, hd]
  cases s <;> cases t <;> simp [Fl.rank] <;> omega

theorem F32.ext_le (x y : F32) (hx : x.isFinite = true) (hy : y.isFinite = true) :
    Fl.le (F32.ext x) (F32.ext y) = Fl.le x y := by
  obtain ⟨s, i, rfl⟩ := Fl.isFinite_iff.1 hx
  obtain ⟨t, j, rfl⟩ := Fl.isFinite_iff.1 hy
  simp only [Fl.le, F32.ext_isNan, decide_eq_decide.2 (F32.ext_rank_le s t i j)]

theorem F32.ext_lt (x y : F32) (hx : x.isFinite = true) (hy : y.isFinite = true) :
    Fl.lt (F32.ext x) (F32.ext y) = Fl.lt x y := by
  obtain ⟨s, i, rfl⟩ := Fl.isFinite_iff.1 hx
  obtain ⟨t, j, rfl⟩ := Fl.isFinite_iff.1 hy
  have h := not_congr (F32.ext_rank_le t s j i)
  rw [not_le, not_le] at h
  simp only [Fl.lt, F32.ext_isNan, decide_eq_decide.2 h]

/-! ## The operations of `NUM_F64` by their names -/

@[simp] theorem numF64_add (x y : F64) : numF64.add x y = Fl.add x y := by simp only [numF64]

@[simp] theorem numF64_sub (x y : F64) : numF64.sub x y = Fl.sub x y := by simp only [numF64]

@[simp] theorem numF64_mul (x y : F64) : numF64.mul x y = Fl.mul x y := by simp only [numF64]

@[simp] theorem numF64_div (x y : F64) : numF64.div x y = Fl.div x y := by simp only [numF64]

@[simp] theorem numF64_le (x y : F64) : numF64.le x y = Fl.le x y := by simp only [numF64]

@[simp] theorem numF64_lt (x y : F64) : numF64.lt x y = Fl.lt x y := by simp only [numF64]

@[simp] theorem numF64_ofInt (n : Int) : numF64.ofInt n = F64.ofInt n := by simp only [numF64]

@[simp] theorem numF64_sin2pi (x : F64) : numF64.sin2pi x = F64.sin2pi x := by simp only [numF64]

@[simp] theorem numF64_rnd32 (x : F64) : numF64.rnd32 x = F64.rnd32 x := by simp only [numF64]

@[simp] theorem numF64_ext (x : F32) : numF64.ext x = F32.ext x := by simp only [numF64]

/-! ## Zeros -/

/-- Adding a zero to a number that is no zero gives the number back. -/
theorem Fl.add_zero_right {f : Format} (s t : Bool) (i j : Fin f.top) (hi : i.val ≠ 0)
    (hj : j.val = 0) : Fl.add (.fin s i) (.fin t j) = .fin s i := by
  have hu : f.units i.val ≠ 0 := fun h => hi (f.units_eq_zero.1 h)
  have hz : Fl.signedUnits f t j = 0 := by unfold Fl.signedUnits; rw [hj]; cases t <;> simp
  have hs : Fl.signedUnits f s i ≠ 0 ∧ decide (Fl.signedUnits f s i < 0) = s ∧
      (Fl.signedUnits f s i).natAbs = f.units i.val := by
    unfold Fl.signedUnits
    cases s <;> simp [hu, Nat.pos_of_ne_zero]
  unfold Fl.add
  simp only [hz, add_zero, if_neg hs.1, hs.2]
  have h := Fl.ofQuot_exact f s i 1 (by decide)
  rwa [Nat.mul_one] at h

/-- A finite number times a zero is a zero. -/
theorem Fl.mul_zero_right {f : Format} (s t : Bool) (i j : Fin f.top) (hj : j.val = 0) :
    Fl.mul (.fin s i) (.fin t j) = .fin (s ^^ t) j := by
  have h0 : f.units j.val = 0 := f.units_eq_zero.2 hj
  have h := Fl.ofQuot_exact f (s ^^ t) j f.scale f.scale_pos
  rw [h0, Nat.zero_mul] at h
  unfold Fl.mul
  simp only [h0, Nat.mul_zero]
  exact h

/-! ## Literals -/

theorem F64.ofInt_zero : F64.ofInt 0 = .fin false ⟨0, by decide⟩ := by decide +kernel

theorem F64.ofInt_one : F64.ofInt 1 = .fin false ⟨oneCode, by decide⟩ := by decide +kernel

theorem F32.ext_zero : F32.ext (.fin false ⟨0, by decide⟩) = F64.ofInt 0 := by decide +kernel

theorem F32.ext_one : F32.ext (.fin false ⟨0x3F800000, by decide⟩) = F64.ofInt 1 := by decide +kernel

/-! ## `SIN2PI` -/

/-- S2 and S5 of 00_scope.md R15 in terms of codes. -/
theorem F64.sin2pi_cases (p : F64) :
    (p.isFinite = false ∧ F64.sin2pi p = .nan) ∨
      (p.isFinite = true ∧ ∃ s, ∃ k : Fin binary64.top, F64.sin2pi p = .fin s k ∧ k.val ≤ oneCode) := by
  cases p with
  | nan => exact .inl ⟨rfl, rfl⟩
  | inf s => exact .inl ⟨rfl, rfl⟩
  | fin s k =>
    refine .inr ⟨rfl, ?_⟩
    unfold F64.sin2pi
    simp only
    split
    · exact ⟨_, _, rfl, by simp⟩
    · refine ⟨_, _, rfl, le_trans (Nat.mod_le _ _) ?_⟩
      exact Nat.lt_succ_iff.1 (Nat.mod_lt _ (Nat.succ_pos oneCode))

theorem units_one64 : binary64.units oneCode = binary64.scale :=
  binary64.scale_eq ▸ binary64.units_power (s := 1022) (by decide) (by decide)

theorem units_one32 : binary32.units 0x3F800000 = binary32.scale :=
  binary32.scale_eq ▸ binary32.units_power (s := 126) (by decide) (by decide)

/-- Rounding to binary32 does not leave [-1, 1]. -/
theorem F64.rnd32_unit (s : Bool) (k : Fin binary64.top) (hk : k.val ≤ oneCode) :
    ∃ c : Fin binary32.top, F64.rnd32 (.fin s k) = .fin s c ∧ c.val ≤ 0x3F800000 := by
  have hu : binary64.units k.val ≤ binary64.scale := units_one64 ▸ binary64.units_le_iff.2 hk
  rw [F64.rnd32_eq_ofQuot]
  have hle : binary32.roundCode (binary64.units k.val * binary32.scale) binary64.scale ≤ 0x3F800000 := by
    apply binary32.roundCode_le binary64.scale_pos
    rw [units_one32, Nat.mul_comm]
    exact Nat.mul_le_mul_left _ hu
  exact ⟨⟨_, lt_of_le_of_lt hle (by decide)⟩, Fl.ofQuot_of_code binary32 s ⟨_, _⟩ rfl, hle⟩

end Sys2Proof
end

