-- ==== Sys2Proof/Laws/Nodes.lean ====
section
/-! SUPPORT. The nodes: what one render cycle of an oscillator, the envelope or the gain stage does, frame
by frame, for either realisation of the numbers. -/

namespace Sys2Proof.Machine

section
variable {R B : Type} (num : NumOps R B)

theorem oscRender_toList (o : Osc R) (m : Option (Vector B bufferLen)) :
    (oscRender num o m).toList = oscSamples num o.freq o.depth o.phase (controlSamples num m) := rfl

@[simp] theorem oscAfter_freq (o : Osc R) (m : Option (Vector B bufferLen)) :
    (oscAfter num o m).freq = o.freq := rfl

@[simp] theorem oscAfter_depth (o : Osc R) (m : Option (Vector B bufferLen)) :
    (oscAfter num o m).depth = o.depth := rfl

/-- Every sample of an oscillator is the rounded sine of some phase. -/
theorem mem_oscSamples (freq depth : R) (cvs : List R) :
    ∀ phase x, x ∈ oscSamples num freq depth phase cvs → ∃ p, x = num.rnd32 (num.sin2pi p) := by
  induction cvs with
  | nil => intro phase x h; exact absurd h (by simp [oscSamples])
  | cons cv cvs ih =>
    intro phase x h
    rw [oscSamples, List.mem_cons] at h
    rcases h with h | h
    · exact ⟨phase, h⟩
    · exact ih _ _ h

/-- Sample `i` is the rounded sine of the phase after the first `i` advances (41_oscillator.md R130). -/
theorem oscSamples_getElem? (freq depth : R) (cvs : List R) : ∀ (phase : R) (i : Nat), i < cvs.length →
    (oscSamples num freq depth phase cvs)[i]? =
      some (num.rnd32 (num.sin2pi (oscPhase num freq depth phase (cvs.take i)))) := by
  induction cvs with
  | nil => intro phase i h; exact absurd h (Nat.not_lt_zero i)
  | cons cv cvs ih =>
    intro phase i h
    cases i with
    | zero => rfl
    | succ i =>
      rw [oscSamples, List.getElem?_cons_succ, ih _ i (by simpa using h)]
      rfl

theorem envRender_toList (e : Env R) : (envRender num e).toList = envSamples num bufferLen e := rfl

theorem envAfter_succ (n : Nat) (e : Env R) : envAfter num (n + 1) e = envAfter num n (envStep num e) :=
  rfl

theorem envAfter_add (m n : Nat) : ∀ e : Env R, envAfter num (m + n) e = envAfter num n (envAfter num m e) := by
  induction m with
  | zero => intro e; rw [Nat.zero_add]; rfl
  | succ m ih => intro e; rw [Nat.succ_add, envAfter_succ, ih, envAfter_succ]

/-- One more step at the end. -/
theorem envAfter_succ' (n : Nat) (e : Env R) : envAfter num (n + 1) e = envStep num (envAfter num n e) := by
  rw [envAfter_add num n 1]; rfl

/-- Sample `i` is the value after step `i + 1`, rounded (42_envelope.md R158). -/
theorem envSamples_getElem? (n : Nat) : ∀ (e : Env R) (i : Nat), i < n →
    (envSamples num n e)[i]? = some (num.rnd32 (envAfter num (i + 1) e).value) := by
  induction n with
  | zero => intro e i h; omega
  | succ n ih =>
    intro e i h
    cases i with
    | zero => rfl
    | succ i =>
      rw [envSamples, List.getElem?_cons_succ, ih _ i (by omega)]
      rfl

/-- A generation step never writes a parameter (42_envelope.md R152 to R157). -/
theorem envStep_params (e : Env R) :
    (envStep num e).attackMs = e.attackMs ∧ (envStep num e).decayMs = e.decayMs ∧
      (envStep num e).sustainLevel = e.sustainLevel ∧ (envStep num e).sustainMs = e.sustainMs ∧
      (envStep num e).releaseMs = e.releaseMs := by
  unfold envStep
  cases e.st with
  | attack => exact ⟨rfl, rfl, rfl, rfl, rfl⟩
  | decay => exact ⟨rfl, rfl, rfl, rfl, rfl⟩
  | sustain => simp only [envSustain]; split <;> exact ⟨rfl, rfl, rfl, rfl, rfl⟩
  | release => simp only [envRelease]; split <;> exact ⟨rfl, rfl, rfl, rfl, rfl⟩
  | idle => exact ⟨rfl, rfl, rfl, rfl, rfl⟩

theorem envAfter_params (n : Nat) : ∀ e : Env R,
    (envAfter num n e).attackMs = e.attackMs ∧ (envAfter num n e).decayMs = e.decayMs ∧
      (envAfter num n e).sustainLevel = e.sustainLevel ∧
      (envAfter num n e).sustainMs = e.sustainMs ∧ (envAfter num n e).releaseMs = e.releaseMs := by
  induction n with
  | zero => intro e; exact ⟨rfl, rfl, rfl, rfl, rfl⟩
  | succ n ih =>
    intro e
    have h1 := ih (envStep num e)
    have h2 := envStep_params num e
    rw [envAfter_succ]
    simp only [h1, h2, and_self]

theorem sampleRate_f64 : sampleRate numF64 = F64.ofInt 44100 := by simp only [sampleRate, numF64_ofInt]

/-- One frame's advance in the operations of `NUM_F64`, in their order (41_oscillator.md R130). -/
theorem advancePhase_f64 (freq depth phase cv : F64) : advancePhase numF64 freq depth phase cv =
    Fl.add phase (Fl.div (Fl.add freq (Fl.mul cv depth)) (F64.ofInt 44100)) := by
  simp only [advancePhase, numF64_add, numF64_div, numF64_mul, sampleRate_f64]

theorem vcaProcess_toList (gain : R) (x : Vector B bufferLen) (m : Option (Vector B bufferLen)) :
    (vcaProcess num gain x m).toList =
      List.zipWith (vcaLane num gain) x.toList (controlSamples num m) := rfl

end

end Sys2Proof.Machine
end

