-- ==== Sys2Proof/Laws/Exact.lean ====
section
/-! SUPPORT. Real values: what `Fl.ofQuot` answers as a real number, and the envelope's steps and
the sequencer's test under `NUM_EXACT`. -/

namespace Sys2Proof

/-- `roundCode` is nearest, and even in a tie, over the reals too. -/
theorem Format.roundCode_nearest_real (f : Format) (hf : 0 < f.fracBits) (num den : Nat)
    (hd : 0 < den) (c : Nat) :
    |(f.units (f.roundCode num den) : ℝ) - num / den| ≤ |(f.units c : ℝ) - num / den| ∧
      (c ≠ f.roundCode num den →
        |(f.units (f.roundCode num den) : ℝ) - num / den| = |(f.units c : ℝ) - num / den| →
        f.roundCode num den % 2 = 0) := by
  obtain ⟨h1, h2⟩ := f.roundCode_nearest num den hd c
  have hd' : (0:ℝ) < den := by exact_mod_cast hd
  have key : ∀ u : Nat, |(u : ℝ) - num / den| * den = ((|(u * den : Int) - num| : Int) : ℝ) := by
    intro u
    push_cast
    rw [← abs_of_pos hd', ← abs_mul, abs_of_pos hd', sub_mul, div_mul_cancel₀ _ hd'.ne']
  constructor
  · rw [← mul_le_mul_iff_of_pos_right hd', key, key]; exact_mod_cast h1
  · intro hc he
    apply h2 hf hc
    have := congrArg (· * (den:ℝ)) he
    simp only [key] at this
    exact_mod_cast this

theorem abs_sign_mul (s : Bool) (x : ℝ) : |(if s then -1 else 1) * x| = |x| := by cases s <;> simp

theorem Fl.toReal_fin {f : Format} (s : Bool) (k : Fin f.top) :
    (Fl.fin s k : Fl f).toReal = (if s then -1 else 1) * (f.units k : ℝ) / f.scale := rfl

theorem Fl.toReal_signedUnits {f : Format} (s : Bool) (k : Fin f.top) :
    (Fl.fin s k : Fl f).toReal = (Fl.signedUnits f s k : ℝ) / f.scale := by
  rw [Fl.toReal_fin]
  unfold Fl.signedUnits
  cases s <;> simp

/-- `ofQuot` answers the correctly rounded value of the quotient (00_scope.md R14). -/
theorem Fl.ofQuot_roundedFrom (f : Format) (hf : 0 < f.fracBits) (ht : 0 < f.top)
    (hte : f.top % 2 = 0) (neg : Bool) (num den : Nat) (hd : 0 < den) (x : ℝ)
    (hx : x = (if neg then -1 else 1) * ((num / den : ℝ) / f.scale)) :
    (Fl.ofQuot f neg num den).RoundedFrom x := by
  have hs : (0:ℝ) < f.scale := by exact_mod_cast f.scale_pos
  have hd' : (0:ℝ) < den := by exact_mod_cast hd
  have hq : (0:ℝ) ≤ num / den := by positivity
  have hov : f.overflow = ((f.units (f.top - 1) : ℝ) + f.units f.top) / 2 / f.scale := rfl
  have hax : |x| = (num / den : ℝ) / f.scale := by
    rw [hx, abs_sign_mul, abs_of_nonneg (by positivity)]
  rcases Fl.ofQuot_cases f neg num den with ⟨h, e⟩ | ⟨h, e⟩ <;> rw [e]
  · left
    constructor
    · rw [hax, hov, div_lt_div_iff_of_pos_right hs]
      by_contra hc
      push Not at hc
      obtain ⟨h1, h2⟩ := f.roundCode_nearest_real hf num den hd f.top
      have hle : f.units (f.roundCode num den) ≤ f.units (f.top - 1) := f.units_le_iff.2 (by omega)
      have hlt : f.units (f.top - 1) < f.units f.top := f.units_lt_iff.2 (by omega)
      have hle' : (f.units (f.roundCode num den) : ℝ) ≤ f.units (f.top - 1) := by exact_mod_cast hle
      have hlt' : (f.units (f.top - 1) : ℝ) < f.units f.top := by exact_mod_cast hlt
      generalize (num / den : ℝ) = q at *
      have a1 := abs_cases ((f.units (f.roundCode num den) : ℝ) - q)
      have a2 := abs_cases ((f.units f.top : ℝ) - q)
      have hq1 : |(f.units (f.roundCode num den) : ℝ) - q| = |(f.units f.top : ℝ) - q| := by
        apply le_antisymm h1
        rcases a1 with a1 | a1 <;> rcases a2 with a2 | a2 <;> linarith
      have heq : (f.units (f.roundCode num den) : ℝ) = f.units (f.top - 1) := by
        rcases a1 with a1 | a1 <;> rcases a2 with a2 | a2 <;> linarith
      have heq' : f.roundCode num den = f.top - 1 := by
        apply f.units_strictMono.injective; exact_mod_cast heq
      have := h2 (by omega) hq1
      omega
    · refine ⟨rfl, fun c hc => ?_⟩
      obtain ⟨t, j, rfl⟩ := Fl.isFinite_iff.1 hc
      obtain ⟨h1, h2⟩ := f.roundCode_nearest_real hf num den hd j.val
      rw [Fl.toReal_fin, Fl.toReal_fin, hx]
      simp only
      have e1 : ∀ (u : ℝ), (if neg then -1 else 1) * u / f.scale -
          (if neg then -1 else 1) * ((num / den : ℝ) / f.scale) =
            (if neg then -1 else 1) * ((u - num / den) / f.scale) := by intro u; ring
      rw [e1, abs_sign_mul, abs_div, abs_of_pos hs]
      by_cases hst : neg = t
      · subst hst
        rw [e1, abs_sign_mul, abs_div, abs_of_pos hs, div_le_div_iff_of_pos_right hs]
        refine ⟨h1, fun he hne => ?_⟩
        rw [div_left_inj' hs.ne'] at he
        apply h2 _ he
        intro hj
        apply hne
        rw [hj]
      · have e2 : |(if t = true then -1 else 1) * (f.units j.val : ℝ) / f.scale -
            (if neg then -1 else 1) * ((num / den : ℝ) / f.scale)| =
              (f.units j.val + num / den) / f.scale := by
          have : (0:ℝ) ≤ (f.units j.val + num / den) / f.scale := by positivity
          rw [← abs_of_nonneg this]
          cases neg <;> cases t <;> simp at hst ⊢
          · rw [← abs_neg]; congr 1; ring
          · congr 1; ring
        rw [e2, div_le_div_iff_of_pos_right hs]
        have h0 := f.roundCode_nearest_real hf num den hd 0
        simp only [f.units_zero, Nat.cast_zero, zero_sub, abs_neg, abs_of_nonneg hq] at h0
        have hu : (0:ℝ) ≤ f.units j.val := by positivity
        refine ⟨by linarith [h0.1], fun he hne => ?_⟩
        rw [div_left_inj' hs.ne'] at he
        have hj0 : (f.units j.val : ℝ) = 0 := by linarith [h0.1]
        have hj0' : j.val = 0 := f.units_eq_zero.1 (by exact_mod_cast hj0)
        by_cases hk : 0 = f.roundCode num den
        · show _ % 2 = 0
          simp [← hk]
        · exact h0.2 hk (by linarith)
  · right
    have hov2 : f.overflow ≤ |x| := by
      rw [hax, hov, div_le_div_iff_of_pos_right hs]
      by_contra hc
      push Not at hc
      obtain ⟨h1, h2⟩ := f.roundCode_nearest_real hf num den hd (f.top - 1)
      have hle : f.units f.top ≤ f.units (f.roundCode num den) := f.units_le_iff.2 (by omega)
      have hlt : f.units (f.top - 1) < f.units f.top := f.units_lt_iff.2 (by omega)
      have hle' : (f.units f.top : ℝ) ≤ (f.units (f.roundCode num den) : ℝ) := by exact_mod_cast hle
      have hlt' : (f.units (f.top - 1) : ℝ) < f.units f.top := by exact_mod_cast hlt
      generalize (num / den : ℝ) = q at *
      have a1 := abs_cases ((f.units (f.roundCode num den) : ℝ) - q)
      have a2 := abs_cases ((f.units (f.top - 1) : ℝ) - q)
      rcases a1 with a1 | a1 <;> rcases a2 with a2 | a2 <;> linarith
    refine ⟨hov2, neg, rfl, ?_⟩
    have : 0 < |x| := by
      refine lt_of_lt_of_le ?_ hov2
      rw [hov]
      have : 0 < f.units f.top := by
        rcases Nat.eq_zero_or_pos (f.units f.top) with h | h
        · have := f.units_eq_zero.1 h; omega
        · exact h
      have : (0:ℝ) < f.units f.top := by exact_mod_cast this
      positivity
    rw [hax] at this
    rw [hx]
    cases neg <;> simp
    · positivity
    · exact this

end Sys2Proof

namespace Sys2Proof.Machine

/-- R191 and R192 over the reals. -/
theorem tickFires_exact (q : Sequencer ℝ) (now : Int) : tickFires numExact q now =
    (q.running && decide (6000 / q.bpm ≤ ((now - q.last : Int) : ℝ))) := by
  simp only [tickFires, stepInterval, numExact]
  simp

/-- R153 over the reals. -/
theorem envStep_exact_attack (e : Env ℝ) (h : e.st = .attack) : envStep numExact e =
    { e with
      value := e.value + 1000 / (44100 * e.attackMs),
      st := if 1 ≤ e.value + 1000 / (44100 * e.attackMs) then .decay else .attack } := by
  simp only [envStep, h, envAttack, perSample, sampleRate, numExact]
  simp

/-- R154 over the reals. -/
theorem envStep_exact_decay (e : Env ℝ) (h : e.st = .decay) : envStep numExact e =
    { e with
      value := e.value - 1000 / (44100 * e.decayMs) * e.sustainLevel,
      st := if e.value - 1000 / (44100 * e.decayMs) * e.sustainLevel ≤ e.sustainLevel then .sustain
        else .decay } := by
  simp only [envStep, h, envDecay, perSample, sampleRate, numExact]
  simp

/-- R155 over the reals. -/
theorem envStep_exact_sustain (e : Env ℝ) (h : e.st = .sustain) : envStep numExact e =
    if 44100 * (1 / 1000) * e.sustainMs < ((e.cnt + 1 : ℕ) : ℝ) then
      { e with value := e.sustainLevel, cnt := 0, st := .release }
    else { e with value := e.sustainLevel, cnt := e.cnt + 1 } := by
  simp only [envStep, h, envSustain, sustainSamples, sampleRate, numExact]
  simp

/-- R156 over the reals. -/
theorem envStep_exact_release (e : Env ℝ) (h : e.st = .release) : envStep numExact e =
    if e.value - 1000 / (44100 * e.releaseMs) ≤ 0 then { e with value := 0, st := .idle }
    else { e with value := e.value - 1000 / (44100 * e.releaseMs) } := by
  simp only [envStep, h, envRelease, perSample, sampleRate, numExact]
  simp

/-- R157 over the reals. -/
theorem envStep_exact_idle (e : Env ℝ) (h : e.st = .idle) : envStep numExact e = { e with value := 0 } := by
  simp only [envStep, h, envIdle, numExact]
  simp

end Sys2Proof.Machine
end

