-- ==== Sys2Proof/Laws/Operands.lean ====
section
/-! SUPPORT. Operands: which bits are a number, a boolean, a note or an index, and everything that
applying a command's operands can do. -/

namespace Sys2Proof.Machine

theorem Outcome_next_inj {a b : State} : (Host.Outcome.next a : Result) = .next b ↔ a = b :=
  ⟨fun h => by cases h; rfl, fun h => by rw [h]⟩

@[simp] theorem ignore_eq (s : State) : ignore s = .next s := rfl

theorem magnitude_lt (v : Val) : v.toNat % 2 ^ 31 < 0x7F800000 ↔ f32WellFormed v = true := by
  have hv := v.isLt
  have h : f32WellFormed v = true ↔ (v.extractLsb' 23 8).toNat ≠ 255 := by
    unfold f32WellFormed
    rw [bne_iff_ne, ne_eq, BitVec.toNat_eq]
    rfl
  rw [h, BitVec.extractLsb'_toNat, Nat.shiftRight_eq_div_pow]
  omega

/-- A well-formed F32 operand is the finite number with those bits (30_encoding.md R94). -/
theorem ofBits_finite (v : Val) : (F32.ofBits v).isFinite = f32WellFormed v := by
  have h := magnitude_lt v
  unfold F32.ofBits
  cases hw : f32WellFormed v with
  | true => rw [hw] at h; rw [dif_pos (h.2 rfl)]; rfl
  | false =>
    rw [hw] at h
    rw [dif_neg (fun hc => by simpa using h.1 hc)]
    split <;> rfl

theorem operandF32_eq (v : Val) :
    operandF32 v = if f32WellFormed v then some (F32.ext (F32.ofBits v)) else none := by
  rw [← ofBits_finite]
  unfold operandF32
  cases F32.ofBits v <;> rfl

theorem operandF32_isFinite {v : Val} {x : F64} (h : operandF32 v = some x) : x.isFinite = true := by
  rw [operandF32_eq] at h
  split at h
  · next hw =>
    simp only [Option.some.injEq] at h
    rw [← h, F32.ext_isFinite, ofBits_finite]; exact hw
  · exact absurd h (by simp)

theorem operandBool_isSome (v : Val) : (operandBool v).isSome = boolWellFormed v := by
  unfold operandBool boolWellFormed
  by_cases h0 : v = 0#32 <;> by_cases h1 : v = 1#32 <;> simp [h0, h1]

theorem operandNote_isSome (v : Val) : (operandNote v).isSome = noteWellFormed v := by
  unfold operandNote noteWellFormed
  split <;> simp <;> omega

theorem operandIndex_isSome (i : Idx) : (operandIndex i).isSome = indexWellFormed i := by
  unfold operandIndex indexWellFormed
  split <;> simp <;> omega

/-- Everything a number-writing command can answer. -/
theorem withF32_cases (legal : F64 → Bool) (v : Val) (write : F64 → State) (s : State) :
    (∃ x, operandF32 v = some x ∧ legal x = true ∧ withF32 legal v write s = .next (write x)) ∨
      (acceptsF32 legal v = false ∧ withF32 legal v write s = .next s) := by
  unfold withF32 acceptsF32
  cases h : operandF32 v with
  | none => exact .inr ⟨rfl, rfl⟩
  | some x =>
    cases hl : legal x with
    | true => exact .inl ⟨x, rfl, hl, by simp [hl]⟩
    | false => exact .inr ⟨by simp [hl], by simp [hl]⟩

theorem withF32_some {legal : F64 → Bool} {v : Val} {x : F64} (h : operandF32 v = some x)
    (hl : legal x = true) (write : F64 → State) (s : State) :
    withF32 legal v write s = .next (write x) := by
  simp [withF32, h, hl]

/-- Everything a BOOL-operand command can answer. -/
theorem withBool_cases (v : Val) (write : Bool → State) (s : State) :
    (∃ b, operandBool v = some b ∧ withBool v write s = .next (write b)) ∨
      (operandBool v = none ∧ withBool v write s = .next s) := by
  unfold withBool
  cases h : operandBool v with
  | none => exact .inr ⟨rfl, rfl⟩
  | some b => exact .inl ⟨b, rfl, rfl⟩

/-- Everything a command with an index and a BOOL can answer. -/
theorem withIndexBool_cases (i : Idx) (v : Val) (write : Fin 16 → Bool → State) (s : State) :
    (∃ k b, operandIndex i = some k ∧ operandBool v = some b ∧
        withIndexBool i v write s = .next (write k b)) ∨
      (((operandIndex i).isSome && (operandBool v).isSome) = false ∧
        withIndexBool i v write s = .next s) := by
  unfold withIndexBool
  cases h : operandIndex i with
  | none => exact .inr ⟨rfl, rfl⟩
  | some k =>
    cases h2 : operandBool v with
    | none => exact .inr ⟨rfl, rfl⟩
    | some b => exact .inl ⟨k, b, rfl, rfl, rfl⟩

/-- Everything a command with an index and a NOTE can answer. -/
theorem withIndexNote_cases (i : Idx) (v : Val) (write : Fin 16 → Fin 128 → State) (s : State) :
    (∃ k n, operandIndex i = some k ∧ operandNote v = some n ∧
        withIndexNote i v write s = .next (write k n)) ∨
      (((operandIndex i).isSome && (operandNote v).isSome) = false ∧
        withIndexNote i v write s = .next s) := by
  unfold withIndexNote
  cases h : operandIndex i with
  | none => exact .inr ⟨rfl, rfl⟩
  | some k =>
    cases h2 : operandNote v with
    | none => exact .inr ⟨rfl, rfl⟩
    | some n => exact .inl ⟨k, n, rfl, rfl, rfl⟩

end Sys2Proof.Machine
end

