-- ==== Sys2Proof/Laws/PerInstr.lean ====
section
/-! SUPPORT. A fact of every command as syntax, one lemma per constructor: "`RSV` is sent as 0"
(30_encoding.md R100). -/

namespace Sys2Proof.Laws.SentReserved

/-- The reserved field of the word that is sent for the command is 0. -/
def Statement (i : Instr) : Prop := CmdWord.rsv (encode i) = 0#16

theorem freq (v : Val) : Statement (.freq v) := packWord_rsv _ _ _
theorem lfo (v : Val) : Statement (.lfo v) := packWord_rsv _ _ _
theorem depth (v : Val) : Statement (.depth v) := packWord_rsv _ _ _
theorem attack (v : Val) : Statement (.attack v) := packWord_rsv _ _ _
theorem decay (v : Val) : Statement (.decay v) := packWord_rsv _ _ _
theorem sustain (v : Val) : Statement (.sustain v) := packWord_rsv _ _ _
theorem susTime (v : Val) : Statement (.susTime v) := packWord_rsv _ _ _
theorem release (v : Val) : Statement (.release v) := packWord_rsv _ _ _
theorem trigger : Statement .trigger := packWord_rsv _ _ _
theorem seqGate (i : Idx) (v : Val) : Statement (.seqGate i v) := packWord_rsv _ _ _
theorem seqNote (i : Idx) (v : Val) : Statement (.seqNote i v) := packWord_rsv _ _ _
theorem seqOnOff (v : Val) : Statement (.seqOnOff v) := packWord_rsv _ _ _
theorem bpm (v : Val) : Statement (.bpm v) := packWord_rsv _ _ _
theorem seqResume : Statement .seqResume := packWord_rsv _ _ _
theorem seqSuspend : Statement .seqSuspend := packWord_rsv _ _ _
theorem seqReset : Statement .seqReset := packWord_rsv _ _ _

end Sys2Proof.Laws.SentReserved
end

