-- ==== Sys2Proof/Laws/Step.lean ====
section
/-! SUPPORT. Everything a tick, an event and a step can do, said once. -/

namespace Sys2Proof.Machine

/-- A tick does nothing, or advances one step and, on an active gate, triggers and retunes. -/
theorem seqTick_cases (noteFreq : Fin 128 → F64) (now : Int) (s : State) :
    (tickFires numF64 s.seq now = false ∧ seqTick noteFreq now s = s) ∨
      (tickFires numF64 s.seq now = true ∧ s.pat[nextStep s.seq.step].gate = false ∧
        seqTick noteFreq now s =
          s.setSeq { s.seq with step := nextStep s.seq.step, last := now }) ∨
      (tickFires numF64 s.seq now = true ∧ s.pat[nextStep s.seq.step].gate = true ∧
        seqTick noteFreq now s =
          (((s.setSeq { s.seq with step := nextStep s.seq.step, last := now }).setEg
            (envTrigger numF64 s.eg)).tuneVco (noteFreq s.pat[nextStep s.seq.step].note))) := by
  cases h : tickFires numF64 s.seq now with
  | false => exact .inl ⟨rfl, by simp [seqTick, h]⟩
  | true =>
    cases hg : s.pat[nextStep s.seq.step].gate with
    | false =>
      refine .inr (.inl ⟨rfl, rfl, ?_⟩)
      simp only [seqTick, h, if_true, seqCallback, State.setSeq_pat, hg, Bool.false_eq_true, if_false]
      rfl
    | true =>
      refine .inr (.inr ⟨rfl, rfl, ?_⟩)
      simp only [seqTick, h, if_true, seqCallback, State.setSeq_pat, hg]
      rfl

/-- What a tick does to the sequencer's own registers. -/
theorem seqTick_seq (noteFreq : Fin 128 → F64) (now : Int) (s : State) :
    (seqTick noteFreq now s).seq = seqAfter numF64 now s.seq := by
  unfold seqAfter
  rcases seqTick_cases noteFreq now s with ⟨h, e⟩ | ⟨h, -, e⟩ | ⟨h, -, e⟩ <;> rw [e, h] <;> rfl

/-- An event that is not enabled changes nothing; an enabled one happens. -/
theorem perform_cases (e : Event) (s : State) :
    (enabled s e = true ∧ perform e s = happen e s) ∨
      (enabled s e = false ∧ perform e s = .next s) := by
  unfold perform
  cases h : enabled s e with
  | true => exact .inl ⟨rfl, by simp⟩
  | false => exact .inr ⟨rfl, by simp⟩

theorem perform_enabled {e : Event} {s : State} (h : enabled s e = true) : perform e s = happen e s := by
  simp [perform, h]

@[simp] theorem perform_reset (s : State) : perform .reset s = .next (resetBlock s) := rfl

@[simp] theorem perform_cmd (w : CmdWord) (s : State) : perform (.cmd w) s = runCmd w s := rfl

@[simp] theorem perform_tick (now : Int) (s : State) :
    perform (.tick now) s = .next (seqTick Config.noteFreq now s) := rfl

@[simp] theorem perform_ready (s : State) : perform .ready s = .next (s.setVcoBlocked false) := rfl

@[simp] theorem perform_status (s : State) : perform .status s = .next (s.answer (statusWords s)) := rfl

/-! ## The three producers as writes -/

theorem produceLfo_eq (d : Option Nat) (s : State) : produceLfo d s =
    (((s.setCcLfo s.ccLfo.tail).setLfo (oscAfter numF64 s.lfo s.ccLfo.head?)).setCcFm
      (enqueue d s.ccFm (oscRender numF64 s.lfo s.ccLfo.head?))).setLfoBlocked true := by
  simp [produceLfo, ccWrite_fm]

theorem produceEg_eq (d : Option Nat) (s : State) : produceEg d s =
    ((s.setEg (envAfter numF64 bufferLen s.eg)).setCcAm
      (enqueue d s.ccAm (envRender numF64 s.eg))).setEgBlocked true := by
  simp [produceEg, ccWrite_am]

theorem produceVco_eq (acc : Bool) (s : State) : produceVco acc s =
    ((((s.setCcFm s.ccFm.tail).setCcAm s.ccAm.tail).setVco (oscAfter numF64 s.vco s.ccFm.head?)).emit
      (vcaProcess numF64 s.gain (oscRender numF64 s.vco s.ccFm.head?) s.ccAm.head?)).setVcoBlocked
        (!acc) := by
  simp [produceVco, vcoOutput]

/-- A step is the performance of one event on a state that differs only in what is still to come. -/
theorem step_cases (s : State) :
    (∃ e rest, s.pending = e :: rest ∧ step s = perform e (s.setPending rest)) ∨
      (s.pending = [] ∧ step s = perform (Config.freeEvent s.drawn) (s.setDrawn (s.drawn + 1))) := by
  unfold step nextEvent
  cases h : s.pending with
  | nil => exact .inr ⟨rfl, rfl⟩
  | cons e rest => exact .inl ⟨e, rest, rfl, rfl⟩

/-- Every command answers a next state, with or without an effect. -/
theorem exec_next (i : Instr) (s : State) : ∃ t, exec i s = .next t := by
  have hF : ∀ (l : F64 → Bool) (v : Val) (w : F64 → State), ∃ t, withF32 l v w s = .next t := by
    intro l v w
    rcases withF32_cases l v w s with ⟨x, -, -, h⟩ | ⟨-, h⟩
    · exact ⟨_, h⟩
    · exact ⟨_, h⟩
  cases i with
  | freq v => exact hF _ _ _
  | lfo v => exact hF _ _ _
  | depth v => exact hF _ _ _
  | attack v => exact hF _ _ _
  | decay v => exact hF _ _ _
  | sustain v => exact hF _ _ _
  | susTime v => exact hF _ _ _
  | release v => exact hF _ _ _
  | trigger => exact ⟨_, rfl⟩
  | seqGate k v =>
    rcases withIndexBool_cases k v (fun k b => setGate k b s) s with ⟨_, _, _, _, h⟩ | ⟨_, h⟩
    · exact ⟨_, h⟩
    · exact ⟨_, h⟩
  | seqNote k v =>
    rcases withIndexNote_cases k v (fun k n => s.setEntry k { s.pat[k] with note := n }) s with
      ⟨_, _, _, _, h⟩ | ⟨_, h⟩
    · exact ⟨_, h⟩
    · exact ⟨_, h⟩
  | seqOnOff v =>
    rcases withBool_cases v (fun b => if b then seqStart s else seqStop s) s with ⟨_, _, h⟩ | ⟨_, h⟩
    · exact ⟨_, h⟩
    · exact ⟨_, h⟩
  | bpm v => exact hF _ _ _
  | seqResume => exact ⟨_, rfl⟩
  | seqSuspend => exact ⟨_, rfl⟩
  | seqReset => exact ⟨_, rfl⟩

/-- Everything a command can do to the machine: nothing, or its one write. -/
inductive CommandEffect (s : State) : Instr → State → Prop where
  | ignored (i : Instr) : CommandEffect s i s
  | freq (v : Val) (x : F64) : operandF32 v = some x → legalFinite x = true →
      CommandEffect s (.freq v) ((s.setFreqReg x).tuneVco x)
  | lfo (v : Val) (x : F64) : operandF32 v = some x → legalFinite x = true →
      CommandEffect s (.lfo v) (s.setLfo { s.lfo with freq := x })
  | depth (v : Val) (x : F64) : operandF32 v = some x → legalFinite x = true →
      CommandEffect s (.depth v) (s.setVco { s.vco with depth := x })
  | attack (v : Val) (x : F64) : operandF32 v = some x → legalPositive x = true →
      CommandEffect s (.attack v) (s.setEg { s.eg with attackMs := x })
  | decay (v : Val) (x : F64) : operandF32 v = some x → legalPositive x = true →
      CommandEffect s (.decay v) (s.setEg { s.eg with decayMs := x })
  | sustain (v : Val) (x : F64) : operandF32 v = some x → legalUnit x = true →
      CommandEffect s (.sustain v) (s.setEg { s.eg with sustainLevel := x })
  | susTime (v : Val) (x : F64) : operandF32 v = some x → legalNonneg x = true →
      CommandEffect s (.susTime v) (s.setEg { s.eg with sustainMs := x })
  | release (v : Val) (x : F64) : operandF32 v = some x → legalPositive x = true →
      CommandEffect s (.release v) (s.setEg { s.eg with releaseMs := x })
  | trigger : CommandEffect s .trigger ((triggerEg s).tuneVco s.freqReg)
  | seqGate (k : Idx) (v : Val) (j : Fin 16) (b : Bool) : operandIndex k = some j →
      operandBool v = some b →
      CommandEffect s (.seqGate k v) (s.setEntry j { s.pat[j] with gate := b })
  | seqNote (k : Idx) (v : Val) (j : Fin 16) (n : Fin 128) : operandIndex k = some j →
      operandNote v = some n →
      CommandEffect s (.seqNote k v) (s.setEntry j { s.pat[j] with note := n })
  | seqOnOff (v : Val) (b : Bool) : operandBool v = some b →
      CommandEffect s (.seqOnOff v) (s.setSeq { s.seq with step := 0, running := b })
  | bpm (v : Val) (x : F64) : operandF32 v = some x → legalPositive x = true →
      CommandEffect s (.bpm v) (s.setSeq { s.seq with bpm := x })
  | seqResume : CommandEffect s .seqResume (s.setSeq { s.seq with running := true })
  | seqSuspend : CommandEffect s .seqSuspend (s.setSeq { s.seq with running := false })
  | seqReset : CommandEffect s .seqReset (s.setSeq { s.seq with step := 0 })

/-- A command that answers a next state has one of those effects. -/
theorem exec_cases (i : Instr) (s t : State) (h : exec i s = .next t) : CommandEffect s i t := by
  have hF : ∀ {l : F64 → Bool} {v : Val} {w : F64 → State}, withF32 l v w s = .next t →
      t = s ∨ ∃ x, operandF32 v = some x ∧ l x = true ∧ t = w x := by
    intro l v w hw
    rcases withF32_cases l v w s with ⟨x, h1, h2, h3⟩ | ⟨-, h3⟩
    · exact .inr ⟨x, h1, h2, (Outcome_next_inj.1 (h3.symm.trans hw)).symm⟩
    · exact .inl (Outcome_next_inj.1 (h3.symm.trans hw)).symm
  cases i with
  | freq v => rcases hF h with rfl | ⟨x, h1, h2, rfl⟩; exacts [.ignored _, .freq v x h1 h2]
  | lfo v => rcases hF h with rfl | ⟨x, h1, h2, rfl⟩; exacts [.ignored _, .lfo v x h1 h2]
  | depth v => rcases hF h with rfl | ⟨x, h1, h2, rfl⟩; exacts [.ignored _, .depth v x h1 h2]
  | attack v => rcases hF h with rfl | ⟨x, h1, h2, rfl⟩; exacts [.ignored _, .attack v x h1 h2]
  | decay v => rcases hF h with rfl | ⟨x, h1, h2, rfl⟩; exacts [.ignored _, .decay v x h1 h2]
  | sustain v => rcases hF h with rfl | ⟨x, h1, h2, rfl⟩; exacts [.ignored _, .sustain v x h1 h2]
  | susTime v => rcases hF h with rfl | ⟨x, h1, h2, rfl⟩; exacts [.ignored _, .susTime v x h1 h2]
  | release v => rcases hF h with rfl | ⟨x, h1, h2, rfl⟩; exacts [.ignored _, .release v x h1 h2]
  | trigger => rw [← Outcome_next_inj.1 h]; exact .trigger
  | seqGate k v =>
    rcases withIndexBool_cases k v (fun k b => setGate k b s) s with ⟨j, b, h1, h2, h3⟩ | ⟨_, h3⟩
    · rw [← Outcome_next_inj.1 (h3.symm.trans h)]; exact .seqGate k v j b h1 h2
    · rw [← Outcome_next_inj.1 (h3.symm.trans h)]; exact .ignored _
  | seqNote k v =>
    rcases withIndexNote_cases k v (fun k n => s.setEntry k { s.pat[k] with note := n }) s with
      ⟨j, n, h1, h2, h3⟩ | ⟨_, h3⟩
    · rw [← Outcome_next_inj.1 (h3.symm.trans h)]; exact .seqNote k v j n h1 h2
    · rw [← Outcome_next_inj.1 (h3.symm.trans h)]; exact .ignored _
  | seqOnOff v =>
    rcases withBool_cases v (fun b => if b then seqStart s else seqStop s) s with ⟨b, h1, h3⟩ | ⟨_, h3⟩
    · rw [← Outcome_next_inj.1 (h3.symm.trans h)]
      have e : (if b = true then seqStart s else seqStop s) =
          s.setSeq { s.seq with step := 0, running := b } := by cases b <;> rfl
      rw [e]; exact .seqOnOff v b h1
    · rw [← Outcome_next_inj.1 (h3.symm.trans h)]; exact .ignored _
  | bpm v => rcases hF h with rfl | ⟨x, h1, h2, rfl⟩; exacts [.ignored _, .bpm v x h1 h2]
  | seqResume => rw [← Outcome_next_inj.1 h]; exact .seqResume
  | seqSuspend => rw [← Outcome_next_inj.1 h]; exact .seqSuspend
  | seqReset => rw [← Outcome_next_inj.1 h]; exact .seqReset

/-- What `CMD(w)` does: its command, or nothing. -/
theorem runCmd_cases (w : CmdWord) (s : State) :
    (∃ i, decodeWord w = .ok i ∧ runCmd w s = exec i s) ∨
      (∃ r, decodeWord w = .error r ∧ runCmd w s = .next s) := by
  unfold runCmd
  cases h : decodeWord w with
  | ok i => exact .inl ⟨i, rfl, rfl⟩
  | error r => exact .inr ⟨r, rfl, rfl⟩

/-- The invariant of a step follows from that of each event and of what is still to come. -/
theorem step_preserves (P : State → Prop) (hp : ∀ s l, P s → P (s.setPending l))
    (hd : ∀ s n, P s → P (s.setDrawn n))
    (he : ∀ e s t, P s → happen e s = .next t → P t) :
    ∀ s t, P s → step s = .next t → P t := by
  have hperf : ∀ e s t, P s → perform e s = .next t → P t := by
    intro e s t hs h
    rcases perform_cases e s with ⟨-, h2⟩ | ⟨-, h2⟩
    · exact he e s t hs (h2.symm.trans h)
    · rw [← Outcome_next_inj.1 (h2.symm.trans h)]; exact hs
  intro s t hs h
  rcases step_cases s with ⟨e, rest, -, h2⟩ | ⟨-, h2⟩
  · exact hperf _ _ t (hp s rest hs) (h2.symm.trans h)
  · exact hperf _ _ t (hd s _ hs) (h2.symm.trans h)

end Sys2Proof.Machine
end

