-- ==== Sys2Proof/Laws/Runs.lean ====
section
/-! SUPPORT. Runs: the step machine admits every behaviour (00_scope.md R9), and what weak fairness gives,
that production never ends (70_reset_and_hazards.md R261, R276). -/

namespace Sys2Proof.Machine

/-! ## What is still presented does not matter to an event -/

/-- A command does the same whatever is still presented. -/
theorem exec_setPending (i : Instr) (s t : State) (l : List Event) (h : exec i s = .next t) :
    exec i (s.setPending l) = .next (t.setPending l) := by
  have hF : ∀ {f : F64 → Bool} {v : Val} {w w' : F64 → State},
      (∀ x, w' x = (w x).setPending l) → withF32 f v w s = .next t →
        withF32 f v w' (s.setPending l) = .next (t.setPending l) := by
    intro f v w w' hw h
    unfold withF32 at h ⊢
    cases hv : operandF32 v with
    | none =>
      rw [hv] at h
      rw [← Outcome_next_inj.1 h]; rfl
    | some x =>
      rw [hv] at h
      cases hx : f x with
      | true =>
        simp only [hx, if_true] at h ⊢
        rw [hw, Outcome_next_inj.1 h]
      | false =>
        simp only [hx, Bool.false_eq_true, if_false] at h ⊢
        rw [← Outcome_next_inj.1 h]; rfl
  cases i with
  | freq v => exact hF (fun _ => rfl) h
  | lfo v => exact hF (fun _ => rfl) h
  | depth v => exact hF (fun _ => rfl) h
  | attack v => exact hF (fun _ => rfl) h
  | decay v => exact hF (fun _ => rfl) h
  | sustain v => exact hF (fun _ => rfl) h
  | susTime v => exact hF (fun _ => rfl) h
  | release v => exact hF (fun _ => rfl) h
  | bpm v => exact hF (fun _ => rfl) h
  | trigger => rw [← Outcome_next_inj.1 h]; rfl
  | seqResume => rw [← Outcome_next_inj.1 h]; rfl
  | seqSuspend => rw [← Outcome_next_inj.1 h]; rfl
  | seqReset => rw [← Outcome_next_inj.1 h]; rfl
  | seqGate k v =>
    simp only [exec, execSeqGate, withIndexBool] at h ⊢
    split at h <;> rw [← Outcome_next_inj.1 h] <;> rfl
  | seqNote k v =>
    simp only [exec, execSeqNote, withIndexNote] at h ⊢
    split at h <;> rw [← Outcome_next_inj.1 h] <;> rfl
  | seqOnOff v =>
    simp only [exec, execSeqOnOff, withBool] at h ⊢
    split at h
    · rw [← Outcome_next_inj.1 h]; rfl
    · next b _ => rw [← Outcome_next_inj.1 h]; cases b <;> rfl

theorem seqTick_setPending (noteFreq : Fin 128 → F64) (now : Int) (s : State) (l : List Event) :
    seqTick noteFreq now (s.setPending l) = (seqTick noteFreq now s).setPending l := by
  rcases seqTick_cases noteFreq now s with ⟨h, e⟩ | ⟨h, hg, e⟩ | ⟨h, hg, e⟩ <;> rw [e]
  · simp [seqTick, h]
  · simp only [seqTick, State.setPending_seq, h, if_true, seqCallback, State.setSeq_pat,
      State.setPending_pat, hg, Bool.false_eq_true, if_false]
    rfl
  · simp only [seqTick, State.setPending_seq, h, if_true, seqCallback, State.setSeq_pat,
      State.setPending_pat, hg]
    rfl

/-- An event does the same whatever is still presented. -/
theorem perform_setPending (e : Event) (s t : State) (l : List Event) (h : perform e s = .next t) :
    perform e (s.setPending l) = .next (t.setPending l) := by
  have he : enabled (s.setPending l) e = enabled s e := by cases e <;> rfl
  rcases perform_cases e s with ⟨h1, h2⟩ | ⟨h1, h2⟩
  · rw [perform_enabled (he.trans h1)]
    rw [h2] at h
    cases e with
    | cmd w =>
      rcases runCmd_cases w s with ⟨i, hi, h3⟩ | ⟨r, hr, h3⟩
      · have := exec_setPending i s t l (h3.symm.trans h)
        rw [← this]; simp [happen, runCmd, hi]
      · rw [← Outcome_next_inj.1 (h3.symm.trans h)]; simp [happen, runCmd, hr, ignore]
    | tick now => rw [← Outcome_next_inj.1 h]; simp [happen, seqTick_setPending]
    | reset => rw [← Outcome_next_inj.1 h]; rfl
    | produceLfo => rw [← Outcome_next_inj.1 h, produceLfo_eq, happen, produceLfo_eq]; rfl
    | produceEg =>
      rw [← Outcome_next_inj.1 h, produceEg_eq, happen, produceEg_eq]
      simp only [State.setPending_eg, State.setPending_ccAm]
      generalize envAfter numF64 bufferLen s.eg = e
      rfl
    | produceVco acc => rw [← Outcome_next_inj.1 h, produceVco_eq, happen, produceVco_eq]; rfl
    | paceLfo => rw [← Outcome_next_inj.1 h]; rfl
    | paceEg => rw [← Outcome_next_inj.1 h]; rfl
    | ready => rw [← Outcome_next_inj.1 h]; rfl
    | status => rw [← Outcome_next_inj.1 h]; rfl
  · rw [← Outcome_next_inj.1 (h2.symm.trans h)]
    simp [perform, he, h1, ignore]

/-- "A model must therefore admit every interleaving of enabled events" (00_scope.md R9): the step machine
reaches every state of every behaviour, with any events still presented. -/
theorem IsBehaviour.reachable {ev : Nat → Event} {st : Nat → State} (h : IsBehaviour ev st) :
    ∀ n l, Reachable ((st n).setPending l) := by
  intro n
  induction n with
  | zero => intro l; rw [h.start]; exact .reset l
  | succ n ih =>
    intro l
    have hp : perform (ev n) ((st n).setPending l) = .next ((st (n + 1)).setPending l) :=
      perform_setPending _ _ _ l (h.isNext n)
    exact .step _ _ (ih (ev n :: l)) hp

/-! ## Who sets the blocked flags (10_state.md R31) -/

/-- A command leaves the blocked flags. -/
theorem runCmd_blocked {w : CmdWord} {s t : State} (h : runCmd w s = .next t) :
    t.lfoBlocked = s.lfoBlocked ∧ t.egBlocked = s.egBlocked ∧ t.vcoBlocked = s.vcoBlocked := by
  rcases runCmd_cases w s with ⟨i, -, h2⟩ | ⟨r, -, h2⟩
  · cases exec_cases i s t (h2.symm.trans h) <;> exact ⟨rfl, rfl, rfl⟩
  · rw [← Outcome_next_inj.1 (h2.symm.trans h)]; exact ⟨rfl, rfl, rfl⟩

theorem seqTick_blocked (noteFreq : Fin 128 → F64) (now : Int) (s : State) :
    (seqTick noteFreq now s).lfoBlocked = s.lfoBlocked ∧
      (seqTick noteFreq now s).egBlocked = s.egBlocked ∧
      (seqTick noteFreq now s).vcoBlocked = s.vcoBlocked := by
  rcases seqTick_cases noteFreq now s with ⟨-, e⟩ | ⟨-, -, e⟩ | ⟨-, -, e⟩ <;> rw [e] <;>
    exact ⟨rfl, rfl, rfl⟩

/-- A blocked flag becomes true only by its node's `PRODUCE`. -/
theorem perform_blocks (e : Event) (s t : State) (h : perform e s = .next t) :
    (t.lfoBlocked = true → s.lfoBlocked = true ∨ e = .produceLfo) ∧
      (t.egBlocked = true → s.egBlocked = true ∨ e = .produceEg) ∧
      (t.vcoBlocked = true → s.vcoBlocked = true ∨ IsProduceVco e) := by
  rcases perform_cases e s with ⟨-, h2⟩ | ⟨-, h2⟩
  · rw [h2] at h
    cases e with
    | cmd w => obtain ⟨a, b, c⟩ := runCmd_blocked h; rw [a, b, c]; exact ⟨.inl, .inl, .inl⟩
    | tick now =>
      obtain ⟨a, b, c⟩ := seqTick_blocked Config.noteFreq now s
      rw [← Outcome_next_inj.1 h, a, b, c]; exact ⟨.inl, .inl, .inl⟩
    | reset => rw [← Outcome_next_inj.1 h]; exact ⟨nofun, nofun, nofun⟩
    | produceLfo =>
      rw [← Outcome_next_inj.1 h, produceLfo_eq]; exact ⟨fun _ => .inr rfl, .inl, .inl⟩
    | produceEg =>
      rw [← Outcome_next_inj.1 h, produceEg_eq]
      generalize envAfter numF64 bufferLen s.eg = e
      exact ⟨.inl, fun _ => .inr rfl, .inl⟩
    | produceVco acc =>
      rw [← Outcome_next_inj.1 h, produceVco_eq]; exact ⟨.inl, .inl, fun _ => .inr ⟨acc, rfl⟩⟩
    | paceLfo => rw [← Outcome_next_inj.1 h]; exact ⟨nofun, .inl, .inl⟩
    | paceEg => rw [← Outcome_next_inj.1 h]; exact ⟨.inl, nofun, .inl⟩
    | ready => rw [← Outcome_next_inj.1 h]; exact ⟨.inl, .inl, nofun⟩
    | status => rw [← Outcome_next_inj.1 h]; exact ⟨.inl, .inl, .inl⟩
  · rw [← Outcome_next_inj.1 (h2.symm.trans h)]; exact ⟨.inl, .inl, .inl⟩

/-! ## Production never ends (70_reset_and_hazards.md R261, R276) -/

/-- What keeps a producer going: its flag `b` becomes true only by an event of `P`, from any point on it
is false again at some time, and the run is fair to `P`, which is enabled while `b` is false. -/
theorem happens_again {ev : Nat → Event} {st : Nat → State} {P : Event → Prop} {b : State → Bool}
    (hset : ∀ n, b (st (n + 1)) = true → b (st n) = true ∨ P (ev n))
    (hclear : ∀ n, ∃ m, n ≤ m ∧ b (st m) = false)
    (hen : ∀ s, b s = false → ∃ e, P e ∧ enabled s e = true) (hfair : WeaklyFairTo P ev st) :
    ∀ n, ∃ m, n ≤ m ∧ P (ev m) := by
  intro n
  by_contra hno
  obtain ⟨k, hk, h0⟩ := hclear n
  have hstay : ∀ m, k ≤ m → b (st m) = false := by
    intro m hm
    induction m, hm using Nat.le_induction with
    | base => exact h0
    | succ m hm ih =>
      by_contra hb
      rcases hset m (Bool.not_eq_false _ ▸ hb) with h | h
      · rw [ih] at h; cases h
      · exact hno ⟨m, by omega, h⟩
  obtain ⟨m, hm, hP⟩ := hfair k fun m hm => hen _ (hstay m hm)
  exact hno ⟨m, by omega, hP⟩

/-- A flag that one event clears, and that event is fair while the flag is set, is clear again at some
time. -/
theorem clears_again {ev : Nat → Event} {st : Nat → State} {e : Event} {b : State → Bool}
    (hrun : ∀ n, ev n = e → b (st (n + 1)) = false) (hen : ∀ s, b s = true → enabled s e = true)
    (hfair : WeaklyFairTo (· = e) ev st) : ∀ n, ∃ m, n ≤ m ∧ b (st m) = false := by
  intro n
  by_contra hno
  have hb : ∀ m, n ≤ m → b (st m) = true := fun m hm => by
    by_contra h
    exact hno ⟨m, hm, Bool.not_eq_true _ ▸ h⟩
  obtain ⟨m, hm, he⟩ := hfair n fun m hm => ⟨e, rfl, hen _ (hb m hm)⟩
  exact hno ⟨m + 1, by omega, hrun m he⟩

section
variable {ev : Nat → Event} {st : Nat → State} (h : IsRun ev st) (hf : WeaklyFair ev st)
include h

/-- What an event of a run leaves. -/
theorem IsRun.happen_next (n : Nat) : happen (ev n) (st n) = .next (st (n + 1)) := by
  rw [← perform_enabled (h.isEnabled n), h.isNext n]

include hf

/-- In a weakly fair run the LFO produces for ever. -/
theorem fair_produceLfo : ∀ n, ∃ m, n ≤ m ∧ ev m = .produceLfo :=
  happens_again (P := (· = .produceLfo)) (b := State.lfoBlocked)
    (fun n => (perform_blocks _ _ _ (h.isNext n)).1)
    (clears_again (e := .paceLfo)
      (fun n he => by
        have := h.happen_next n
        rw [he] at this
        rw [← Outcome_next_inj.1 this]
        rfl)
      (fun _ hb => hb) hf.paceLfo)
    (fun s hb => ⟨_, rfl, by simp [enabled, hb]⟩) hf.produceLfo

/-- In a weakly fair run the envelope generator produces for ever. -/
theorem fair_produceEg : ∀ n, ∃ m, n ≤ m ∧ ev m = .produceEg :=
  happens_again (P := (· = .produceEg)) (b := State.egBlocked)
    (fun n => (perform_blocks _ _ _ (h.isNext n)).2.1)
    (clears_again (e := .paceEg)
      (fun n he => by
        have := h.happen_next n
        rw [he] at this
        rw [← Outcome_next_inj.1 this]
        rfl)
      (fun _ hb => hb) hf.paceEg)
    (fun s hb => ⟨_, rfl, by simp [enabled, hb]⟩) hf.produceEg

/-- In a weakly fair run whose consumer keeps its duty the VCO produces, and so emits, for ever. -/
theorem fair_produceVco (hc : ConsumerReady ev st) : ∀ n, ∃ m, n ≤ m ∧ IsProduceVco (ev m) := by
  refine happens_again (b := State.vcoBlocked) (fun n => (perform_blocks _ _ _ (h.isNext n)).2.2)
    (fun n => ?_) (fun s hb => ⟨_, ⟨true, rfl⟩, by simp [enabled, hb]⟩) hf.produceVco
  by_cases hb : (st n).vcoBlocked = true
  · obtain ⟨m, hm, he⟩ := hc n hb
    refine ⟨m + 1, by omega, ?_⟩
    have := h.happen_next m
    rcases he with he | he <;> rw [he] at this <;> rw [← Outcome_next_inj.1 this] <;> rfl
  · exact ⟨n, Nat.le_refl n, Bool.not_eq_true _ ▸ hb⟩

end

/-! ## A behaviour that is fair -/

/-- Each producer in turn, unblocked again before the next. -/
def roundRobin (n : Nat) : Event :=
  match n % 6 with
  | 0 => .produceLfo
  | 1 => .paceLfo
  | 2 => .produceEg
  | 3 => .paceEg
  | 4 => .produceVco false
  | _ => .ready

/-- The state after an event, which is always a next state. -/
def stateAfter (e : Event) (s : State) : State :=
  match perform e s with
  | .next t => t
  | _ => s

/-- The states of that behaviour. -/
def roundRobinState : Nat → State
  | 0 => State.reset
  | n + 1 => stateAfter (roundRobin n) (roundRobinState n)

/-- A round, from a state with no producer blocked: every event of it is enabled, and it ends as it began. -/
theorem roundRobin_flags (n : Nat) :
    (roundRobinState n).lfoBlocked = (n % 6 == 1) ∧ (roundRobinState n).egBlocked = (n % 6 == 3) ∧
      (roundRobinState n).vcoBlocked = (n % 6 == 5) := by
  induction n with
  | zero => exact ⟨rfl, rfl, rfl⟩
  | succ n ih =>
    obtain ⟨a, b, c⟩ := ih
    have hn : n % 6 = 0 ∨ n % 6 = 1 ∨ n % 6 = 2 ∨ n % 6 = 3 ∨ n % 6 = 4 ∨ n % 6 = 5 := by omega
    rcases hn with h | h | h | h | h | h
    all_goals
      have h' : (n + 1) % 6 = (n % 6 + 1) % 6 := by omega
      simp only [h] at a b c
      simp [roundRobinState, roundRobin, stateAfter, perform, enabled, happen, h, h', a, b, c,
        produceLfo_eq, produceEg_eq, produceVco_eq]

theorem roundRobin_run : IsBehaviour roundRobin roundRobinState := by
  have hen : ∀ n, enabled (roundRobinState n) (roundRobin n) = true := by
    intro n
    obtain ⟨a, b, c⟩ := roundRobin_flags n
    have hn : n % 6 = 0 ∨ n % 6 = 1 ∨ n % 6 = 2 ∨ n % 6 = 3 ∨ n % 6 = 4 ∨ n % 6 = 5 := by omega
    rcases hn with h | h | h | h | h | h <;> simp [roundRobin, enabled, h, a, b, c]
  refine ⟨⟨hen, fun n => ?_⟩, rfl⟩
  have hn : n % 6 = 0 ∨ n % 6 = 1 ∨ n % 6 = 2 ∨ n % 6 = 3 ∨ n % 6 = 4 ∨ n % 6 = 5 := by omega
  show _ = Host.Outcome.next (stateAfter (roundRobin n) (roundRobinState n))
  rw [stateAfter, perform_enabled (hen n)]
  rcases hn with h | h | h | h | h | h <;> simp [roundRobin, happen, h]

/-- Every round holds every scheduled event. -/
theorem roundRobin_again (k : Nat) (hk : k < 6) (n : Nat) : ∃ m, n ≤ m ∧ roundRobin m = roundRobin k :=
  ⟨6 * n + k, by omega, by simp only [roundRobin]; rw [show (6 * n + k) % 6 = k % 6 by omega]⟩

theorem roundRobin_fair : WeaklyFair roundRobin roundRobinState where
  produceLfo n _ := roundRobin_again 0 (by omega) n
  paceLfo n _ := roundRobin_again 1 (by omega) n
  produceEg n _ := roundRobin_again 2 (by omega) n
  paceEg n _ := roundRobin_again 3 (by omega) n
  produceVco n _ := by
    obtain ⟨m, hm, h⟩ := roundRobin_again 4 (by omega) n
    exact ⟨m, hm, false, h⟩

theorem roundRobin_consumer : ConsumerReady roundRobin roundRobinState := fun n _ => by
  obtain ⟨m, hm, h⟩ := roundRobin_again 5 (by omega) n
  exact ⟨m, hm, .inl h⟩

end Sys2Proof.Machine
end

