-- ==== Sys2Proof/Tests/Slice0.lean ====
section
/-! SUPPORT. Small tests against the words and vectors of spec/ (30_encoding.md R100, 95_test_vectors.md),
and for each obligation with hypotheses a concrete input that meets them all. -/

namespace Sys2Proof.Tests

open Sys2Proof.Machine

-- Many small kernel evaluations: one after another, so that they do not wait in as many threads.
set_option Elab.async false

/-! ## Helpers -/

/-- The state an event leads to. -/
def after (e : Event) (s : State) : State :=
  match perform e s with
  | .next t => t
  | _ => s

/-- The state a command word leads to from reset. -/
def afterWord (w : CmdWord) : State := after (.cmd w) State.reset

/-- A finite binary64 number from its bit pattern, for patterns with the sign bit clear. -/
def pos64 (code : Nat) : F64 := F64.ofCode false code

/-- Whether the outcome is a next state. -/
def isNext : Result → Bool
  | .next _ => true
  | _ => false

/-- Whether a word leaves every register that `STATUS` shows as it is at reset. -/
def noEffect (w : CmdWord) : Bool :=
  decide ((statusWords (afterWord w)).toList = (statusWords State.reset).toList)

/-- The sequencer of reset, running. -/
def running : State := State.reset.setSeq { State.reset.seq with running := true }

/-- A state with the three producers blocked. -/
def blocked : State := ((State.reset.setLfoBlocked true).setEgBlocked true).setVcoBlocked true

/-- A state with one `READY` presented, so that the next step is known. -/
def presented : State := running.setPending [.ready]

/-! ## Well-formed operands (30_encoding.md R94, R95): one ill-formed command for each check -/

theorem test_f32_infinity_ill : (Instr.freq 0x7F800000#32).wellFormed = false := by decide
theorem test_bool_two_ill : (Instr.seqGate 3#8 2#32).wellFormed = false := by decide
theorem test_note_128_ill : (Instr.seqNote 3#8 128#32).wellFormed = false := by decide
theorem test_index_16_ill : (Instr.seqGate 16#8 1#32).wellFormed = false := by decide
theorem test_largest_finite_well : (Instr.decay 0x7F7FFFFF#32).wellFormed = true := by decide

/-! ## Decoding: the words of the table of 30_encoding.md R100, one per constructor -/

theorem test_decode_freq : decodeWord 0x0100000043DC0000#64 = .ok (.freq 0x43DC0000#32) := by decide
theorem test_decode_lfo : decodeWord 0x0200000040200000#64 = .ok (.lfo 0x40200000#32) := by decide
theorem test_decode_depth : decodeWord 0x0300000042C80000#64 = .ok (.depth 0x42C80000#32) := by decide
theorem test_decode_attack : decodeWord 0x0400000041200000#64 = .ok (.attack 0x41200000#32) := by decide
theorem test_decode_decay : decodeWord 0x0500000042C80000#64 = .ok (.decay 0x42C80000#32) := by decide
theorem test_decode_sustain : decodeWord 0x060000003F000000#64 = .ok (.sustain 0x3F000000#32) := by decide
theorem test_decode_susTime : decodeWord 0x0700000042C80000#64 = .ok (.susTime 0x42C80000#32) := by decide
theorem test_decode_release : decodeWord 0x0800000042C80000#64 = .ok (.release 0x42C80000#32) := by decide
theorem test_decode_trigger : decodeWord 0x0900000000000000#64 = .ok .trigger := by decide
theorem test_decode_seqGate : decodeWord 0x0A00000300000001#64 = .ok (.seqGate 3#8 1#32) := by decide
theorem test_decode_seqNote : decodeWord 0x0B00000300000045#64 = .ok (.seqNote 3#8 0x45#32) := by decide
theorem test_decode_seqOnOff : decodeWord 0x0C00000000000001#64 = .ok (.seqOnOff 1#32) := by decide
theorem test_decode_bpm : decodeWord 0x0D00000042F00000#64 = .ok (.bpm 0x42F00000#32) := by decide
theorem test_decode_seqResume : decodeWord 0x1000000000000000#64 = .ok .seqResume := by decide
theorem test_decode_seqSuspend : decodeWord 0x1100000000000000#64 = .ok .seqSuspend := by decide
theorem test_decode_seqReset : decodeWord 0x1200000000000000#64 = .ok .seqReset := by decide

/-- V-ENC-2: "`RSV` all ones: ignored". -/
theorem test_decode_rsv_ignored : decodeWord 0x01FFFF0043DC0000#64 = .ok (.freq 0x43DC0000#32) := by decide

/-- V-ENC-38 to V-ENC-42: the edges of the unassigned opcodes. -/
theorem test_decode_00 : decodeWord 0x0000000000000000#64 = .error (.unassigned 0x00#8) := by decide
theorem test_decode_0E : decodeWord 0x0E00000043DC0000#64 = .error (.unassigned 0x0E#8) := by decide
theorem test_decode_0F : decodeWord 0x0F00000000000001#64 = .error (.unassigned 0x0F#8) := by decide
theorem test_decode_13 : decodeWord 0x1300000000000000#64 = .error (.unassigned 0x13#8) := by decide
theorem test_decode_FF : decodeWord 0xFF00000000000000#64 = .error (.unassigned 0xFF#8) := by decide

/-- "is sent as the bytes `00 00 DC 43 00 00 00 01`" (95_test_vectors.md section 2). -/
theorem test_word_bytes : wordBytes (encode (.freq 0x43DC0000#32)) =
    [0x00#8, 0x00#8, 0xDC#8, 0x43#8, 0x00#8, 0x00#8, 0x00#8, 0x01#8] := by decide

theorem test_table_word : decodeTableWord 64 0x0A00000F00000001 = some (.seqGate 15#8 1#32) := by decide

/-- A table word runs as the first event after reset. -/
theorem test_step_runs_word : isNext (step (State.reset.withFetchWord 64 0x0400000041200000)) = true := by
  decide +kernel

/-! ## Commands, from reset (95_test_vectors.md section 2) -/

/-- V-ENC-1: "`FREQ = VCO.freq = 440`", here from another frequency. -/
theorem test_freq_writes_both : (after (.cmd 0x01000000462C4400#64) State.reset).freqReg = F64.ofInt 11025 ∧
    (after (.cmd 0x01000000462C4400#64) State.reset).vco.freq = F64.ofInt 11025 := by decide +kernel

/-- V-ENC-4 and V-ENC-5: a malformed operand changes nothing. -/
theorem test_freq_malformed : noEffect 0x010000007F800000#64 = true ∧
    noEffect 0x010000007FC00000#64 = true := by decide +kernel

/-- V-ENC-9. -/
theorem test_lfo : (afterWord 0x02000000462C4400#64).lfo.freq = F64.ofInt 11025 := by decide +kernel

/-- V-ENC-10. -/
theorem test_depth_negative : (afterWord 0x03000000BF800000#64).vco.depth = F64.ofInt (-1) := by
  decide +kernel

/-- V-ENC-11 and V-ENC-12. -/
theorem test_attack_illegal : noEffect 0x0400000000000000#64 = true ∧
    noEffect 0x04000000BF800000#64 = true := by decide +kernel

/-- V-ENC-13: the smallest subnormal, `2 ^ -149`, is `0x36A0000000000000` in binary64. -/
theorem test_attack_subnormal : (afterWord 0x0400000000000001#64).eg.attackMs = pos64 0x36A0000000000000 := by
  decide +kernel

/-- V-ENC-14: the largest finite binary32 is `0x47EFFFFFE0000000` in binary64. -/
theorem test_decay_largest : (afterWord 0x050000007F7FFFFF#64).eg.decayMs = pos64 0x47EFFFFFE0000000 := by
  decide +kernel

/-- V-ENC-15 and V-ENC-16: the bounds of the sustain level. -/
theorem test_sustain_bounds : (afterWord 0x060000003F800000#64).eg.sustainLevel = F64.ofInt 1 ∧
    (afterWord 0x0600000000000000#64).eg.sustainLevel = F64.ofInt 0 := by decide +kernel

/-- V-ENC-18 and V-ENC-19: just outside. -/
theorem test_sustain_illegal : noEffect 0x060000003F800001#64 = true ∧
    noEffect 0x06000000BF000000#64 = true := by decide +kernel

/-- V-ENC-20 and V-ENC-21. -/
theorem test_susTime : (afterWord 0x0700000000000000#64).eg.sustainMs = F64.ofInt 0 ∧
    noEffect 0x07000000BF800000#64 = true := by decide +kernel

/-- V-ENC-22, and a legal release. -/
theorem test_release : noEffect 0x0800000000000000#64 = true ∧
    (afterWord 0x0800000040000000#64).eg.releaseMs = F64.ofInt 2 := by decide +kernel

/-- V-ENC-23 and V-EG-6: from release, with a counter and a retuned VCO. -/
theorem test_trigger :
    let s := (State.reset.setEg { State.reset.eg with st := .release, value := F64.ofInt 1, cnt := 17 }).tuneVco
      (F64.ofInt 220)
    (after (.cmd 0x09ABCDEF12345678#64) s).eg = { State.reset.eg with st := .attack } ∧
      (after (.cmd 0x09ABCDEF12345678#64) s).vco.freq = F64.ofInt 440 := by decide +kernel

/-- V-ENC-24: the last entry, its note kept. -/
theorem test_seqGate_last : (afterWord 0x0A00000F00000001#64).pat[15] = { gate := true, note := 69 } := by
  decide +kernel

/-- V-ENC-25 to V-ENC-27. -/
theorem test_seqGate_malformed : noEffect 0x0A00001000000001#64 = true ∧
    noEffect 0x0A00000300000002#64 = true ∧
    noEffect 0x0A0000033F800000#64 = true := by decide +kernel

/-- V-ENC-28. -/
theorem test_seqNote : (afterWord 0x0B0000030000007F#64).pat[3] = { gate := false, note := 127 } := by
  decide +kernel

/-- V-ENC-29 and V-ENC-30. -/
theorem test_seqNote_malformed : noEffect 0x0B00000300000080#64 = true ∧
    noEffect 0x0B0000FF00000000#64 = true := by decide +kernel

/-- V-SEQ-7: "`SEQONOFF true` while running with `step = 9`: `step = 0`, still running". -/
theorem test_seqOnOff_rewinds :
    (after (.cmd 0x0C00000000000001#64) (running.setSeq { running.seq with step := 9, last := 351 })).seq =
      { running.seq with step := 0, last := 351 } := by decide +kernel

/-- V-ENC-31 and V-ENC-32. -/
theorem test_seqOnOff : (afterWord 0x0C00000000000001#64).seq.running = true ∧
    noEffect 0x0C00000000000002#64 = true := by decide +kernel

/-- V-ENC-33 and V-ENC-34. -/
theorem test_bpm : noEffect 0x0D00000000000000#64 = true ∧
    (afterWord 0x0D00000043020000#64).seq.bpm = F64.ofInt 130 := by decide +kernel

/-- V-SEQ-7: suspend and resume keep the step. -/
theorem test_suspend_resume : let s := running.setSeq { running.seq with step := 5, last := 300 }
    (after (.cmd 0x1100000000000000#64) s).seq = { s.seq with running := false } ∧
      (after (.cmd 0x1000001212345678#64) (after (.cmd 0x1100000000000000#64) s)).seq = s.seq := by
  decide +kernel

/-- V-SEQ-7: `SEQ_RESET` keeps `running` and `last`. -/
theorem test_seqReset : let s := running.setSeq { running.seq with step := 6, last := 351 }
    (after (.cmd 0x1200000000000000#64) s).seq = { s.seq with step := 0 } := by decide +kernel

/-! ## The sequencer (95_test_vectors.md section 8) -/

/-- V-SEQ-1: 49 ms do nothing, 50 ms fire onto step 1. -/
theorem test_tick_first : (after (.tick 49) running).seq = running.seq ∧
    (after (.tick 50) running).seq = { running.seq with step := 1, last := 50 } := by decide +kernel

/-- V-SEQ-2: step 15 wraps to 0. -/
theorem test_tick_wraps :
    (after (.tick 800) (running.setSeq { running.seq with step := 15, last := 750 })).seq =
      { running.seq with step := 0, last := 800 } := by decide +kernel

/-- V-SEQ-4: one advance only, however late. -/
theorem test_tick_late :
    (after (.tick 400) (running.setSeq { running.seq with step := 3, last := 153 })).seq =
      { running.seq with step := 4, last := 400 } := by decide +kernel

/-- V-SEQ-5: at 130 BPM the interval is `46.15...`: 46 ms do nothing, 47 fire. -/
theorem test_tick_fraction : let q := { running.seq with bpm := F64.ofInt 130 }
    tickFires numF64 q 46 = false ∧ tickFires numF64 q 47 = true := by decide +kernel

/-- V-SEQ-8: the clock stepping backwards. -/
theorem test_tick_backwards : tickFires numF64 { running.seq with last := 500 } 480 = false := by decide +kernel

/-- V-SEQ-6: the gate of the new step triggers and retunes with the default table; `FREQ` stays. -/
theorem test_tick_gate : let s := running.setEntry 1 { gate := true, note := 57 }
    (seqTick defaultNoteFreq 50 s).vco.freq = F64.ofInt 220 ∧
      (seqTick defaultNoteFreq 50 s).eg.st = .attack ∧
      (seqTick defaultNoteFreq 50 s).freqReg = F64.ofInt 440 := by decide +kernel

/-- V-SEQ-9: entries of the default table. -/
theorem test_default_notes : defaultNoteFreq 0 = pos64 0x40205A0250C2B956 ∧
    defaultNoteFreq 21 = Fl.ofRatio binary64 55 2 ∧ defaultNoteFreq 60 = pos64 0x40705A0250C2B956 ∧
    defaultNoteFreq 69 = F64.ofInt 440 ∧ defaultNoteFreq 81 = F64.ofInt 880 := by decide +kernel

/-- The lowest octave of the default table is `440·2 ^ ((n - 69)/12)` correctly rounded (44_sequencer.md
R205): the twelfth powers of the half-way points to an entry's neighbours enclose `440^12·2 ^ (n - 69)`. -/
theorem test_default_notes_rounded : ∀ n : Fin 12,
    let c := defaultNoteCodes.getD n.val 0
    (binary64.units c + binary64.units (c - 1)) ^ 12 * 2 ^ 69 <
        440 ^ 12 * 2 ^ n.val * (2 * binary64.scale) ^ 12 ∧
      440 ^ 12 * 2 ^ n.val * (2 * binary64.scale) ^ 12 <
        (binary64.units c + binary64.units (c + 1)) ^ 12 * 2 ^ 69 := by decide +kernel

/-- Every higher octave of the default table is the one below doubled, which no rounding disturbs. -/
theorem test_default_notes_octaves : ∀ n : Fin 116,
    defaultNoteCodes.getD (n.val + 12) 0 = defaultNoteCodes.getD n.val 0 + 2 ^ 52 := by decide +kernel

/-! ## Nodes (95_test_vectors.md sections 4 to 7) -/

/-- V-OSC-4: the phases after one, two and three frames at 440 Hz. -/
theorem test_phase_steps :
    let p := fun n => oscPhase numF64 (F64.ofInt 440) (F64.ofInt 0) (F64.ofInt 0)
      (List.replicate n (F64.ofInt 0))
    p 1 = pos64 0x3F846EFDCB4A6B82 ∧ p 2 = pos64 0x3F946EFDCB4A6B82 ∧ p 3 = pos64 0x3F9EA67CB0EFA143 := by
  decide +kernel

/-- The parameters of V-EG-1, triggered. -/
def envelope1 : Env F64 :=
  { st := .attack, value := F64.ofInt 0, cnt := 0, attackMs := F64.ofInt 1, decayMs := F64.ofInt 1,
    sustainLevel := Fl.ofRatio binary64 1 2, sustainMs := F64.ofInt 1, releaseMs := F64.ofInt 1 }

/-- V-EG-1: the first two samples, and the first that reaches 1. -/
theorem test_envelope_attack :
    ([0, 1, 44].map fun i => (((envSamples numF64 45 envelope1)[i]?).map (F32.toBits 0#32)).getD 0#32) =
      [0x3CB9C278#32, 0x3D39C278#32, 0x3F829CBC#32] ∧
    (envAfter numF64 44 envelope1).st = .attack ∧ (envAfter numF64 45 envelope1).st = .decay := by
  decide +kernel

/-- V-EG-1: the last release samples, `1/882` and then the clamped 0. -/
theorem test_envelope_release :
    (envAfter numF64 22 { envelope1 with st := .release, value := Fl.ofRatio binary64 1 2 }).st = .release ∧
    (envAfter numF64 23 { envelope1 with st := .release, value := Fl.ofRatio binary64 1 2 }).st = .idle ∧
    (envAfter numF64 23 { envelope1 with st := .release, value := Fl.ofRatio binary64 1 2 }).value =
      F64.ofInt 0 := by decide +kernel

/-- V-EG-2: `sustainMs = 0` gives exactly one sustain step. -/
theorem test_sustain_zero : (envStep numF64 { envelope1 with st := .sustain, sustainMs := F64.ofInt 0 }).st =
    .release := by decide +kernel

/-- V-EG-3: with `Ns = 441` the strict test keeps step 441 and leaves on step 442. -/
theorem test_sustain_integer : let e := { envelope1 with st := .sustain, sustainMs := F64.ofInt 10 }
    (envStep numF64 { e with cnt := 440 }).st = .sustain ∧
      (envStep numF64 { e with cnt := 441 }).st = .release := by decide +kernel

/-- V-EG-9: an idle envelope queues zeros and blocks. -/
theorem test_idle_envelope : (produceEg (some 2) State.reset).ccAm.map Vector.toList =
    [List.replicate 256 (.fin false ⟨0, by decide⟩)] ∧
    (produceEg (some 2) State.reset).egBlocked = true := by decide +kernel

/-- V-CC-2, V-CC-3, V-CC-4 and V-CC-6. -/
theorem test_channel (b1 b2 b3 : Buffer) :
    enqueue (some 2) [] b1 = [b1] ∧ enqueue (some 2) [b1] b2 = [b1, b2] ∧
      enqueue (some 2) [b1, b2] b3 = [b2, b3] ∧ enqueue (some 1) [b1] b2 = [b2] := by
  refine ⟨?_, ?_, ?_, ?_⟩ <;> rfl

/-- V-CC-8 to V-CC-10: pacing, and what is not enabled. -/
theorem test_pacing : (after .paceEg blocked).egBlocked = false ∧ enabled State.reset .paceEg = false ∧
    enabled blocked .produceLfo = false := by decide

/-- V-VCA-1: gain 2 and a control of 1/4 halve the input. -/
theorem test_gain_product : vcaLane numF64 (F64.ofInt 2) (.fin true ⟨0x3F800000, by decide⟩)
    (Fl.ofRatio binary64 1 4) = .fin true ⟨0x3F000000, by decide⟩ := by decide +kernel

/-- V-VCA-2: no control gives zero, with the sign of the input times the gain. -/
theorem test_gain_silence : vcaLane numF64 (F64.ofInt 1) (.fin true ⟨0x3F800000, by decide⟩) (F64.ofInt 0) =
    .fin true ⟨0, by decide⟩ := by decide +kernel

/-- V-OSC-7: the answer of the consumer decides the flag, and one buffer goes out either way. -/
theorem test_produce_vco : (after (.produceVco false) State.reset).vcoBlocked = true ∧
    (after (.produceVco true) State.reset).vcoBlocked = false ∧
    (after (.produceVco false) State.reset).out.length = 1 := by decide +kernel

/-! ## Formats (95_test_vectors.md section 3) -/

/-- V-MEM-1: the first six samples. -/
theorem test_wire : sampleBytes 0 [.fin false ⟨0, by decide⟩, .fin false ⟨0x3F800000, by decide⟩,
    .fin true ⟨0x3F800000, by decide⟩, .fin false ⟨0x3F000000, by decide⟩, .fin true ⟨0, by decide⟩,
    .fin false ⟨1, by decide⟩] =
    [0, 0, 0, 0, 0, 0, 0x80, 0x3F, 0, 0, 0x80, 0xBF, 0, 0, 0, 0x3F, 0, 0, 0, 0x80, 1, 0, 0, 0] := by
  decide +kernel

/-- V-MEM-2: the status of the reset state. -/
theorem test_status_reset : (statusWords State.reset).toList =
    [0x43DC0000#32, 0x3F800000#32, 0#32, 0x41200000#32, 0x42C80000#32, 0x3F000000#32, 0x42C80000#32,
      0x42C80000#32, 0#32, 0x42F00000#32] ++ List.replicate 16 0#32 ++ List.replicate 16 0x45#32 := by
  decide +kernel

/-- V-MEM-3: words 0, 8, 11 and 27. -/
theorem test_status_words :
    let s := ((running.setFreqReg (F64.ofInt 220)).setEntry 1 { gate := true, note := 57 })
    (statusWords s)[0] = 0x435C0000#32 ∧ (statusWords s)[8] = 1#32 ∧ (statusWords s)[11] = 1#32 ∧
      (statusWords s)[27] = 0x39#32 := by decide +kernel

/-! ## The textual form (30_encoding.md R100; 95_test_vectors.md section 2) -/

/-- 0.1 rounds to the binary32 slightly above it; `1e39` rounds to infinity and is dropped. -/
theorem test_text_numbers :
    messageWords ⟨"freq", .plain (.number (Fl.ofRatio binary64 1 10))⟩ = [0x010000003DCCCCCD#64] ∧
      messageWords ⟨"freq", .plain (.number (F64.ofInt (10 ^ 39)))⟩ = [] := by decide +kernel

/-- The gate half with index 16 is dropped alone. -/
theorem test_text_seq : messageWords ⟨"seq", .seqObject
    (some ⟨.number (F64.ofInt 16), .boolean true⟩)
    (some ⟨.number (F64.ofInt 2), .number (F64.ofInt 60)⟩)⟩ = [0x0B0000020000003C#64] := by decide +kernel

/-- An unrecognised kind produces no word, the start of the sequencer one. -/
theorem test_text_kinds : messageWords ⟨"volume", .plain (.number (F64.ofInt 1))⟩ = [] ∧
    messageWords ⟨"seqonoff", .plain (.boolean true)⟩ = [0x0C00000000000001#64] ∧
    messageWords ⟨"seqonoff", .plain (.number (F64.ofInt 1))⟩ = [] := by decide +kernel

/-! ## Witnesses: for every obligation with hypotheses, inputs that meet them all, clause by clause -/

theorem witness_encodeKeepsUsedFields : decodeWord 0x0AFFFF1000000002#64 = .ok (.seqGate 0x10#8 2#32) ∧
    decodeWord 0x09ABCDEF12345678#64 = .ok .trigger := by decide

/-- Both words of `TRIGGER`, which uses no field, and of `SEQ_GATE`, which uses both. -/
theorem witness_ignoredFields : decodeWord 0x09ABCDEF12345678#64 = .ok .trigger ∧
    CmdWord.opc 0x0900000000000000#64 = CmdWord.opc 0x09ABCDEF12345678#64 ∧ Instr.trigger.usesIdx = false ∧
    Instr.trigger.usesVal = false ∧ (Instr.seqGate 3#8 1#32).usesIdx = true ∧
    CmdWord.idx 0x0AFFFF0300000001#64 = CmdWord.idx 0x0A00000300000001#64 ∧
    CmdWord.val 0x0AFFFF0300000001#64 = CmdWord.val 0x0A00000300000001#64 := by decide

/-- The edges of the unassigned opcodes. -/
theorem witness_unassignedOpcode : ∀ o ∈ [0x00, 0x0E, 0x0F, 0x13, 0xFF],
    o ∉ [0x01, 0x02, 0x03, 0x04, 0x05, 0x06, 0x07, 0x08, 0x09, 0x0A, 0x0B, 0x0C, 0x0D, 0x10, 0x11, 0x12] := by
  decide

theorem witness_stepRunsDecodedCommand :
    (State.reset.setPending [.cmd 0x0900000000000000#64]).pending = [.cmd 0x0900000000000000#64] ∧
      decodeWord 0x0900000000000000#64 = .ok .trigger := ⟨rfl, by decide⟩

theorem witness_malformedOperand : (Instr.freq 0x7F800000#32).wellFormed = false ∧
    (Instr.seqGate 16#8 0#32).wellFormed = false ∧ (Instr.seqNote 0#8 128#32).wellFormed = false ∧
    (Instr.seqOnOff 2#32).wellFormed = false := by decide

/-- The values next to each legal range. -/
theorem witness_illegalValue : ∀ i ∈ [Instr.attack 0#32, .decay 0x80000001#32, .release 0#32, .bpm 0#32,
    .sustain 0x3F800001#32, .sustain 0x80000001#32, .susTime 0x80000001#32],
    i.wellFormed = true ∧ accepted i = false := by decide +kernel

/-- The two ends of each legal range. -/
theorem witness_legalRanges : ∀ i ∈ [Instr.freq 0xFF7FFFFF#32, .lfo 0#32, .depth 0x7F7FFFFF#32, .attack 1#32,
    .decay 0x7F7FFFFF#32, .release 1#32, .bpm 0x7F7FFFFF#32, .sustain 0#32, .sustain 0x3F800000#32,
    .sustain 0x80000000#32, .susTime 0#32, .susTime 0x7F7FFFFF#32, .susTime 0x80000000#32],
    accepted i = true := by decide +kernel

theorem witness_oscillatorCommands : f32WellFormed 0x43DC0000#32 = true ∧
    f32WellFormed 0x80000000#32 = true := by decide

/-- Each of the three ranges at its ends. -/
theorem witness_envelopeCommands : (0 < (1#32).toNat ∧ (1#32).toNat < 0x7F800000) ∧
    (0 < (0x7F7FFFFF#32).toNat ∧ (0x7F7FFFFF#32).toNat < 0x7F800000) ∧ (0#32).toNat ≤ 0x3F800000 ∧
    (0x3F800000#32).toNat ≤ 0x3F800000 ∧ (0#32).toNat < 0x7F800000 := by decide

theorem witness_bpm : 0 < (1#32).toNat ∧ (0x7F7FFFFF#32).toNat < 0x7F800000 := by decide

theorem witness_commandFrame : ∃ t, exec .trigger State.reset = .next t := ⟨_, rfl⟩

/-- Each parameter is changed by its command, so that no clause is empty. -/
theorem witness_parametersHaveOneWriter :
    (afterWord 0x0100000040000000#64).freqReg ≠ State.reset.freqReg ∧
    (afterWord 0x0200000040000000#64).lfo.freq ≠ State.reset.lfo.freq ∧
    (afterWord 0x0300000040000000#64).vco.depth ≠ State.reset.vco.depth ∧
    (afterWord 0x0400000040000000#64).eg.attackMs ≠ State.reset.eg.attackMs ∧
    (afterWord 0x0500000040000000#64).eg.decayMs ≠ State.reset.eg.decayMs ∧
    (afterWord 0x060000003F800000#64).eg.sustainLevel ≠ State.reset.eg.sustainLevel ∧
    (afterWord 0x0700000040000000#64).eg.sustainMs ≠ State.reset.eg.sustainMs ∧
    (afterWord 0x0800000040000000#64).eg.releaseMs ≠ State.reset.eg.releaseMs ∧
    (afterWord 0x0D00000040000000#64).seq.bpm ≠ State.reset.seq.bpm ∧
    (afterWord 0x0A00000300000001#64).pat[3].gate ≠ State.reset.pat[3].gate ∧
    (afterWord 0x0B00000F00000000#64).pat[15].note ≠ State.reset.pat[15].note ∧
    (afterWord 0x0C00000000000001#64).seq.running ≠ State.reset.seq.running ∧
    (afterWord 0x1000000000000000#64).seq.running ≠ State.reset.seq.running ∧
    (after (.cmd 0x1100000000000000#64) running).seq.running ≠ running.seq.running := by decide +kernel

/-- A tick while stopped, one that is not due, one onto an entry without a gate, one onto an entry with. -/
theorem witness_tick : State.reset.seq.running = false ∧ running.seq.running = true ∧
    Fl.le (Fl.div (F64.ofInt 6000) running.seq.bpm) (F64.ofInt (49 - running.seq.last)) = false ∧
    Fl.le (Fl.div (F64.ofInt 6000) running.seq.bpm) (F64.ofInt (50 - running.seq.last)) = true ∧
    running.pat[running.seq.step + 1].gate = false ∧
    (running.setEntry 1 { gate := true, note := 57 }).pat[running.seq.step + 1].gate = true := by
  decide +kernel

/-- 120 BPM, and ticks exactly one interval apart and later ones. -/
theorem witness_spacedTicks : running.seq.running = true ∧ running.seq.bpm = F64.ofInt 120 ∧
    (running.seq.last :: [50, 103, 153]).IsChain (fun a b => 50 ≤ b - a) := by
  refine ⟨rfl, by decide +kernel, by decide⟩

/-- The sequencer of V-SEQ-5 over the reals. -/
noncomputable def sequencerReal (bpm : ℝ) : Sequencer ℝ :=
  { step := 15, bpm := bpm, running := true, last := 0 }

/-- V-SEQ-5: at 130 BPM "fires at `now` = 47, 94, 141", each at least `46.153846...` after the last. -/
theorem witness_exactTicks : (sequencerReal 130).running = true ∧ (sequencerReal 120).bpm = 120 ∧
    ((sequencerReal 130).last :: [47, 94, 141]).IsChain
      (fun a b => 6000 / (sequencerReal 130).bpm ≤ ((b - a : Int) : ℝ)) := by
  norm_num [sequencerReal]

/-- V-SEQ-5 over the reals: 46 ms do nothing, 47 fire, and step 15 wraps to 0. -/
theorem test_exact_tick : seqAfter numExact 46 (sequencerReal 130) = sequencerReal 130 ∧
    seqAfter numExact 47 (sequencerReal 130) = { sequencerReal 130 with step := 0, last := 47 } := by
  norm_num [seqAfter, tickFires_exact, sequencerReal, nextStep]
  rfl

theorem witness_timestamp : (after (.tick 50) running).seq.last ≠ running.seq.last := by decide +kernel

/-- An envelope over the reals with every parameter 1 and the level 1/2, as in V-EG-1. -/
noncomputable def envelopeReal (st : Stage) (value : ℝ) : Env ℝ :=
  { st := st, value := value, cnt := 0, attackMs := 1, decayMs := 1, sustainLevel := 1 / 2, sustainMs := 1,
    releaseMs := 1 }

theorem witness_attack : (envelopeReal .attack 0).st = .attack ∧ (envelopeReal .attack 0).value = 0 ∧
    0 < (envelopeReal .attack 0).attackMs := by norm_num [envelopeReal]

theorem witness_decay : (envelopeReal .decay (50 / 49)).st = .decay ∧
    0 < (envelopeReal .decay (50 / 49)).decayMs ∧ 0 < (envelopeReal .decay (50 / 49)).sustainLevel ∧
    (envelopeReal .decay (50 / 49)).sustainLevel < (envelopeReal .decay (50 / 49)).value ∧
    0 < decaySteps (50 / 49) 1 (1 / 2) := by norm_num [envelopeReal, decaySteps]

theorem witness_sustain : (envelopeReal .sustain (1 / 2)).st = .sustain ∧
    (envelopeReal .sustain (1 / 2)).cnt = 0 ∧ 0 ≤ (envelopeReal .sustain (1 / 2)).sustainMs := by
  norm_num [envelopeReal]

theorem witness_release : (envelopeReal .release (1 / 2)).st = .release ∧
    0 < (envelopeReal .release (1 / 2)).releaseMs ∧ 0 < releaseSteps (1 / 2) 1 := by
  norm_num [envelopeReal, releaseSteps]

theorem witness_wholeEnvelope : (envelopeReal .attack 0).st = .attack ∧ (envelopeReal .attack 0).value = 0 ∧
    (envelopeReal .attack 0).cnt = 0 ∧ 0 < (envelopeReal .attack 0).attackMs ∧
    0 < (envelopeReal .attack 0).decayMs ∧ 0 < (envelopeReal .attack 0).sustainLevel ∧
    (envelopeReal .attack 0).sustainLevel ≤ 1 ∧ 0 ≤ (envelopeReal .attack 0).sustainMs ∧
    0 < (envelopeReal .attack 0).releaseMs := by norm_num [envelopeReal]

/-- R168: "45 + 46 + 45 + 23 = 159 samples", the attack's 45 among them. -/
theorem test_attackSteps : attackSteps 1 = 45 := by
  unfold attackSteps
  rw [Nat.ceil_eq_iff (by norm_num)]
  norm_num

theorem witness_decayStuck : let e := { envelope1 with
      st := .decay, value := Fl.ofRatio binary64 50 49, sustainLevel := F64.ofInt 0 }
    e.st = .decay ∧ Fl.isZero e.sustainLevel = true ∧ Fl.isFinite e.value = true ∧
      Fl.le (F64.ofInt 1) e.value = true ∧ Fl.isFinite (perSample numF64 e.decayMs) = true := by
  decide +kernel

/-- An unmodulated oscillator at the start of its third frame group. -/
theorem witness_oscillatorClosedForm :
    let o : Osc ℝ := { phase := 256 * (2 : ℕ) * 440 / 44100, freq := 440, depth := 0 }
    o.depth = 0 ∧ o.phase = 256 * (2 : ℕ) * o.freq / 44100 := ⟨rfl, rfl⟩

/-- The phase before the first and before the second frame of the VCO after reset. -/
theorem witness_sampleRange :
    let p := fun n => oscPhase numF64 State.reset.vco.freq State.reset.vco.depth State.reset.vco.phase
      ((controlSamples numF64 (none : Option Buffer)).take n)
    (p 0).isZero = true ∧ (p 0).isFinite = true ∧ (p 1).isZero = false ∧ (p 1).isFinite = true := by
  decide +kernel

theorem witness_depthZero : Fl.isZero State.reset.vco.depth = true ∧ Fl.isFinite State.reset.vco.freq = true ∧
    Fl.isZero State.reset.vco.freq = false ∧
    ∀ x ∈ (Vector.replicate 256 (Fl.fin (f := binary32) false ⟨0x3F800000, by decide⟩)).toList,
      Fl.isFinite x = true := by
  refine ⟨by decide, by decide, by decide, fun x hx => ?_⟩
  simp only [Vector.toList_replicate, List.mem_replicate] at hx
  rw [hx.2]; rfl

theorem witness_silence : Fl.isFinite (Fl.mul (F32.ext (.fin true ⟨0x3F800000, by decide⟩)) (F64.ofInt 2)) =
    true := by decide +kernel

/-- A channel with room, and a full one of capacity 1. -/
theorem witness_channel (b : Buffer) : 0 < 1 ∧ ([] : List Buffer).length ≤ 1 ∧ [b].length ≤ 1 := by simp

/-- Every flag both ways. -/
theorem witness_blockedFlags : State.reset.lfoBlocked = false ∧ State.reset.egBlocked = false ∧
    State.reset.vcoBlocked = false ∧ blocked.lfoBlocked = true ∧ blocked.egBlocked = true ∧
    blocked.vcoBlocked = true := ⟨rfl, rfl, rfl, rfl, rfl, rfl⟩

/-- An event that is not enabled. -/
theorem witness_notEnabled : enabled blocked (.produceVco true) = false ∧
    enabled State.reset .paceLfo = false := ⟨rfl, rfl⟩

/-- A behaviour of the block that is weakly fair and whose consumer keeps its duty. -/
theorem witness_fairBehaviour : IsBehaviour roundRobin roundRobinState ∧
    WeaklyFair roundRobin roundRobinState ∧ ConsumerReady roundRobin roundRobinState :=
  ⟨roundRobin_run, roundRobin_fair, roundRobin_consumer⟩

theorem tickTimes_ticks (l : List Nat) : tickTimes (l.map fun n : Nat => .tick n) = l.map (↑·) := by
  induction l with
  | nil => rfl
  | cons n l ih => simp [tickTimes, ih]

/-- One tick every millisecond keeps the clock's duty. -/
theorem witness_clock : ClockAdvances fun n => .tick n where
  monotone n := by
    rw [ClockMonotone, tickTimes_ticks, List.pairwise_map]
    exact List.pairwise_lt_range.imp fun h => by exact_mod_cast h.le
  advances n b := ⟨max n b.toNat, _, by omega, rfl, by omega⟩

theorem witness_outputGrows : ∃ t, perform (.produceVco true) State.reset = .next t := ⟨_, rfl⟩

theorem witness_lockstep : ChannelsQuiet State.reset ∧ State.reset.ccLfo = [] ∧ ChannelsQuiet blocked ∧
    blocked.ccLfo = [] := ⟨⟨rfl, rfl⟩, rfl, ⟨rfl, rfl⟩, rfl⟩

/-- Each number-valued register of reset is `ext` of a finite binary32 number. -/
theorem witness_status : let y := fun k : Fin binary32.top => Fl.fin (f := binary32) false k
    (y ⟨0x43DC0000, by decide⟩).isFinite = true ∧
    State.reset.freqReg = F32.ext (y ⟨0x43DC0000, by decide⟩) ∧
    State.reset.lfo.freq = F32.ext (y ⟨0x3F800000, by decide⟩) ∧
    State.reset.vco.depth = F32.ext (y ⟨0, by decide⟩) ∧
    State.reset.eg.attackMs = F32.ext (y ⟨0x41200000, by decide⟩) ∧
    State.reset.eg.decayMs = F32.ext (y ⟨0x42C80000, by decide⟩) ∧
    State.reset.eg.sustainLevel = F32.ext (y ⟨0x3F000000, by decide⟩) ∧
    State.reset.eg.sustainMs = F32.ext (y ⟨0x42C80000, by decide⟩) ∧
    State.reset.eg.releaseMs = F32.ext (y ⟨0x42C80000, by decide⟩) ∧
    State.reset.seq.bpm = F32.ext (y ⟨0x42F00000, by decide⟩) := by decide +kernel

/-- The step that the invariants' witnesses take. -/
theorem presented_step : step presented = .next (running.setVcoBlocked false) := rfl

theorem witness_legalParams : LegalParams presented ∧ ∃ t, step presented = .next t := by
  refine ⟨?_, _, presented_step⟩
  constructor <;> decide +kernel

theorem witness_channelBounds : ChannelsSound presented ∧ ∃ t, step presented = .next t := by
  refine ⟨⟨rfl, fun n _ => ?_, fun n _ => ?_⟩, _, presented_step⟩ <;> exact Nat.zero_le n

theorem witness_binary32Params : ParamsBinary32 presented ∧ ∃ t, step presented = .next t := by
  refine ⟨⟨?_, ?_, ?_, ?_, ?_, ?_, ?_, ?_, ?_⟩, _, presented_step⟩
  · exact ⟨.fin false ⟨0x43DC0000, by decide⟩, rfl, by decide +kernel⟩
  · exact ⟨.fin false ⟨0x3F800000, by decide⟩, rfl, by decide +kernel⟩
  · exact ⟨.fin false ⟨0, by decide⟩, rfl, by decide +kernel⟩
  · exact ⟨.fin false ⟨0x41200000, by decide⟩, rfl, by decide +kernel⟩
  · exact ⟨.fin false ⟨0x42C80000, by decide⟩, rfl, by decide +kernel⟩
  · exact ⟨.fin false ⟨0x3F000000, by decide⟩, rfl, by decide +kernel⟩
  · exact ⟨.fin false ⟨0x42C80000, by decide⟩, rfl, by decide +kernel⟩
  · exact ⟨.fin false ⟨0x42C80000, by decide⟩, rfl, by decide +kernel⟩
  · exact ⟨.fin false ⟨0x42F00000, by decide⟩, rfl, by decide +kernel⟩

theorem witness_envelopeSound : EnvelopeSound presented.eg ∧ ∃ t, step presented = .next t :=
  ⟨⟨fun _ => rfl, fun _ => by decide +kernel⟩, _, presented_step⟩

theorem witness_vcoTuned : VcoTuned presented ∧ ∃ t, step presented = .next t :=
  ⟨.inl rfl, _, presented_step⟩

theorem witness_constants : ConstantsHeld presented ∧ ∃ t, step presented = .next t :=
  ⟨⟨rfl, by decide +kernel⟩, _, presented_step⟩

theorem witness_fmRange : FmInRange presented ∧ ∃ t, step presented = .next t :=
  ⟨fun _ h => absurd h (List.not_mem_nil), _, presented_step⟩

theorem witness_reachable : Reachable (State.reset.setPending []) := .reset []

/-- Finite numbers, one a zero and one not, and a NaN. -/
theorem witness_arithmetic : (F64.ofInt 0).isFinite = true ∧ (F64.ofInt 3).isFinite = true ∧
    (F64.ofInt 3).isZero = false ∧ (Fl.nan : F64).isFinite = false := by decide +kernel

/-- S4 holds for some constant, so a premise of it can be met: both numbers are in [-1, 1]. -/
theorem witness_sinAccurate : SinAccurate 2 := by
  intro p hp
  have h1 : |(F64.sin2pi p).toReal| ≤ 1 := by
    rcases F64.sin2pi_cases p with ⟨h, -⟩ | ⟨-, s, k, h, hk⟩
    · rw [hp] at h; cases h
    · have hs : (0 : ℝ) < binary64.scale := by exact_mod_cast binary64.scale_pos
      have hu : binary64.units k.val ≤ binary64.scale := units_one64 ▸ binary64.units_le_iff.2 hk
      rw [h, Fl.toReal_fin, mul_div_assoc, abs_sign_mul, abs_of_nonneg (by positivity), div_le_one hs]
      exact_mod_cast hu
  have h2 := Real.abs_sin_le_one (2 * Real.pi * p.toReal)
  have h3 := le_max_left 1 |p.toReal|
  calc |(F64.sin2pi p).toReal - Real.sin (2 * Real.pi * p.toReal)|
      ≤ |(F64.sin2pi p).toReal| + |Real.sin (2 * Real.pi * p.toReal)| := abs_sub _ _
    _ ≤ 2 * max 1 |p.toReal| := by linarith

theorem witness_text : 0x0100000043DC0000#64 ∈ messageWords ⟨"freq", .plain (.number (F64.ofInt 440))⟩ := by
  decide +kernel

end Sys2Proof.Tests
end

/-! The numbers of 00_scope.md R14 and R15: every operation of `NUM_F64` rounds its exact result once, the
order of ranks is the order of values, and what an emitted sample is off by. -/

namespace Sys2Proof

/-! ## Signs -/

/-- An integer is its magnitude with its sign; the sign given to 0 does not matter. -/
theorem intCast_eq_sign_mul_natAbs (n : Int) (neg : Bool) (h : n ≠ 0 → neg = decide (n < 0)) :
    (n : ℝ) = (if neg then -1 else 1) * (n.natAbs : ℝ) := by
  rw [Nat.cast_natAbs, Int.cast_abs]
  rcases lt_trichotomy n 0 with hn | rfl | hn
  · rw [h hn.ne, abs_of_neg (Int.cast_lt_zero.2 hn)]; simp [hn]
  · simp
  · rw [h hn.ne', abs_of_pos (Int.cast_pos.2 hn)]; simp [hn.le]

theorem sign_xor (s t : Bool) : (if s ^^ t then -1 else 1 : ℝ) =
    (if s then -1 else 1) * (if t then -1 else 1) := by
  cases s <;> cases t <;> simp

theorem Fl.toReal_negate {f : Format} (x : Fl f) : (Fl.negate x).toReal = -x.toReal := by
  cases x with
  | nan => simp [Fl.negate, Fl.toReal]
  | inf s => simp [Fl.negate, Fl.toReal]
  | fin s k => cases s <;> simp [Fl.negate, Fl.toReal_fin, neg_div]

@[simp] theorem Fl.isFinite_negate {f : Format} (x : Fl f) : (Fl.negate x).isFinite = x.isFinite := by
  cases x <;> rfl

theorem Format.scale_real_pos (f : Format) : (0 : ℝ) < f.scale := Nat.cast_pos.2 f.scale_pos

/-! ## Rounding -/

/-- `Fl.ofQuot_roundedFrom` for binary64. -/
theorem F64.ofQuot_roundedFrom (neg : Bool) (num den : Nat) (hd : 0 < den) (x : ℝ)
    (hx : x = (if neg then -1 else 1) * ((num / den : ℝ) / binary64.scale)) :
    (Fl.ofQuot binary64 neg num den).RoundedFrom x :=
  Fl.ofQuot_roundedFrom binary64 (by decide) (by decide) (by decide) neg num den hd x hx

theorem F64.add_roundedFrom (a b : F64) (ha : a.isFinite = true) (hb : b.isFinite = true) :
    (Fl.add a b).RoundedFrom (a.toReal + b.toReal) := by
  obtain ⟨s, i, rfl⟩ := Fl.isFinite_iff.1 ha
  obtain ⟨t, j, rfl⟩ := Fl.isFinite_iff.1 hb
  apply F64.ofQuot_roundedFrom _ _ 1 one_pos
  rw [Fl.toReal_signedUnits, Fl.toReal_signedUnits, ← add_div, ← Int.cast_add, Nat.cast_one, div_one,
    ← mul_div_assoc]
  congr 1
  exact intCast_eq_sign_mul_natAbs _ _ fun h => if_neg h

theorem F64.sub_roundedFrom (a b : F64) (ha : a.isFinite = true) (hb : b.isFinite = true) :
    (Fl.sub a b).RoundedFrom (a.toReal - b.toReal) := by
  rw [sub_eq_add_neg, ← Fl.toReal_negate]
  exact F64.add_roundedFrom a (Fl.negate b) ha (by simpa using hb)

theorem F64.mul_roundedFrom (a b : F64) (ha : a.isFinite = true) (hb : b.isFinite = true) :
    (Fl.mul a b).RoundedFrom (a.toReal * b.toReal) := by
  obtain ⟨s, i, rfl⟩ := Fl.isFinite_iff.1 ha
  obtain ⟨t, j, rfl⟩ := Fl.isFinite_iff.1 hb
  apply F64.ofQuot_roundedFrom _ _ _ binary64.scale_pos
  rw [Fl.toReal_fin, Fl.toReal_fin, sign_xor, Nat.cast_mul]
  ring

theorem F64.div_roundedFrom (a b : F64) (ha : a.isFinite = true) (hb : b.isFinite = true)
    (hz : b.isZero = false) : (Fl.div a b).RoundedFrom (a.toReal / b.toReal) := by
  obtain ⟨s, i, rfl⟩ := Fl.isFinite_iff.1 ha
  obtain ⟨t, j, rfl⟩ := Fl.isFinite_iff.1 hb
  have hj : j.val ≠ 0 := of_decide_eq_false hz
  have hu : 0 < binary64.units j.val := Nat.pos_of_ne_zero (mt binary64.units_eq_zero.1 hj)
  have hdiv : Fl.div (.fin s i) (.fin t j) =
      .ofQuot binary64 (s ^^ t) (binary64.units i * binary64.scale) (binary64.units j) := if_neg hj
  rw [hdiv]
  apply F64.ofQuot_roundedFrom _ _ _ hu
  have hs := binary64.scale_real_pos
  rw [Fl.toReal_fin, Fl.toReal_fin, sign_xor, Nat.cast_mul]
  cases t <;> field_simp <;> simp

theorem F64.rnd32_roundedFrom (x : F64) (hx : x.isFinite = true) :
    (F64.rnd32 x).RoundedFrom x.toReal := by
  obtain ⟨s, k, rfl⟩ := Fl.isFinite_iff.1 hx
  rw [F64.rnd32_eq_ofQuot]
  apply Fl.ofQuot_roundedFrom binary32 (by decide) (by decide) (by decide) _ _ _ binary64.scale_pos
  have hs := binary32.scale_real_pos
  rw [Fl.toReal_fin, Nat.cast_mul]
  field_simp

theorem F64.ofInt_roundedFrom (n : Int) : (F64.ofInt n).RoundedFrom n := by
  unfold F64.ofInt
  apply F64.ofQuot_roundedFrom _ _ 1 one_pos
  rw [Nat.cast_mul, Nat.cast_one, div_one, mul_div_cancel_right₀ _ binary64.scale_real_pos.ne']
  exact intCast_eq_sign_mul_natAbs _ _ fun _ => rfl

/-! ## Conversion to binary64 and comparisons -/

theorem F32.ext_toReal (x : F32) : (F32.ext x).toReal = x.toReal := by
  cases x with
  | nan => rfl
  | inf s => rfl
  | fin s k =>
    obtain ⟨c, hc, hu⟩ := F32.ext_fin s k
    have hs := binary32.scale_real_pos
    rw [hc, Fl.toReal_fin, Fl.toReal_fin, hu, ← scale64_eq]
    push_cast
    field_simp

/-- The order of the codes with their signs is the order of the magnitudes with theirs: with equal signs
because magnitudes rise with codes, with unequal signs because both are 0 together. -/
theorem Fl.rank_le_iff_signedUnits_le {f : Format} (s t : Bool) (i j : Fin f.top) :
    (Fl.fin s i : Fl f).rank ≤ (Fl.fin t j : Fl f).rank ↔
      Fl.signedUnits f s i ≤ Fl.signedUnits f t j := by
  have hij := f.units_le_iff (i := i.val) (j := j.val)
  have hji := f.units_le_iff (i := j.val) (j := i.val)
  have hi := f.units_eq_zero (k := i.val)
  have hj := f.units_eq_zero (k := j.val)
  cases s <;> cases t <;> simp only [Fl.rank, Fl.signedUnits, if_true, Bool.false_eq_true, if_false] <;> omega

theorem Fl.rank_le_iff {f : Format} {a b : Fl f} (ha : a.isFinite = true) (hb : b.isFinite = true) :
    a.rank ≤ b.rank ↔ a.toReal ≤ b.toReal := by
  obtain ⟨s, i, rfl⟩ := Fl.isFinite_iff.1 ha
  obtain ⟨t, j, rfl⟩ := Fl.isFinite_iff.1 hb
  rw [Fl.rank_le_iff_signedUnits_le, Fl.toReal_signedUnits, Fl.toReal_signedUnits,
    div_le_div_iff_of_pos_right f.scale_real_pos, Int.cast_le]

theorem Fl.isNan_of_isFinite {f : Format} {a : Fl f} (ha : a.isFinite = true) : a.isNan = false := by
  obtain ⟨s, i, rfl⟩ := Fl.isFinite_iff.1 ha
  rfl

theorem Fl.le_iff {f : Format} {a b : Fl f} (ha : a.isFinite = true) (hb : b.isFinite = true) :
    Fl.le a b = true ↔ a.toReal ≤ b.toReal := by
  simp [Fl.le, Fl.isNan_of_isFinite ha, Fl.isNan_of_isFinite hb, Fl.rank_le_iff ha hb]

theorem Fl.lt_iff {f : Format} {a b : Fl f} (ha : a.isFinite = true) (hb : b.isFinite = true) :
    Fl.lt a b = true ↔ a.toReal < b.toReal := by
  rw [← not_le, ← Fl.rank_le_iff hb ha]
  simp [Fl.lt, Fl.isNan_of_isFinite ha, Fl.isNan_of_isFinite hb]

theorem Fl.compare_nan {f : Format} {a b : Fl f} (h : a = .nan ∨ b = .nan) :
    Fl.le a b = false ∧ Fl.lt a b = false := by
  rcases h with rfl | rfl <;> simp [Fl.le, Fl.lt, Fl.isNan]

/-! ## The error of one rounding -/

/-- Up to the magnitude with exponent `s + 1` and no fraction, rounding is off by at most half of
`2 ^ s` units. -/
theorem Format.roundCode_error (f : Format) (s : Nat) {num den : Nat} (hd : 0 < den)
    (h : num ≤ 2 ^ (f.fracBits + s + 1) * den) :
    |(f.units (f.roundCode num den) : ℝ) * den - num| ≤ 2 ^ s * den / 2 := by
  rcases h.eq_or_lt with heq | hlt
  · -- that magnitude itself needs no rounding
    have hu : f.units ((s + 1) * 2 ^ f.fracBits + 2 ^ f.fracBits) = 2 ^ (f.fracBits + s + 1) :=
      f.units_power rfl rfl
    rw [heq, ← hu, f.roundCode_exact _ _ hd, Nat.cast_mul, sub_self, abs_zero]
    positivity
  · obtain ⟨e, q, hk, hq, hq1, hq2, hlow⟩ := f.roundCode_split num den hd
    have hes : e ≤ s := by
      rcases hlow with rfl | hlow
      · exact Nat.zero_le s
      · have hpow : 2 ^ (f.fracBits + e) * den < 2 ^ (f.fracBits + s + 1) * den := by
          rw [Nat.pow_add, Nat.mul_assoc, Nat.mul_comm _ den]
          exact hlow.trans_lt hlt
        have := (Nat.pow_lt_pow_iff_right one_lt_two).1 (lt_of_mul_lt_mul_right hpow (Nat.zero_le den))
        omega
    have hU : f.units (f.roundCode num den) * den = q * (den * 2 ^ e) := by
      rw [hk, f.units_split e q hq1 hq2]; ring
    have hup := roundEven_upper num (den * 2 ^ e)
    have hlo := roundEven_lower num (den * 2 ^ e) (by positivity)
    rw [← hq, ← hU] at hup hlo
    have hstep : den * 2 ^ e ≤ 2 ^ s * den := by
      rw [Nat.mul_comm]; exact Nat.mul_le_mul_right _ (Nat.pow_le_pow_right two_pos hes)
    have hup' := hup.trans (Nat.add_le_add_left hstep _)
    have hlo' := hlo.trans (Nat.add_le_add_left hstep _)
    rify at hup' hlo'
    rw [abs_le]
    constructor <;> linarith

/-- Within [-1, 1], where the unit in the last place of binary32 is at most `2 ^ (-24)`, `rnd32` is off by
at most half of that. -/
theorem F64.rnd32_error (s : Bool) (k : Fin binary64.top) (hk : k.val ≤ oneCode) :
    |(F64.rnd32 (.fin s k)).toReal - (Fl.fin s k : F64).toReal| ≤ 1 / 2 ^ 25 := by
  have hS : (0 : ℝ) < binary64.scale := binary64.scale_real_pos
  have hs32 : (binary32.scale : ℝ) = 2 ^ 149 := by rw [Format.scale_eq]; exact Nat.cast_pow 2 149
  have herr := binary32.roundCode_error 125 binary64.scale_pos
    (num := binary64.units k * binary32.scale) (by
      rw [Nat.mul_comm, binary32.scale_eq]
      exact Nat.mul_le_mul_left _ (units_one64 ▸ binary64.units_le_iff.2 hk))
  obtain ⟨c, hc, -⟩ := F64.rnd32_unit s k hk
  rw [F64.rnd32_eq_ofQuot] at hc ⊢
  rcases Fl.ofQuot_cases binary32 s (binary64.units k * binary32.scale) binary64.scale with
    ⟨h, e⟩ | ⟨-, e⟩
  · rw [e, Fl.toReal_fin, Fl.toReal_fin, hs32, mul_div_assoc, mul_div_assoc, ← mul_sub, abs_sign_mul]
    rw [Nat.cast_mul, hs32] at herr
    generalize (binary32.units (binary32.roundCode _ _) : ℝ) = r at herr ⊢
    have hquot : r / 2 ^ 149 - binary64.units k / binary64.scale =
        (r * binary64.scale - binary64.units k * 2 ^ 149) / (2 ^ 149 * binary64.scale) := by
      field_simp
    rw [hquot, abs_div, abs_of_pos (by positivity : (0 : ℝ) < 2 ^ 149 * binary64.scale),
      div_le_iff₀ (by positivity)]
    linarith
  · rw [e] at hc; cases hc

/-! ## `SIN2PI` -/

theorem F64.abs_toReal_le_one (s : Bool) (k : Fin binary64.top) (hk : k.val ≤ oneCode) :
    |(Fl.fin s k : F64).toReal| ≤ 1 := by
  have hu : binary64.units k ≤ binary64.scale := units_one64 ▸ binary64.units_le_iff.2 hk
  rw [Fl.toReal_fin, mul_div_assoc, abs_sign_mul, abs_of_nonneg (by positivity),
    div_le_one binary64.scale_real_pos]
  exact Nat.cast_le.2 hu

theorem F64.sin2pi_of_isFinite {p : F64} (hp : p.isFinite = true) :
    ∃ s, ∃ k : Fin binary64.top, F64.sin2pi p = .fin s k ∧ k.val ≤ oneCode := by
  rcases F64.sin2pi_cases p with ⟨h, -⟩ | ⟨-, h⟩
  · rw [hp] at h; cases h
  · exact h

theorem F64.sin2pi_of_not_isFinite {p : F64} (hp : p.isFinite = false) : F64.sin2pi p = .nan := by
  rcases F64.sin2pi_cases p with ⟨-, h⟩ | ⟨h, -⟩
  · exact h
  · rw [hp] at h; cases h

theorem F64.sin2pi_zero {p : F64} (hp : p.isZero = true) : (F64.sin2pi p).toReal = 0 := by
  cases p with
  | nan => cases hp
  | inf s => cases hp
  | fin s k =>
    have hk : k.val = 0 := of_decide_eq_true hp
    have hsin : F64.sin2pi (.fin s k) = F64.ofCode (s && (Config.sinFree (.fin s k)).1) 0 := if_pos hk
    rw [hsin, F64.ofCode, Fl.toReal_fin]
    simp

/-- S2 of 00_scope.md R15. -/
theorem F64.sin2pi_bounded {p : F64} (hp : p.isFinite = true) :
    (F64.sin2pi p).isFinite = true ∧ |(F64.sin2pi p).toReal| ≤ 1 := by
  obtain ⟨s, k, h, hk⟩ := F64.sin2pi_of_isFinite hp
  rw [h]
  exact ⟨rfl, F64.abs_toReal_le_one s k hk⟩

/-- An emitted sample is off by the error of `SIN2PI` and that of one rounding. -/
theorem F64.rnd32_sin2pi_error {eps : ℝ} (heps : SinAccurate eps) {p : F64} (hp : p.isFinite = true) :
    |(F64.rnd32 (F64.sin2pi p)).toReal - Real.sin (2 * Real.pi * p.toReal)| ≤
      eps * max 1 |p.toReal| + 1 / 2 ^ 25 := by
  have hround : |(F64.rnd32 (F64.sin2pi p)).toReal - (F64.sin2pi p).toReal| ≤ 1 / 2 ^ 25 := by
    obtain ⟨s, k, h, hk⟩ := F64.sin2pi_of_isFinite hp
    rw [h]
    exact F64.rnd32_error s k hk
  have hsin := heps p hp
  have htri := abs_sub_le (F64.rnd32 (F64.sin2pi p)).toReal (F64.sin2pi p).toReal
    (Real.sin (2 * Real.pi * p.toReal))
  linarith

/-! ## The obligations -/

/-- Settles O56: each operation hands `ofQuot` its exact result as a quotient, which is rounded once. -/
theorem arithmeticRoundsCorrectly : Obligations.ArithmeticRoundsCorrectly :=
  fun a b ha hb => ⟨F64.add_roundedFrom a b ha hb, F64.sub_roundedFrom a b ha hb,
    F64.mul_roundedFrom a b ha hb, F64.div_roundedFrom a b ha hb⟩

/-- Settles O57: the conversions round by `ofQuot`, and ranks order finite numbers as their values do. -/
theorem conversionsAndComparisons : Obligations.ConversionsAndComparisons :=
  ⟨F64.rnd32_roundedFrom, F64.ofInt_roundedFrom,
    fun x hx => ⟨by rwa [F32.ext_isFinite], F32.ext_toReal x⟩,
    fun _ _ ha hb => ⟨Fl.le_iff ha hb, Fl.lt_iff ha hb⟩,
    fun _ _ h => Fl.compare_nan h⟩

/-- Settles O58: `SIN2PI` answers a code up to 1.0's, where rounding to binary32 costs at most
`2 ^ (-25)`. -/
theorem sineProperties : Obligations.SineProperties :=
  ⟨fun _ => F64.sin2pi_bounded, fun _ => F64.sin2pi_zero, fun _ => F64.sin2pi_of_not_isFinite,
    fun _ heps _ => F64.rnd32_sin2pi_error heps⟩

end Sys2Proof

/-! The state of 10_state.md: everything an event can do, which command writes which register, what no
command changes, and the invariants of every reachable state. -/

namespace Sys2Proof

/-! ## Comparisons as comparisons of ranks -/

theorem Fl.le_iff_rank_le {f : Format} {a b : Fl f} (ha : a.isFinite = true) (hb : b.isFinite = true) :
    Fl.le a b = true ↔ a.rank ≤ b.rank := by
  simp [Fl.le, Fl.isNan_of_isFinite ha, Fl.isNan_of_isFinite hb]

theorem Fl.lt_iff_rank_lt {f : Format} {a b : Fl f} (ha : a.isFinite = true) (hb : b.isFinite = true) :
    Fl.lt a b = true ↔ a.rank < b.rank := by
  simp [Fl.lt, Fl.isNan_of_isFinite ha, Fl.isNan_of_isFinite hb]

end Sys2Proof

namespace Sys2Proof.Machine

/-! ## Everything an event can do -/

/-- Everything an event that happens can do: one case for each way a word, a tick or a producer goes.  The
256 steps of the envelope stand under a name, so that no comparison of states unfolds them. -/
inductive EventEffect (s : State) : Event → State → Prop where
  | reset : EventEffect s .reset (resetBlock s)
  | noCommand (w : CmdWord) (r : Reject) : decodeWord w = .error r → EventEffect s (.cmd w) s
  | command (w : CmdWord) (i : Instr) (t : State) : decodeWord w = .ok i → CommandEffect s i t →
      EventEffect s (.cmd w) t
  | tickNotDue (now : Int) : tickFires numF64 s.seq now = false → EventEffect s (.tick now) s
  | tickNoGate (now : Int) : tickFires numF64 s.seq now = true →
      s.pat[nextStep s.seq.step].gate = false →
      EventEffect s (.tick now) (s.setSeq { s.seq with step := nextStep s.seq.step, last := now })
  | tickGate (now : Int) : tickFires numF64 s.seq now = true →
      s.pat[nextStep s.seq.step].gate = true →
      EventEffect s (.tick now)
        (((s.setSeq { s.seq with step := nextStep s.seq.step, last := now }).setEg
          (envTrigger numF64 s.eg)).tuneVco (Config.noteFreq s.pat[nextStep s.seq.step].note))
  | produceLfo : EventEffect s .produceLfo
      ((((s.setCcLfo s.ccLfo.tail).setLfo (oscAfter numF64 s.lfo s.ccLfo.head?)).setCcFm
        (enqueue Config.ccDepth s.ccFm (oscRender numF64 s.lfo s.ccLfo.head?))).setLfoBlocked true)
  | produceEg (after : Env F64) : after = envAfter numF64 bufferLen s.eg → EventEffect s .produceEg
      (((s.setEg after).setCcAm
        (enqueue Config.ccDepth s.ccAm (envRender numF64 s.eg))).setEgBlocked true)
  | produceVco (acc : Bool) : EventEffect s (.produceVco acc)
      (((((s.setCcFm s.ccFm.tail).setCcAm s.ccAm.tail).setVco
        (oscAfter numF64 s.vco s.ccFm.head?)).emit
          (vcaProcess numF64 s.gain (oscRender numF64 s.vco s.ccFm.head?) s.ccAm.head?)).setVcoBlocked
            (!acc))
  | paceLfo : EventEffect s .paceLfo (s.setLfoBlocked false)
  | paceEg : EventEffect s .paceEg (s.setEgBlocked false)
  | ready : EventEffect s .ready (s.setVcoBlocked false)
  | status : EventEffect s .status (s.answer (statusWords s))

/-- An event that happens has one of those effects. -/
theorem happen_effect {e : Event} {s t : State} (h : happen e s = .next t) : EventEffect s e t := by
  cases e with
  | reset => cases Outcome_next_inj.1 h; exact .reset
  | cmd w =>
    rcases runCmd_cases w s with ⟨i, hw, hr⟩ | ⟨r, hw, hr⟩
    · exact .command w i t hw (exec_cases i s t (hr.symm.trans h))
    · cases Outcome_next_inj.1 (hr.symm.trans h); exact .noCommand w r hw
  | tick now =>
    cases Outcome_next_inj.1 h
    rcases seqTick_cases Config.noteFreq now s with ⟨hf, ht⟩ | ⟨hf, hg, ht⟩ | ⟨hf, hg, ht⟩ <;> rw [ht]
    · exact .tickNotDue now hf
    · exact .tickNoGate now hf hg
    · exact .tickGate now hf hg
  | produceLfo => cases Outcome_next_inj.1 h; rw [produceLfo_eq]; exact .produceLfo
  | produceEg => cases Outcome_next_inj.1 h; rw [produceEg_eq]; exact .produceEg _ rfl
  | produceVco acc => cases Outcome_next_inj.1 h; rw [produceVco_eq]; exact .produceVco acc
  | paceLfo => cases Outcome_next_inj.1 h; exact .paceLfo
  | paceEg => cases Outcome_next_inj.1 h; exact .paceEg
  | ready => cases Outcome_next_inj.1 h; exact .ready
  | status => cases Outcome_next_inj.1 h; exact .status

/-- An event that is presented is skipped, or has one of those effects. -/
theorem perform_effect {e : Event} {s t : State} (h : perform e s = .next t) :
    t = s ∨ EventEffect s e t := by
  rcases perform_cases e s with ⟨-, hp⟩ | ⟨-, hp⟩
  · exact .inr (happen_effect (hp.symm.trans h))
  · exact .inl (Outcome_next_inj.1 (hp.symm.trans h)).symm

/-- A property that every effect of an event keeps, and that does not read what is still to come, is kept
by every step. -/
theorem step_preserves_of_effect {P : State → Prop}
    (hq : ∀ {s : State} (l : List Event) (n : Nat), P s → P { s with pending := l, drawn := n })
    (he : ∀ {s e t}, P s → EventEffect s e t → P t) (s t : State) (hs : P s) (h : step s = .next t) :
    P t :=
  step_preserves P (fun s l => hq l s.drawn) (fun s n => hq s.pending n)
    (fun _ _ _ hs h => he hs (happen_effect h)) s t hs h

/-! ## What no command changes -/

/-- The part of the state that no command writes (10_state.md R22, R31, R35). -/
structure CommandKeeps (s t : State) : Prop where
  lfoPhase : t.lfo.phase = s.lfo.phase
  vcoPhase : t.vco.phase = s.vco.phase
  lfoDepth : t.lfo.depth = s.lfo.depth
  gain : t.gain = s.gain
  ccLfo : t.ccLfo = s.ccLfo
  ccFm : t.ccFm = s.ccFm
  ccAm : t.ccAm = s.ccAm
  lfoBlocked : t.lfoBlocked = s.lfoBlocked
  egBlocked : t.egBlocked = s.egBlocked
  vcoBlocked : t.vcoBlocked = s.vcoBlocked
  last : t.seq.last = s.seq.last
  out : t.out = s.out
  answers : t.answers = s.answers
  pending : t.pending = s.pending
  drawn : t.drawn = s.drawn

/-- The one write of each command is to another field. -/
theorem CommandEffect.keeps {s t : State} {i : Instr} (h : CommandEffect s i t) : CommandKeeps s t := by
  cases h <;> constructor <;> rfl

/-! ## Which command writes which parameter -/

/-- The event is a command word that decodes to `i`. -/
def Carries (e : Event) (i : Instr) : Prop := ∃ w, e = .cmd w ∧ decodeWord w = .ok i

/-- A number register after an event: as before, or the legal operand of the command `mk` that the event
carries. -/
def NumberWritten (e : Event) (mk : Val → Instr) (legal : F64 → Bool) (old new : F64) : Prop :=
  new = old ∨ ∃ v, Carries e (mk v) ∧ operandF32 v = some new ∧ legal new = true

section
variable {e : Event} {mk : Val → Instr} {lawful : F64 → Bool} {old new : F64}

theorem NumberWritten.legal (h : NumberWritten e mk lawful old new) (ho : lawful old = true) :
    lawful new = true := by
  rcases h with rfl | ⟨v, -, -, hl⟩
  · exact ho
  · exact hl

/-- An operand is `ext` of a finite binary32 number (30_encoding.md R94). -/
theorem operandF32_binary32Exact {v : Val} {x : F64} (h : operandF32 v = some x) : Binary32Exact x := by
  rw [operandF32_eq, Option.ite_none_right_eq_some] at h
  obtain ⟨hw, hx⟩ := h
  exact ⟨F32.ofBits v, (ofBits_finite v).trans hw, (Option.some.inj hx).symm⟩

theorem NumberWritten.binary32Exact (h : NumberWritten e mk lawful old new) (ho : Binary32Exact old) :
    Binary32Exact new := by
  rcases h with rfl | ⟨v, -, hv, -⟩
  · exact ho
  · exact operandF32_binary32Exact hv

theorem NumberWritten.writer (h : NumberWritten e mk lawful old new) (hne : new ≠ old) :
    ∃ w v, e = .cmd w ∧ decodeWord w = .ok (mk v) := by
  obtain ⟨v, ⟨w, he, hw⟩, -⟩ := h.resolve_left hne
  exact ⟨w, v, he, hw⟩

end

/-- Each parameter register of `t` is that of `s`, or written by a command that names it and that the event
carries (10_state.md R35). -/
structure ParamsWritten (s : State) (e : Event) (t : State) : Prop where
  freq : NumberWritten e .freq legalFinite s.freqReg t.freqReg
  lfo : NumberWritten e .lfo legalFinite s.lfo.freq t.lfo.freq
  depth : NumberWritten e .depth legalFinite s.vco.depth t.vco.depth
  attack : NumberWritten e .attack legalPositive s.eg.attackMs t.eg.attackMs
  decay : NumberWritten e .decay legalPositive s.eg.decayMs t.eg.decayMs
  sustain : NumberWritten e .sustain legalUnit s.eg.sustainLevel t.eg.sustainLevel
  susTime : NumberWritten e .susTime legalNonneg s.eg.sustainMs t.eg.sustainMs
  release : NumberWritten e .release legalPositive s.eg.releaseMs t.eg.releaseMs
  bpm : NumberWritten e .bpm legalPositive s.seq.bpm t.seq.bpm
  gate : ∀ j : Fin 16, t.pat[j].gate = s.pat[j].gate ∨
    ∃ k v, Carries e (.seqGate k v) ∧ k.toNat = j.val
  note : ∀ j : Fin 16, t.pat[j].note = s.pat[j].note ∨
    ∃ k v, Carries e (.seqNote k v) ∧ k.toNat = j.val
  running : t.seq.running = s.seq.running ∨ (∃ v, Carries e (.seqOnOff v)) ∨ Carries e .seqResume ∨
    Carries e .seqSuspend

theorem ParamsWritten.unchanged (s : State) (e : Event) : ParamsWritten s e s where
  freq := .inl rfl
  lfo := .inl rfl
  depth := .inl rfl
  attack := .inl rfl
  decay := .inl rfl
  sustain := .inl rfl
  susTime := .inl rfl
  release := .inl rfl
  bpm := .inl rfl
  gate _ := .inl rfl
  note _ := .inl rfl
  running := .inl rfl

theorem operandIndex_toNat {k : Idx} {j : Fin 16} (h : operandIndex k = some j) : k.toNat = j.val := by
  unfold operandIndex at h
  split at h
  · rw [← Option.some.inj h]
  · cases h

/-- A write to entry `j` shows in no other entry. -/
theorem State.setEntry_getElem_or (s : State) (j m : Fin 16) (x : PatEntry) :
    (s.setEntry j x).pat[m] = s.pat[m] ∨ j = m := by
  by_cases hm : j = m
  · exact .inr hm
  · exact .inl (by simp [Fin.val_ne_of_ne hm])

/-- A field that entry `j` keeps is kept in every entry. -/
theorem State.setEntry_field {α : Type} (f : PatEntry → α) (s : State) {j : Fin 16} {x : PatEntry}
    (m : Fin 16) (hx : f x = f s.pat[j]) : f (s.setEntry j x).pat[m] = f s.pat[m] := by
  rcases s.setEntry_getElem_or j m x with h | rfl
  · rw [h]
  · simpa using hx

theorem CommandEffect.paramsWritten {s t : State} {i : Instr} {e : Event} (h : CommandEffect s i t)
    (he : Carries e i) : ParamsWritten s e t := by
  have hs := ParamsWritten.unchanged s e
  cases h with
  | ignored => exact hs
  | freq v x hx hl => exact { hs with freq := .inr ⟨v, he, hx, hl⟩ }
  | lfo v x hx hl => exact { hs with lfo := .inr ⟨v, he, hx, hl⟩ }
  | depth v x hx hl => exact { hs with depth := .inr ⟨v, he, hx, hl⟩ }
  | attack v x hx hl => exact { hs with attack := .inr ⟨v, he, hx, hl⟩ }
  | decay v x hx hl => exact { hs with decay := .inr ⟨v, he, hx, hl⟩ }
  | sustain v x hx hl => exact { hs with sustain := .inr ⟨v, he, hx, hl⟩ }
  | susTime v x hx hl => exact { hs with susTime := .inr ⟨v, he, hx, hl⟩ }
  | release v x hx hl => exact { hs with release := .inr ⟨v, he, hx, hl⟩ }
  | bpm v x hx hl => exact { hs with bpm := .inr ⟨v, he, hx, hl⟩ }
  | trigger => exact { hs with }
  | seqGate k v j b hk =>
    exact { hs with
      gate := fun m => (s.setEntry_getElem_or j m _).imp (congrArg _) fun hm =>
        ⟨k, v, he, (operandIndex_toNat hk).trans (congrArg Fin.val hm)⟩
      note := fun m => .inl (s.setEntry_field PatEntry.note m rfl) }
  | seqNote k v j n hk =>
    exact { hs with
      gate := fun m => .inl (s.setEntry_field PatEntry.gate m rfl)
      note := fun m => (s.setEntry_getElem_or j m _).imp (congrArg _) fun hm =>
        ⟨k, v, he, (operandIndex_toNat hk).trans (congrArg Fin.val hm)⟩ }
  | seqOnOff v => exact { hs with running := .inr (.inl ⟨v, he⟩) }
  | seqResume => exact { hs with running := .inr (.inr (.inl he)) }
  | seqSuspend => exact { hs with running := .inr (.inr (.inr he)) }
  | seqReset => exact { hs with }

/-- Besides `RESET`, only a command writes a parameter (10_state.md R35): a producer and a tick write none. -/
theorem EventEffect.paramsWritten {s t : State} {e : Event} (h : EventEffect s e t) (hr : e ≠ .reset) :
    ParamsWritten s e t := by
  have hs := ParamsWritten.unchanged s e
  cases h with
  | reset => exact absurd rfl hr
  | command w i t hw hc => exact hc.paramsWritten ⟨w, rfl, hw⟩
  | produceEg after ha =>
    obtain ⟨hA, hD, hS, hT, hR⟩ := ha ▸ envAfter_params numF64 bufferLen s.eg
    exact { hs with
      attack := .inl hA, decay := .inl hD, sustain := .inl hS, susTime := .inl hT, release := .inl hR }
  | _ => exact { hs with }

/-! ## Legal and exactly representable parameters -/

theorem LegalParams.of_written {s t : State} {e : Event} (hs : LegalParams s) (h : ParamsWritten s e t) :
    LegalParams t where
  freq := h.freq.legal hs.freq
  lfo := h.lfo.legal hs.lfo
  depth := h.depth.legal hs.depth
  attack := h.attack.legal hs.attack
  decay := h.decay.legal hs.decay
  sustain := h.sustain.legal hs.sustain
  susTime := h.susTime.legal hs.susTime
  release := h.release.legal hs.release
  bpm := h.bpm.legal hs.bpm

theorem ParamsBinary32.of_written {s t : State} {e : Event} (hs : ParamsBinary32 s)
    (h : ParamsWritten s e t) : ParamsBinary32 t where
  freq := h.freq.binary32Exact hs.freq
  lfo := h.lfo.binary32Exact hs.lfo
  depth := h.depth.binary32Exact hs.depth
  attack := h.attack.binary32Exact hs.attack
  decay := h.decay.binary32Exact hs.decay
  sustain := h.sustain.binary32Exact hs.sustain
  susTime := h.susTime.binary32Exact hs.susTime
  release := h.release.binary32Exact hs.release
  bpm := h.bpm.binary32Exact hs.bpm

theorem legalParams_reset : LegalParams State.reset := by
  constructor <;> decide +kernel

/-- The number with the bits of a well-formed operand. -/
theorem binary32Exact_ofBits {v : Val} (hv : f32WellFormed v = true) {x : F64}
    (hx : x = F32.ext (F32.ofBits v)) : Binary32Exact x :=
  ⟨F32.ofBits v, (ofBits_finite v).trans hv, hx⟩

theorem paramsBinary32_reset : ParamsBinary32 State.reset where
  freq := binary32Exact_ofBits (v := 0x43DC0000#32) (by decide) (by decide +kernel)
  lfo := binary32Exact_ofBits (v := 0x3F800000#32) (by decide) (by decide +kernel)
  depth := binary32Exact_ofBits (v := 0#32) (by decide) (by decide +kernel)
  attack := binary32Exact_ofBits (v := 0x41200000#32) (by decide) (by decide +kernel)
  decay := binary32Exact_ofBits (v := 0x42C80000#32) (by decide) (by decide +kernel)
  sustain := binary32Exact_ofBits (v := 0x3F000000#32) (by decide) (by decide +kernel)
  susTime := binary32Exact_ofBits (v := 0x42C80000#32) (by decide) (by decide +kernel)
  release := binary32Exact_ofBits (v := 0x42C80000#32) (by decide) (by decide +kernel)
  bpm := binary32Exact_ofBits (v := 0x42F00000#32) (by decide) (by decide +kernel)

theorem EventEffect.legalParams {s t : State} {e : Event} (hs : LegalParams s) (h : EventEffect s e t) :
    LegalParams t := by
  by_cases hr : e = .reset
  · subst hr; cases h; exact { legalParams_reset with }
  · exact hs.of_written (h.paramsWritten hr)

theorem EventEffect.paramsBinary32 {s t : State} {e : Event} (hs : ParamsBinary32 s)
    (h : EventEffect s e t) : ParamsBinary32 t := by
  by_cases hr : e = .reset
  · subst hr; cases h; exact { paramsBinary32_reset with }
  · exact hs.of_written (h.paramsWritten hr)

/-! ## Channels -/

theorem WithinDepth.enqueue {q : List Buffer} (h : WithinDepth Config.ccDepth q) (b : Buffer) :
    WithinDepth Config.ccDepth (enqueue Config.ccDepth q b) := by
  intro n hn
  have hq := h n hn
  have hpos := ccDepth_pos hn
  rw [hn]
  by_cases hfull : q.length = n
  · rw [enqueue_full hfull, List.length_append, List.length_tail, List.length_singleton]; omega
  · rw [enqueue_room hfull, List.length_append, List.length_singleton]; omega

theorem WithinDepth.tail {d : Option Nat} {q : List Buffer} (h : WithinDepth d q) :
    WithinDepth d q.tail := fun n hn => (List.tail_sublist q).length_le.trans (h n hn)

theorem withinDepth_nil (d : Option Nat) : WithinDepth d [] := fun n _ => Nat.zero_le n

theorem channelsSound_reset : ChannelsSound State.reset := ⟨rfl, withinDepth_nil _, withinDepth_nil _⟩

theorem EventEffect.channelsSound {s t : State} {e : Event} (hs : ChannelsSound s)
    (h : EventEffect s e t) : ChannelsSound t := by
  cases h with
  | reset => exact { channelsSound_reset with }
  | command w i t hw hc =>
    obtain ⟨hl, hf, ha⟩ := hs
    exact ⟨hc.keeps.ccLfo.trans hl, hc.keeps.ccFm ▸ hf, hc.keeps.ccAm ▸ ha⟩
  | produceLfo => exact ⟨congrArg List.tail hs.ccLfo, hs.ccFm.enqueue _, hs.ccAm⟩
  | produceEg => exact ⟨hs.ccLfo, hs.ccFm, hs.ccAm.enqueue _⟩
  | produceVco => exact ⟨hs.ccLfo, hs.ccFm.tail, hs.ccAm.tail⟩
  | _ => exact { hs with }

/-! ## The VCO's tuning -/

theorem EventEffect.vcoTuned {s t : State} {e : Event} (hs : VcoTuned s) (h : EventEffect s e t) :
    VcoTuned t := by
  cases h with
  | reset => exact .inl rfl
  | command w i t hw hc =>
    cases hc with
    | freq => exact .inl rfl
    | trigger => exact .inl rfl
    | _ => exact hs
  | tickGate => exact .inr ⟨_, rfl⟩
  | _ => exact hs

/-! ## The envelope -/

/-- Only the step that stays in the sustain leaves a counter, and only those that end in idle leave idle's
value (42_envelope.md R153 to R157). -/
theorem EnvelopeSound.envStep {e : Env F64} (h : EnvelopeSound e) :
    EnvelopeSound (envStep numF64 e) := by
  unfold Machine.envStep
  cases hst : e.st with
  | attack =>
    refine ⟨fun _ => h.cnt (by simp [hst]), ?_⟩
    simp only [envAttack, hst]
    split <;> exact fun hc => nomatch hc
  | decay =>
    refine ⟨fun _ => h.cnt (by simp [hst]), ?_⟩
    simp only [envDecay, hst]
    split <;> exact fun hc => nomatch hc
  | sustain =>
    simp only [envSustain]
    split
    · exact ⟨fun _ => rfl, fun hc => nomatch hc⟩
    · exact ⟨fun hc => absurd hst hc, fun hc => nomatch hst.symm.trans hc⟩
  | release =>
    have hcnt := h.cnt (by simp [hst])
    simp only [envRelease]
    split
    · exact ⟨fun _ => hcnt, fun _ => numF64_ofInt 0⟩
    · exact ⟨fun _ => hcnt, fun hc => nomatch hst.symm.trans hc⟩
  | idle => exact ⟨fun _ => h.cnt (by simp [hst]), fun _ => numF64_ofInt 0⟩

theorem EnvelopeSound.envAfter (n : Nat) : ∀ {e : Env F64}, EnvelopeSound e →
    EnvelopeSound (envAfter numF64 n e) := by
  induction n with
  | zero => exact id
  | succ n ih => exact fun h => ih h.envStep

theorem envelopeSound_envTrigger (e : Env F64) : EnvelopeSound (envTrigger numF64 e) :=
  ⟨fun _ => rfl, fun hc => nomatch hc⟩

theorem envelopeSound_reset : EnvelopeSound State.reset.eg := ⟨fun _ => rfl, fun _ => F64.ofInt_zero.symm⟩

theorem EventEffect.envelopeSound {s t : State} {e : Event} (hs : EnvelopeSound s.eg)
    (h : EventEffect s e t) : EnvelopeSound t.eg := by
  cases h with
  | reset => exact envelopeSound_reset
  | command w i t hw hc =>
    cases hc with
    | trigger => exact envelopeSound_envTrigger s.eg
    | _ => exact ⟨hs.cnt, hs.idle⟩
  | tickGate => exact envelopeSound_envTrigger s.eg
  | produceEg after ha =>
    change EnvelopeSound after
    rw [ha]
    exact hs.envAfter bufferLen
  | _ => exact hs

/-! ## The constants and the samples queued for the VCO -/

theorem constantsHeld_reset : ConstantsHeld State.reset := ⟨rfl, F64.ofInt_zero.symm⟩

theorem EventEffect.constantsHeld {s t : State} {e : Event} (hs : ConstantsHeld s)
    (h : EventEffect s e t) : ConstantsHeld t := by
  cases h with
  | reset => exact { constantsHeld_reset with }
  | command w i t hw hc =>
    exact ⟨hc.keeps.gain.trans hs.gain, hc.keeps.lfoDepth.trans hs.lfoDepth⟩
  | _ => exact { hs with }

theorem unitSample_rnd32_sin2pi (p : F64) : UnitSample (F64.rnd32 (F64.sin2pi p)) := by
  rcases F64.sin2pi_cases p with ⟨-, h⟩ | ⟨-, s, k, h, hk⟩ <;> rw [h]
  · exact .inl rfl
  · obtain ⟨c, hc, hle⟩ := F64.rnd32_unit s k hk
    exact .inr ⟨s, c, hc, hle⟩

theorem unitSample_oscRender (o : Osc F64) (m : Option Buffer) :
    ∀ x ∈ (oscRender numF64 o m).toList, UnitSample x := by
  intro x hx
  obtain ⟨p, rfl⟩ := mem_oscSamples numF64 _ _ _ _ x hx
  simpa using unitSample_rnd32_sin2pi p

theorem EventEffect.fmInRange {s t : State} {e : Event} (hs : FmInRange s) (h : EventEffect s e t) :
    FmInRange t := by
  cases h with
  | reset => exact fun b hb => absurd hb List.not_mem_nil
  | command w i t hw hc => exact fun b hb => hs b (hc.keeps.ccFm ▸ hb)
  | produceLfo =>
    intro b hb
    rcases mem_enqueue hb with hb | rfl
    · exact hs b hb
    · exact unitSample_oscRender _ _
  | produceVco => exact fun b hb => hs b (List.mem_of_mem_tail hb)
  | _ => exact hs

/-! ## Every reachable state -/

theorem invariants_reset : Invariants State.reset where
  legal := legalParams_reset
  exact32 := paramsBinary32_reset
  channels := channelsSound_reset
  envelope := envelopeSound_reset
  tuned := .inl rfl
  constants := constantsHeld_reset
  fmRange := fun _ hb => absurd hb List.not_mem_nil

/-- No invariant reads what is still to come. -/
theorem Invariants.schedule {s : State} (l : List Event) (n : Nat) (h : Invariants s) :
    Invariants { s with pending := l, drawn := n } where
  legal := { h.legal with }
  exact32 := { h.exact32 with }
  channels := { h.channels with }
  envelope := h.envelope
  tuned := h.tuned
  constants := { h.constants with }
  fmRange := h.fmRange

theorem EventEffect.invariants {s t : State} {e : Event} (hs : Invariants s) (h : EventEffect s e t) :
    Invariants t where
  legal := h.legalParams hs.legal
  exact32 := h.paramsBinary32 hs.exact32
  channels := h.channelsSound hs.channels
  envelope := h.envelopeSound hs.envelope
  tuned := h.vcoTuned hs.tuned
  constants := h.constantsHeld hs.constants
  fmRange := h.fmInRange hs.fmRange

theorem Reachable.invariants {s : State} (h : Reachable s) : Invariants s := by
  induction h with
  | reset events => exact invariants_reset.schedule events 0
  | step s t _ hst ih =>
    exact step_preserves_of_effect Invariants.schedule EventEffect.invariants s t ih hst

/-! ## Legal operands by their bits -/

section
variable {y : F32} (hy : y.isFinite = true)
include hy

/-! `ext` keeps the order, so the ranges of 10_state.md R36 are ranges of the binary32 operand's rank. -/

theorem zero_le_ext_iff : Fl.le (F64.ofInt 0) (F32.ext y) = true ↔ 0 ≤ y.rank := by
  rw [← F32.ext_zero, F32.ext_le _ _ rfl hy, Fl.le_iff_rank_le rfl hy]
  rfl

theorem legalPositive_ext : legalPositive (F32.ext y) = true ↔ 0 < y.rank := by
  rw [legalPositive, F32.ext_isFinite, hy, Bool.true_and, ← F32.ext_zero, F32.ext_lt _ _ rfl hy,
    Fl.lt_iff_rank_lt rfl hy]
  rfl

theorem legalNonneg_ext : legalNonneg (F32.ext y) = true ↔ 0 ≤ y.rank := by
  rw [legalNonneg, F32.ext_isFinite, hy, Bool.true_and, zero_le_ext_iff hy]

theorem legalUnit_ext : legalUnit (F32.ext y) = true ↔ 0 ≤ y.rank ∧ y.rank ≤ 0x3F800000 := by
  rw [legalUnit, Bool.and_eq_true, zero_le_ext_iff hy, ← F32.ext_one, F32.ext_le _ _ hy rfl,
    Fl.le_iff_rank_le hy rfl]
  rfl

end

/-- The rank of a well-formed operand: its bits as a number, from the sign bit on counted downwards. -/
theorem rank_ofBits {v : Val} (hv : f32WellFormed v = true) :
    (F32.ofBits v).rank = if v.toNat < 0x80000000 then (v.toNat : Int) else 0x80000000 - v.toNat := by
  have hlt := v.isLt
  have hbits : F32.ofBits v = .fin v.msb ⟨v.toNat % 2 ^ 31, (magnitude_lt v).2 hv⟩ :=
    dif_pos ((magnitude_lt v).2 hv)
  rw [hbits, Fl.rank, BitVec.msb_eq_decide]
  simp only [decide_eq_true_eq]
  split <;> split <;> omega

theorem f32WellFormed_iff (v : Val) : f32WellFormed v = true ↔
    v.toNat < 0x7F800000 ∨ 0x80000000 ≤ v.toNat ∧ v.toNat < 0xFF800000 := by
  have hlt := v.isLt
  rw [← magnitude_lt]
  omega

/-- An operand is accepted iff it is well formed and legal. -/
theorem acceptsF32_iff (legal : F64 → Bool) (v : Val) : acceptsF32 legal v = true ↔
    f32WellFormed v = true ∧ legal (F32.ext (F32.ofBits v)) = true := by
  rw [acceptsF32, operandF32_eq]
  cases f32WellFormed v <;> simp

/-- A range of ranks, read off the bits. -/
theorem acceptsF32_iff_of_rank {legal : F64 → Bool} {P : Int → Prop}
    (hl : ∀ {y : F32}, y.isFinite = true → (legal (F32.ext y) = true ↔ P y.rank)) (v : Val) :
    acceptsF32 legal v = true ↔ v.toNat < 0x7F800000 ∧ P v.toNat ∨
      (0x80000000 ≤ v.toNat ∧ v.toNat < 0xFF800000) ∧ P (0x80000000 - v.toNat) := by
  rw [acceptsF32_iff]
  by_cases hv : f32WellFormed v = true
  · have hbits := (f32WellFormed_iff v).1 hv
    rw [hl ((ofBits_finite v).trans hv), rank_ofBits hv]
    split
    · have hpos : v.toNat < 0x7F800000 := by omega
      have hneg : ¬ 0x80000000 ≤ v.toNat := by omega
      simp [hv, hpos, hneg]
    · have hpos : ¬ v.toNat < 0x7F800000 := by omega
      have hneg : 0x80000000 ≤ v.toNat ∧ v.toNat < 0xFF800000 := by omega
      simp [hv, hpos, hneg]
  · have hbits := not_or.1 (mt (f32WellFormed_iff v).2 hv)
    simp [hv, hbits]

theorem acceptsF32_legalFinite (v : Val) : acceptsF32 legalFinite v = f32WellFormed v := by
  rw [Bool.eq_iff_iff, acceptsF32_iff, legalFinite, F32.ext_isFinite, ofBits_finite, and_self]

theorem acceptsF32_legalPositive (v : Val) : acceptsF32 legalPositive v = true ↔
    0 < v.toNat ∧ v.toNat < 0x7F800000 := by
  rw [acceptsF32_iff_of_rank legalPositive_ext]
  omega

theorem acceptsF32_legalUnit (v : Val) : acceptsF32 legalUnit v = true ↔
    v.toNat ≤ 0x3F800000 ∨ v = 0x80000000#32 := by
  rw [acceptsF32_iff_of_rank (P := fun r => 0 ≤ r ∧ r ≤ 0x3F800000) legalUnit_ext, BitVec.toNat_eq,
    BitVec.toNat_ofNat]
  omega

theorem acceptsF32_legalNonneg (v : Val) : acceptsF32 legalNonneg v = true ↔
    v.toNat < 0x7F800000 ∨ v = 0x80000000#32 := by
  rw [acceptsF32_iff_of_rank legalNonneg_ext, BitVec.toNat_eq, BitVec.toNat_ofNat]
  omega

/-! ## The answer to `STATUS` -/

/-- A finite number has one bit pattern, whatever a NaN's would be. -/
theorem toBits_of_isFinite {y : F32} (hy : y.isFinite = true) (free : Val) :
    F32.toBits free y = F32.toBits 0#32 y := by
  obtain ⟨s, k, rfl⟩ := Fl.isFinite_iff.1 hy
  rfl

/-- The image of a register is exact (10_state.md R37). -/
theorem statusReal_ext {y : F32} (hy : y.isFinite = true) (pos : Nat) :
    statusReal pos (F32.ext y) = F32.toBits 0#32 y := by
  rw [statusReal, F64.rnd32_ext, toBits_of_isFinite hy]

section
variable (s : State)

theorem statusParams_length (base : Nat) : (statusParams base s).length = 10 := rfl

/-- Words 10 to 25 are the gates (10_state.md R41). -/
theorem statusWords_gate (i : Fin 16) : (statusWords s)[10 + i.val] = statusBool s.pat[i].gate := by
  simp [statusWords, List.getElem_append, statusParams_length]

/-- Words 26 to 41 are the notes (10_state.md R41). -/
theorem statusWords_note (i : Fin 16) : (statusWords s)[26 + i.val] = statusNote s.pat[i].note := by
  have hparam : ¬ 26 + i.val < 10 := by omega
  have hgate : ¬ 26 + i.val - 10 < 16 := by omega
  have hnote : 26 + i.val - 10 - 16 = i.val := by omega
  simp [statusWords, List.getElem_append, statusParams_length, hparam, hgate, hnote]

end

/-! ## The obligations -/

/-- Settles O45: outside `RESET` a parameter is kept or is an operand that passed its command's legality
test, and the reset table is legal. -/
theorem stepKeepsLegalParams : Obligations.StepKeepsLegalParams :=
  step_preserves_of_effect (fun _ _ h => { h with }) EventEffect.legalParams

/-- Settles O46: a write to a full channel drops its oldest buffer first, and `CC_LFO` is only read. -/
theorem stepKeepsChannelBounds : Obligations.StepKeepsChannelBounds :=
  step_preserves_of_effect (fun _ _ h => { h with }) EventEffect.channelsSound

/-- Settles O47: outside `RESET` a parameter is kept or is `ext` of its command's operand, and the reset
values are exact. -/
theorem stepKeepsBinary32Params : Obligations.StepKeepsBinary32Params :=
  step_preserves_of_effect (fun _ _ h => { h with }) EventEffect.paramsBinary32

/-- Settles O9: the operand's rank is read off its bits, and the ranges of R36 are ranges of ranks. -/
theorem legalRangesByBits : Obligations.LegalRangesByBits := fun v =>
  ⟨⟨acceptsF32_legalFinite v, acceptsF32_legalFinite v, acceptsF32_legalFinite v⟩,
    ⟨acceptsF32_legalPositive v, acceptsF32_legalPositive v, acceptsF32_legalPositive v,
      acceptsF32_legalPositive v⟩,
    acceptsF32_legalUnit v, acceptsF32_legalNonneg v⟩

/-- Settles O17: the one write of each command is outside that frame. -/
theorem commandFrame : Obligations.CommandFrame := by
  intro i s t h
  have k := (exec_cases i s t h).keeps
  exact ⟨k.lfoPhase, k.vcoPhase, k.lfoDepth, k.gain, k.ccLfo, k.ccFm, k.ccAm, k.lfoBlocked, k.egBlocked,
    k.vcoBlocked, k.last, k.out, k.answers, k.pending, k.drawn⟩

/-- Settles O18: `ParamsWritten` names the command of each register, so a register that differs has had it. -/
theorem parametersHaveOneWriter : Obligations.ParametersHaveOneWriter := by
  intro e s t h hr
  have k : ParamsWritten s e t := by
    rcases perform_effect h with rfl | h
    · exact .unchanged t e
    · exact h.paramsWritten hr
  refine ⟨k.freq.writer, k.lfo.writer, k.depth.writer, k.attack.writer, k.decay.writer, k.sustain.writer,
    k.susTime.writer, k.release.writer, k.bpm.writer, fun j hne => ?_, fun j hne => ?_, fun hne => ?_⟩
  · obtain ⟨i, v, ⟨w, he, hw⟩, hi⟩ := (k.gate j).resolve_left hne
    exact ⟨w, i, v, he, hw, hi⟩
  · obtain ⟨i, v, ⟨w, he, hw⟩, hi⟩ := (k.note j).resolve_left hne
    exact ⟨w, i, v, he, hw, hi⟩
  · obtain ⟨v, w, he, hw⟩ | ⟨w, he, hw⟩ | ⟨w, he, hw⟩ := k.running.resolve_left hne
    · exact ⟨w, he, .inl ⟨v, hw⟩⟩
    · exact ⟨w, he, .inr (.inl hw)⟩
    · exact ⟨w, he, .inr (.inr hw)⟩

/-- Settles O40: of all effects only `PRODUCE(VCO, _)` emits. -/
theorem outputOnlyGrows : Obligations.OutputOnlyGrows := by
  intro e s t h
  rcases perform_effect h with rfl | h
  · exact .inl rfl
  cases h with
  | command w i t hw hc => exact .inl hc.keeps.out
  | produceVco acc => exact .inr ⟨⟨acc, rfl⟩, _, rfl⟩
  | _ => exact .inl rfl

/-- Settles O44: `rnd32` undoes `ext`, and a finite number has one bit pattern. -/
theorem statusAnswer : Obligations.StatusAnswer := by
  intro s
  refine ⟨statusWords s, rfl, fun y hy => ?_, rfl, statusWords_gate s, statusWords_note s⟩
  have himage : ∀ {x : F64} (pos : Nat), x = F32.ext y → statusReal pos x = F32.toBits 0#32 y := by
    rintro _ pos rfl
    exact statusReal_ext hy pos
  exact ⟨himage _, himage _, himage _, himage _, himage _, himage _, himage _, himage _, himage _⟩

/-- Settles O49: `FREQ`, `TRIGGER` and `RESET` leave the VCO at `FREQ`, a gated step of the sequencer at its
note, and nothing else writes either register. -/
theorem stepKeepsVcoTuned : Obligations.StepKeepsVcoTuned :=
  step_preserves_of_effect (fun _ _ h => h) EventEffect.vcoTuned

/-- Settles O53, by induction on the steps from reset: each event keeps each invariant. -/
theorem reachableStatesSound : Obligations.ReachableStatesSound := fun _ => Reachable.invariants

/-- Settles O39: `enabled` is the flags, and `READY` rewrites a flag that is already clear. -/
theorem unblockingEvents : Obligations.UnblockingEvents := by
  intro s
  refine ⟨rfl, rfl, fun _ => rfl, rfl, rfl, fun e he => ?_, fun hb => perform_enabled hb,
    fun hb => perform_enabled hb, rfl, fun hb => ?_⟩
  · rcases perform_cases e s with ⟨ht, -⟩ | ⟨-, hp⟩
    · cases he.symm.trans ht
    · exact hp
  · rw [perform_ready, ← hb]; rfl

/-- Settles O42: the literals of the table are the numbers their codes stand for. -/
theorem resetTable : Obligations.ResetTable := by
  have hzero : zero64 = F64.ofInt 0 := F64.ofInt_zero.symm
  have hfreq : Config.resetParams.freq = F64.ofInt 440 := by decide +kernel
  refine ⟨⟨hzero, hzero⟩, ⟨hfreq, hfreq⟩, ?_, hzero, hzero, ?_, rfl, ?_, ?_, ⟨rfl, rfl, rfl⟩, rfl, rfl, rfl⟩
  · decide +kernel
  · decide +kernel
  · decide +kernel
  · decide +kernel

/-- Settles O52: the table meets each invariant. -/
theorem resetMeetsInvariants : Obligations.ResetMeetsInvariants := invariants_reset

end Sys2Proof.Machine

/-! The byte formats of 20_memory.md: a binary32 number is the number of its bits, and the samples of a
buffer lie in its wire form four bytes apart. -/

namespace Sys2Proof

/-! ## A binary32 number and its bits -/

theorem packF32_toNat {neg : Bool} {code : Nat} (hc : code < 2 ^ 31) :
    (packF32 neg code).toNat = (if neg then 2 ^ 31 else 0) + code := by
  rw [packF32, BitVec.toNat_ofNat]
  split <;> omega

theorem packF32_msb {neg : Bool} {code : Nat} (hc : code < 2 ^ 31) :
    (packF32 neg code).msb = neg := by
  rw [BitVec.msb_eq_decide, packF32_toNat hc]
  cases neg
  · simpa using hc
  · simp

/-- The bits below the sign are the magnitude code. -/
theorem packF32_magnitude {neg : Bool} {code : Nat} (hc : code < 2 ^ 31) :
    (packF32 neg code).toNat % 2 ^ 31 = code := by
  rw [packF32_toNat hc]
  split <;> omega

theorem ofBits_packF32_of_lt {neg : Bool} (k : Fin binary32.top) :
    F32.ofBits (packF32 neg k.val) = .fin neg k := by
  have hk : k.val < 2 ^ 31 := k.isLt.trans (by decide)
  simp only [F32.ofBits, packF32_magnitude hk, packF32_msb hk, dif_pos k.isLt]

theorem ofBits_packF32_top (neg : Bool) : F32.ofBits (packF32 neg binary32.top) = .inf neg := by
  cases neg <;> rfl

/-- A magnitude code above infinity's is a NaN's. -/
theorem ofBits_packF32_of_gt {neg : Bool} {code : Nat} (hc : code < 2 ^ 31) (hgt : binary32.top < code) :
    F32.ofBits (packF32 neg code) = .nan := by
  rw [F32.ofBits, packF32_magnitude hc, dif_neg hgt.le.not_gt, if_neg hgt.ne']

/-- Whatever the free value, a NaN's bits are a NaN's (20_memory.md R63). -/
theorem ofBits_nanBits (free : Val) : F32.ofBits (nanBits free) = .nan := by
  unfold nanBits
  split
  · exact ofBits_packF32_of_gt (by decide) (by decide)
  · have htop : binary32.top = 0x7F800000 := rfl
    exact ofBits_packF32_of_gt (by omega) (by omega)

/-- Reading the bits of a number back gives the number: a finite value with its sign, an infinity, or some
NaN (20_memory.md R63). -/
theorem ofBits_toBits (free : Val) : ∀ x : F32, F32.ofBits (F32.toBits free x) = x
  | .nan => ofBits_nanBits free
  | .inf s => ofBits_packF32_top s
  | .fin _ k => ofBits_packF32_of_lt k

end Sys2Proof

namespace Sys2Proof.Machine

/-! ## Four little-endian bytes -/

@[simp] theorem leBytes_length (v : BitVec 32) : (leBytes v).length = 4 := rfl

theorem leBytes_getElem? (v : BitVec 32) (k : Fin 4) :
    (leBytes v)[k.val]? = some (v.extractLsb' (8 * k.val) 8) := by
  fin_cases k <;> rfl

theorem ofLeBytes_extract (v : BitVec 32) :
    ofLeBytes (v.extractLsb' 0 8) (v.extractLsb' 8 8) (v.extractLsb' 16 8) (v.extractLsb' 24 8) = v := by
  apply BitVec.eq_of_toNat_eq
  have := v.isLt
  unfold ofLeBytes
  simp only [toNat_append_eq, BitVec.extractLsb'_toNat, Nat.shiftRight_eq_div_pow]
  omega

/-! ## Consecutive samples -/

theorem sampleBytes_length (pos : Nat) (xs : List F32) : (sampleBytes pos xs).length = 4 * xs.length := by
  induction xs generalizing pos with
  | nil => rfl
  | cons x xs ih => rw [sampleBytes, List.length_append, ih, leBytes_length, List.length_cons]; ring

/-- Sample `i` of a list lies in the bytes `4·i` to `4·i + 3` (20_memory.md R62). -/
theorem sampleBytes_getElem? (pos : Nat) (xs : List F32) (i : Nat) (hi : i < xs.length) (k : Fin 4) :
    (sampleBytes pos xs)[4 * i + k.val]? =
      some ((F32.toBits (Config.nanAudio (pos + i)) xs[i]).extractLsb' (8 * k.val) 8) := by
  induction xs generalizing pos i with
  | nil => exact absurd hi (Nat.not_lt_zero i)
  | cons x xs ih =>
    cases i with
    | zero =>
      rw [sampleBytes, List.getElem?_append_left (by simp), Nat.mul_zero, Nat.zero_add]
      exact leBytes_getElem? _ k
    | succ i =>
      have hrest : 4 * (i + 1) + k.val - 4 = 4 * i + k.val := by omega
      rw [sampleBytes, List.getElem?_append_right (by simp; omega), leBytes_length, hrest,
        ih (pos + 1) i (Nat.lt_of_succ_lt_succ hi), Nat.add_right_comm]
      rfl

theorem samplesOfBytes_leBytes_append (v : BitVec 32) {rest : List Byte} {xs : List F32}
    (h : samplesOfBytes rest = some xs) :
    samplesOfBytes (leBytes v ++ rest) = some (F32.ofBits v :: xs) := by
  simp only [leBytes, List.cons_append, List.nil_append, samplesOfBytes, h, ofLeBytes_extract]

/-- Reading the bytes of samples back gives the samples, wherever in the stream they were. -/
theorem samplesOfBytes_sampleBytes (pos : Nat) (xs : List F32) :
    samplesOfBytes (sampleBytes pos xs) = some xs := by
  induction xs generalizing pos with
  | nil => rfl
  | cons x xs ih => rw [sampleBytes, samplesOfBytes_leBytes_append _ (ih (pos + 1)), ofBits_toBits]

/-! ## A buffer -/

theorem bufferBytes_length (n : Nat) (b : Buffer) : (bufferBytes n b).length = 1024 := by
  rw [bufferBytes, sampleBytes_length, Vector.length_toList, bufferLen]

theorem bufferBytes_getElem? (n : Nat) (b : Buffer) (i : Fin bufferLen) (k : Fin 4) :
    (bufferBytes n b)[4 * i.val + k.val]? =
      some ((F32.toBits (Config.nanAudio (n * bufferLen + i.val)) b[i]).extractLsb' (8 * k.val) 8) := by
  have hi : i.val < b.toList.length := by rw [Vector.length_toList]; exact i.isLt
  rw [bufferBytes, sampleBytes_getElem? _ _ _ hi, Vector.getElem_toList]
  rfl

theorem bufferOfBytes_bufferBytes (n : Nat) (b : Buffer) : bufferOfBytes (bufferBytes n b) = some b := by
  rw [bufferOfBytes, bufferBytes, samplesOfBytes_sampleBytes]
  exact dif_pos (Vector.length_toList (xs := b))

/-- Settles O59, by induction on the samples: each is its four bytes, and its bits read back as itself. -/
theorem bufferWireForm : Obligations.BufferWireForm := fun n b =>
  ⟨bufferBytes_length n b, bufferBytes_getElem? n b, bufferOfBytes_bufferBytes n b⟩

end Sys2Proof.Machine

/-! The command words of 30_encoding.md: what decoding reads from a word, what `exec` does with a malformed or
illegal operand, and which words a textual message is sent as. -/

namespace Sys2Proof

/-! ## Decoding and encoding -/

/-- A word decodes to a command iff it agrees with the word sent for the command in the opcode and in the
fields the opcode uses (30_encoding.md R93, R100). -/
theorem decodeWord_eq_ok_iff (w : CmdWord) (i : Instr) : decodeWord w = .ok i ↔
    CmdWord.opc w = CmdWord.opc (encode i) ∧
      (i.usesIdx = true → CmdWord.idx w = CmdWord.idx (encode i)) ∧
      (i.usesVal = true → CmdWord.val w = CmdWord.val (encode i)) := by
  constructor
  · intro h
    unfold decodeWord at h
    split at h
    case h_17 => cases h
    all_goals
      next hopc =>
        cases h
        simp [encode, Instr.usesIdx, Instr.usesVal, BitVec.toNat_eq, hopc]
  · -- The opcode selects the branch, and the fields it uses are the command's operands.
    rintro ⟨hopc, hidx, hval⟩
    cases i <;> simp_all [decodeWord, encode, Instr.usesIdx, Instr.usesVal]

theorem decodeWord_encode (i : Instr) : decodeWord (encode i) = .ok i :=
  (decodeWord_eq_ok_iff _ i).2 ⟨rfl, fun _ => rfl, fun _ => rfl⟩

theorem encode_rsv (i : Instr) : CmdWord.rsv (encode i) = 0#16 := by
  cases i <;> exact packWord_rsv _ _ _

theorem encode_idx_of_unused {i : Instr} (h : i.usesIdx = false) : CmdWord.idx (encode i) = 0#8 := by
  cases i with
  | seqGate | seqNote => cases h
  | _ => exact packWord_idx _ _ _

theorem encode_val_of_unused {i : Instr} (h : i.usesVal = false) : CmdWord.val (encode i) = 0#32 := by
  cases i with
  | trigger | seqResume | seqSuspend | seqReset => exact packWord_val _ _ _
  | _ => cases h

/-- The decoder names every opcode that 30_encoding.md R93 does not assign. -/
theorem decodeWord_of_unassigned {w : CmdWord}
    (h : (CmdWord.opc w).toNat ∉ [0x01, 0x02, 0x03, 0x04, 0x05, 0x06, 0x07, 0x08, 0x09, 0x0A, 0x0B, 0x0C,
      0x0D, 0x10, 0x11, 0x12]) : decodeWord w = .error (.unassigned (CmdWord.opc w)) := by
  unfold decodeWord
  split
  case h_17 => rfl
  all_goals
    next hopc => exact absurd h (by simp [hopc])

end Sys2Proof

namespace Sys2Proof.Machine

/-! ## Running a command word -/

theorem runCmd_of_ok {w : CmdWord} {i : Instr} (h : decodeWord w = .ok i) (s : State) :
    runCmd w s = exec i s := by
  simp [runCmd, h]

theorem runCmd_of_error {w : CmdWord} {r : Reject} (h : decodeWord w = .error r) (s : State) :
    runCmd w s = .next s := by
  simp [runCmd, h]

theorem step_of_pending {s : State} {e : Event} {rest : List Event} (h : s.pending = e :: rest) :
    step s = perform e (s.setPending rest) := by
  simp [step, nextEvent, h]

/-! ## Commands that are not accepted -/

theorem withF32_of_not_accepts {legal : F64 → Bool} {v : Val} (h : acceptsF32 legal v = false)
    (write : F64 → State) (s : State) : withF32 legal v write s = .next s := by
  rcases withF32_cases legal v write s with ⟨x, hx, hl, -⟩ | ⟨-, he⟩
  · simp [acceptsF32, hx, hl] at h
  · exact he

theorem withBool_of_none {v : Val} (h : (operandBool v).isSome = false) (write : Bool → State) (s : State) :
    withBool v write s = .next s := by
  rcases withBool_cases v write s with ⟨b, hb, -⟩ | ⟨-, he⟩
  · simp [hb] at h
  · exact he

theorem withIndexBool_of_none {i : Idx} {v : Val}
    (h : ((operandIndex i).isSome && (operandBool v).isSome) = false) (write : Fin 16 → Bool → State)
    (s : State) : withIndexBool i v write s = .next s := by
  rcases withIndexBool_cases i v write s with ⟨k, b, hk, hb, -⟩ | ⟨-, he⟩
  · simp [hk, hb] at h
  · exact he

theorem withIndexNote_of_none {i : Idx} {v : Val}
    (h : ((operandIndex i).isSome && (operandNote v).isSome) = false) (write : Fin 16 → Fin 128 → State)
    (s : State) : withIndexNote i v write s = .next s := by
  rcases withIndexNote_cases i v write s with ⟨k, n, hk, hn, -⟩ | ⟨-, he⟩
  · simp [hk, hn] at h
  · exact he

/-- A command that fails a check of 30_encoding.md R96 is a no-op (R98, R99). -/
theorem exec_of_not_accepted {i : Instr} (h : accepted i = false) (s : State) : exec i s = .next s := by
  cases i with
  | trigger | seqResume | seqSuspend | seqReset => cases h
  | seqGate k v => exact withIndexBool_of_none h _ s
  | seqNote k v => exact withIndexNote_of_none h _ s
  | seqOnOff v => exact withBool_of_none h _ s
  | _ => exact withF32_of_not_accepts h _ s

theorem f32WellFormed_of_accepts {legal : F64 → Bool} {v : Val} (h : acceptsF32 legal v = true) :
    f32WellFormed v = true :=
  ((acceptsF32_iff legal v).1 h).1

/-- Only well-formed operands pass the checks of 30_encoding.md R96. -/
theorem wellFormed_of_accepted {i : Instr} (h : accepted i = true) : i.wellFormed = true := by
  cases i with
  | trigger | seqResume | seqSuspend | seqReset => rfl
  | seqGate k v => rwa [accepted, operandIndex_isSome, operandBool_isSome] at h
  | seqNote k v => rwa [accepted, operandIndex_isSome, operandNote_isSome] at h
  | seqOnOff v => rwa [accepted, operandBool_isSome] at h
  | _ => exact f32WellFormed_of_accepts h

/-! ## The textual form -/

/-- The bits of a finite number are a well-formed operand. -/
theorem f32WellFormed_toBits {y : F32} (hy : y.isFinite = true) (free : Val) :
    f32WellFormed (F32.toBits free y) = true := by
  rw [← ofBits_finite, ofBits_toBits, hy]

theorem textF32_wellFormed {t : TextValue} {v : Val} (h : textF32 t = some v) : f32WellFormed v = true := by
  cases t with
  | number x =>
    obtain ⟨hfin, hv⟩ := Option.ite_none_right_eq_some.1 h
    rw [← Option.some.inj hv]
    exact f32WellFormed_toBits hfin _
  | absent | boolean | other => cases h

theorem textBool_wellFormed {t : TextValue} {v : Val} (h : textBool t = some v) : boolWellFormed v = true := by
  cases t with
  | boolean b => cases b <;> cases h <;> rfl
  | absent | number | other => cases h

theorem textNat_lt {bound n : Nat} {t : TextValue} (h : textNat bound t = some n) : n < bound := by
  cases t with
  | number x => exact List.mem_range.1 (List.mem_of_find?_eq_some h)
  | absent | boolean | other => cases h

theorem indexWellFormed_ofNat {n : Nat} (h : n < 16) : indexWellFormed (BitVec.ofNat 8 n) = true := by
  rw [indexWellFormed, decide_eq_true_eq, BitVec.toNat_ofNat]
  omega

theorem noteWellFormed_ofNat {n : Nat} (h : n < 128) : noteWellFormed (BitVec.ofNat 32 n) = true := by
  rw [noteWellFormed, decide_eq_true_eq, BitVec.toNat_ofNat]
  omega

/-- The word is the one sent for a command with well-formed operands. -/
def SentWellFormed (w : CmdWord) : Prop := ∃ i : Instr, i.wellFormed = true ∧ encode i = w

/-- A word of a number-valued kind carries a finite number. -/
theorem numberWord_sentWellFormed {mk : Val → Instr} (hmk : ∀ v, (mk v).wellFormed = f32WellFormed v)
    {m : MessageValue} {w : CmdWord} (h : w ∈ numberWord mk m) : SentWellFormed w := by
  cases m with
  | plain t =>
    obtain ⟨v, hv, hw⟩ := Option.map_eq_some_iff.1 (Option.mem_toList.1 h)
    exact ⟨mk v, (hmk v).trans (textF32_wellFormed hv), hw⟩
  | seqObject => cases h

theorem gateWord_sentWellFormed {o : SubObject} {w : CmdWord} (h : gateWord o = some w) :
    SentWellFormed w := by
  unfold gateWord at h
  split at h
  · next n b hn hb =>
    refine ⟨_, ?_, Option.some.inj h⟩
    rw [Instr.wellFormed, indexWellFormed_ofNat (textNat_lt hn), textBool_wellFormed hb, Bool.and_self]
  · cases h

theorem noteWord_sentWellFormed {o : SubObject} {w : CmdWord} (h : noteWord o = some w) :
    SentWellFormed w := by
  unfold noteWord at h
  split at h
  · next n k hn hk =>
    refine ⟨_, ?_, Option.some.inj h⟩
    rw [Instr.wellFormed, indexWellFormed_ofNat (textNat_lt hn), noteWellFormed_ofNat (textNat_lt hk),
      Bool.and_self]
  · cases h

theorem seqWords_sentWellFormed {m : MessageValue} {w : CmdWord} (h : w ∈ seqWords m) :
    SentWellFormed w := by
  cases m with
  | plain => cases h
  | seqObject gate note =>
    rcases List.mem_append.1 h with hg | hn
    · obtain ⟨o, -, ho⟩ := Option.bind_eq_some_iff.1 (Option.mem_toList.1 hg)
      exact gateWord_sentWellFormed ho
    · obtain ⟨o, -, ho⟩ := Option.bind_eq_some_iff.1 (Option.mem_toList.1 hn)
      exact noteWord_sentWellFormed ho

theorem onOffWords_sentWellFormed {m : MessageValue} {w : CmdWord} (h : w ∈ onOffWords m) :
    SentWellFormed w := by
  cases m with
  | plain t =>
    obtain ⟨v, hv, hw⟩ := Option.map_eq_some_iff.1 (Option.mem_toList.1 h)
    exact ⟨.seqOnOff v, textBool_wellFormed hv, hw⟩
  | seqObject => cases h

theorem wordsOf_sentWellFormed {k : Kind} {m : MessageValue} {w : CmdWord} (h : w ∈ wordsOf k m) :
    SentWellFormed w := by
  cases k with
  | trigger => exact ⟨.trigger, rfl, (List.mem_singleton.1 h).symm⟩
  | seqresume => exact ⟨.seqResume, rfl, (List.mem_singleton.1 h).symm⟩
  | seqsuspend => exact ⟨.seqSuspend, rfl, (List.mem_singleton.1 h).symm⟩
  | seqreset => exact ⟨.seqReset, rfl, (List.mem_singleton.1 h).symm⟩
  | seq => exact seqWords_sentWellFormed h
  | seqonoff => exact onOffWords_sentWellFormed h
  | unrecognized => cases h
  | _ => exact numberWord_sentWellFormed (fun _ => rfl) h

/-! ## The obligations -/

/-- Settles O1: the bytes of a word carry the word, and the word sent for a command decodes to it. -/
theorem decodeUndoesEncode : Obligations.DecodeUndoesEncode := by
  intro i rest
  rw [decode_wordBytes, decodeWord_encode]

/-- Settles O2: a word agrees with the sent one in the used fields, and the sent one is 0 in the others. -/
theorem encodeKeepsUsedFields : Obligations.EncodeKeepsUsedFields := by
  intro w i h
  obtain ⟨hopc, hidx, hval⟩ := (decodeWord_eq_ok_iff w i).1 h
  refine ⟨hopc.symm, encode_rsv i, ?_, ?_⟩
  · split
    · next hu => exact (hidx hu).symm
    · next hu => exact encode_idx_of_unused (Bool.eq_false_of_not_eq_true hu)
  · split
    · next hu => exact (hval hu).symm
    · next hu => exact encode_val_of_unused (Bool.eq_false_of_not_eq_true hu)

/-- Settles O3: both words agree in the opcode and the used fields with the word sent for the command. -/
theorem ignoredFieldsDoNotMatter : Obligations.IgnoredFieldsDoNotMatter := by
  intro w w' i h hopc hidx hval
  obtain ⟨ho, hi, hv⟩ := (decodeWord_eq_ok_iff w i).1 h
  exact (decodeWord_eq_ok_iff w' i).2
    ⟨hopc.trans ho, fun hu => (hidx hu).trans (hi hu), fun hu => (hval hu).trans (hv hu)⟩

/-- Settles O4: the decoder rejects the word, and a rejected word is ignored. -/
theorem unassignedOpcodeIsIgnored : Obligations.UnassignedOpcodeIsIgnored := by
  intro w h
  have hdec := decodeWord_of_unassigned h
  exact ⟨hdec, runCmd_of_error hdec⟩

/-- Settles O7: an accepted command has well-formed operands, and one not accepted is ignored. -/
theorem malformedOperandIsIgnored : Obligations.MalformedOperandIsIgnored := by
  intro i s h
  have hacc : accepted i = false :=
    Bool.eq_false_iff.2 (mt wellFormed_of_accepted (Bool.eq_false_iff.1 h))
  exact exec_of_not_accepted hacc s

/-- Settles O8: a command that is not accepted is ignored, whichever check it fails. -/
theorem illegalValueIsIgnored : Obligations.IllegalValueIsIgnored :=
  fun _ s _ hacc => exec_of_not_accepted hacc s

/-- Settles O60: each word is sent for a command with well-formed operands, and decodes to it. -/
theorem textSendsWellFormedWords : Obligations.TextSendsWellFormedWords := by
  intro m w h
  obtain ⟨i, hwf, rfl⟩ := wordsOf_sentWellFormed h
  exact ⟨i, decodeWord_encode i, hwf⟩

/-- Settles O5: the decoder evaluated on each word. -/
theorem writtenWordsDecode : Obligations.WrittenWordsDecode := by
  unfold Obligations.WrittenWordsDecode
  decide

/-- Settles O6: a command is always enabled, and the next event is the oldest presented one. -/
theorem stepRunsDecodedCommand : Obligations.StepRunsDecodedCommand := by
  intro s w rest i hpend hdec
  rw [step_of_pending hpend, perform_cmd, runCmd_of_ok hdec]
  rfl

end Sys2Proof.Machine

/-! The ControlChannels of 40_control_channel.md: which buffers a write keeps, and what the LFO reads from the
channel that nothing writes. -/

namespace Sys2Proof.Machine

/-- A write to a channel within its capacity drops from the front what exceeds it (R122): one buffer when the
channel is full, none when it has room. -/
theorem enqueue_eq_drop {n : Nat} {q : List Buffer} (hn : 0 < n) (hq : q.length ≤ n) (b : Buffer) :
    enqueue (some n) q b = (q ++ [b]).drop (q.length + 1 - n) := by
  by_cases hfull : q.length = n
  · have hne : q ≠ [] := List.ne_nil_of_length_pos (hfull ▸ hn)
    rw [enqueue_full hfull, hfull, Nat.add_sub_cancel_left, List.drop_one, List.tail_append_of_ne_nil hne]
  · have hroom : q.length + 1 - n = 0 := by omega
    rw [enqueue_room hfull, hroom, List.drop_zero]

theorem enqueue_length_le {n : Nat} {q : List Buffer} (hn : 0 < n) (hq : q.length ≤ n) (b : Buffer) :
    (enqueue (some n) q b).length ≤ n := by
  rw [enqueue_eq_drop hn hq, List.length_drop, List.length_append, List.length_singleton]
  omega

/-- `CC.read(CC_LFO)` answers none in every reachable state (R125). -/
theorem Reachable.ccHead_ccLfo {s : State} (h : Reachable s) : ccHead .ccLfo s = none := by
  rw [ccHead_lfo, h.invariants.channels.ccLfo, List.head?_nil]

/-! ## The obligations -/

/-- Settles O36: the excess over the capacity is one buffer exactly when the channel is full. -/
theorem channelKeepsNewest : Obligations.ChannelKeepsNewest :=
  fun _ q b hn hq => ⟨enqueue_eq_drop hn hq b, enqueue_length_le hn hq b, enqueue_unbounded q b⟩

/-- Settles O54: `CC_LFO` is empty in every reachable state, and an absent buffer reads as 0 in every frame. -/
theorem lfoChannelAlwaysEmpty : Obligations.LfoChannelAlwaysEmpty := by
  intro s h
  have hnone := h.ccHead_ccLfo
  exact ⟨hnone, congrArg (controlSamples numF64) hnone⟩

end Sys2Proof.Machine

/-! The oscillators of 41_oscillator.md: their three commands, the phase before each frame under either
realisation of the numbers, the range of a sample, and one production cycle of each node. -/

namespace Sys2Proof

/-! ## Zeros and samples -/

@[simp] theorem F64.isFinite_ofInt_zero : (F64.ofInt 0).isFinite = true := by
  rw [F64.ofInt_zero, Fl.isFinite_fin]

/-- Rounding to binary32 keeps a zero and its sign. -/
theorem F64.rnd32_zero (s : Bool) :
    F64.rnd32 (.fin s ⟨0, by decide⟩) = .fin s ⟨0, by decide⟩ := by
  rw [F64.rnd32_eq_ofQuot, binary64.units_eq_zero.2 rfl, Nat.zero_mul]
  have h := Fl.ofQuot_exact binary32 s ⟨0, by decide⟩ binary64.scale binary64.scale_pos
  rwa [binary32.units_eq_zero.2 rfl, Nat.zero_mul] at h

/-- S3 of 00_scope.md R15: the sample at a zero phase is a zero. -/
theorem F64.isZero_rnd32_sin2pi {p : F64} (hp : p.isZero = true) :
    (F64.rnd32 (F64.sin2pi p)).isZero = true := by
  cases p with
  | nan => cases hp
  | inf s => cases hp
  | fin s k =>
    have hsin : F64.sin2pi (.fin s k) = F64.ofCode (s && (Config.sinFree (.fin s k)).1) 0 :=
      if_pos (of_decide_eq_true hp)
    rw [hsin]
    exact congrArg Fl.isZero (F64.rnd32_zero _)

/-- S2 of 00_scope.md R15: the sample at a finite phase is finite. -/
theorem F64.isFinite_rnd32_sin2pi {p : F64} (hp : p.isFinite = true) :
    (F64.rnd32 (F64.sin2pi p)).isFinite = true := by
  obtain ⟨s, k, hsin, hk⟩ := F64.sin2pi_of_isFinite hp
  obtain ⟨c, hc, -⟩ := F64.rnd32_unit s k hk
  rw [hsin, hc, Fl.isFinite_fin]

/-- A finite control sample times a zero depth leaves a non-zero frequency as it is (R139). -/
theorem Fl.add_mul_zero {f : Format} {freq cv depth : Fl f} (hf : freq.isFinite = true)
    (hfz : freq.isZero = false) (hcv : cv.isFinite = true) (hd : depth.isZero = true) :
    Fl.add freq (Fl.mul cv depth) = freq := by
  obtain ⟨s, i, rfl⟩ := Fl.isFinite_iff.1 hf
  obtain ⟨t, j, rfl⟩ := Fl.isFinite_iff.1 hcv
  cases depth with
  | nan => cases hd
  | inf u => cases hd
  | fin u k =>
    have hk : k.val = 0 := of_decide_eq_true hd
    rw [Fl.mul_zero_right t u j k hk, Fl.add_zero_right s _ i k (of_decide_eq_false hfz) hk]

end Sys2Proof

namespace Sys2Proof.Machine

/-! ## The commands -/

/-- A command that writes a number, its operand accepted, writes `ext` of it (30_encoding.md R94, R96). -/
theorem withF32_of_accepts {legal : F64 → Bool} {v : Val} (h : acceptsF32 legal v = true)
    (write : F64 → State) (s : State) :
    withF32 legal v write s = .next (write (F32.ext (F32.ofBits v))) := by
  obtain ⟨hwf, hlegal⟩ := (acceptsF32_iff legal v).1 h
  exact withF32_some (by rw [operandF32_eq, if_pos hwf]) hlegal write s

/-! ## The phase before a frame -/

section
variable {R B : Type} (num : NumOps R B)

/-- Sample `i` of a render cycle is taken at the phase after the first `i` advances (R130). -/
theorem oscRender_getElem (o : Osc R) (m : Option (Vector B bufferLen)) (i : Nat) (hi : i < bufferLen) :
    (oscRender num o m)[i] =
      num.rnd32 (num.sin2pi (oscPhase num o.freq o.depth o.phase ((controlSamples num m).take i))) := by
  have h := oscSamples_getElem? num o.freq o.depth (controlSamples num m) o.phase i
    (by rwa [controlSamples_length])
  rw [← oscRender_toList, Vector.getElem?_toList, Vector.getElem?_eq_getElem hi] at h
  exact Option.some.inj h

theorem take_controlSamples_length (m : Option (Vector B bufferLen)) {i : Nat} (hi : i ≤ bufferLen) :
    ((controlSamples num m).take i).length = i := by
  rw [List.length_take_of_le (by rwa [controlSamples_length])]

/-- If no advance depends on its control sample, the phase is an iterate of the one advance. -/
theorem oscPhase_eq_iterate {freq depth : R} {advance : R → R} {cvs : List R}
    (h : ∀ phase, ∀ cv ∈ cvs, advancePhase num freq depth phase cv = advance phase) (phase : R) :
    oscPhase num freq depth phase cvs = advance^[cvs.length] phase := by
  induction cvs generalizing phase with
  | nil => rfl
  | cons cv cvs ih =>
    obtain ⟨hcv, hcvs⟩ := List.forall_mem_cons.1 fun x hx phase => h phase x hx
    rw [oscPhase, hcv, ih fun p x hx => hcvs x hx p, List.length_cons, Function.iterate_succ_apply]

end

/-! ## Closed forms over the reals -/

theorem advancePhase_exact (freq depth phase cv : ℝ) :
    advancePhase numExact freq depth phase cv = phase + (freq + cv * depth) / 44100 := by
  simp [advancePhase, sampleRate, numExact]

/-- The increments of the frames add up (R138). -/
theorem oscPhase_exact (freq depth : ℝ) (cvs : List ℝ) (phase : ℝ) :
    oscPhase numExact freq depth phase cvs = phase + (cvs.length * freq + depth * cvs.sum) / 44100 := by
  induction cvs generalizing phase with
  | nil => simp [oscPhase]
  | cons cv cvs ih =>
    rw [oscPhase, ih, advancePhase_exact, List.length_cons, List.sum_cons]
    push_cast
    ring

/-- Sample `i` of a render cycle in closed form (R138). -/
theorem oscRender_exact (o : Osc ℝ) (m : Option (Vector ℝ bufferLen)) (i : Fin bufferLen) :
    (oscRender numExact o m)[i] = Real.sin (2 * Real.pi * (o.phase + (i.val * o.freq +
      o.depth * ((controlSamples numExact m).take i.val).sum) / 44100)) := by
  rw [Fin.getElem_fin, oscRender_getElem, oscPhase_exact, take_controlSamples_length _ _ i.isLt.le]
  rfl

/-- The phase after a render cycle in closed form (R138). -/
theorem oscAfter_exact (o : Osc ℝ) (m : Option (Vector ℝ bufferLen)) : (oscAfter numExact o m).phase =
    o.phase + (256 * o.freq + o.depth * (controlSamples numExact m).sum) / 44100 := by
  rw [oscAfter, oscPhase_exact, controlSamples_length, Nat.cast_ofNat]

/-! ## Without modulation -/

/-- One frame's advance at modulation depth 0 (R139). -/
def unmodulatedAdvance (freq phase : F64) : F64 := Fl.add phase (Fl.div freq (F64.ofInt 44100))

theorem isFinite_of_mem_controlSamples {m : Option Buffer}
    (h : ∀ b ∈ m, ∀ x ∈ b.toList, Fl.isFinite x = true) :
    ∀ cv ∈ controlSamples numF64 m, cv.isFinite = true := by
  intro cv hcv
  cases m with
  | none =>
    rw [List.eq_of_mem_replicate hcv, numF64_ofInt, F64.isFinite_ofInt_zero]
  | some b =>
    obtain ⟨x, hx, rfl⟩ := List.mem_map.1 hcv
    rw [numF64_ext, F32.ext_isFinite, h b rfl x hx]

section
variable {o : Osc F64} (hd : Fl.isZero o.depth = true) (hf : Fl.isFinite o.freq = true)
  (hfz : Fl.isZero o.freq = false)
include hd hf hfz

/-- At depth 0 finite control samples only count the frames (R139). -/
theorem oscPhase_depth_zero {cvs : List F64} (hcvs : ∀ cv ∈ cvs, cv.isFinite = true) :
    oscPhase numF64 o.freq o.depth o.phase cvs = (unmodulatedAdvance o.freq)^[cvs.length] o.phase := by
  refine oscPhase_eq_iterate numF64 (fun phase cv hcv => ?_) o.phase
  rw [advancePhase_f64, Fl.add_mul_zero hf hfz (hcvs cv hcv) hd, unmodulatedAdvance]

/-- At depth 0 the phase before frame `i` is the same whatever finite samples are read (R139). -/
theorem oscPhase_take_depth_zero {m : Option Buffer} (hm : ∀ b ∈ m, ∀ x ∈ b.toList, Fl.isFinite x = true)
    {i : Nat} (hi : i ≤ bufferLen) :
    oscPhase numF64 o.freq o.depth o.phase ((controlSamples numF64 m).take i) =
      (unmodulatedAdvance o.freq)^[i] o.phase := by
  rw [oscPhase_depth_zero hd hf hfz fun cv hcv =>
    isFinite_of_mem_controlSamples hm cv (List.mem_of_mem_take hcv), take_controlSamples_length _ _ hi]

end

/-! ## The producers -/

/-- `PRODUCE(x)` is enabled while `x` is not blocked (10_state.md R33), and then it happens. -/
theorem perform_produceLfo {s : State} (h : s.lfoBlocked = false) :
    perform .produceLfo s = .next (produceLfo Config.ccDepth s) :=
  perform_enabled (by rw [enabled, h, Bool.not_false])

theorem perform_produceEg {s : State} (h : s.egBlocked = false) :
    perform .produceEg s = .next (produceEg Config.ccDepth s) :=
  perform_enabled (by rw [enabled, h, Bool.not_false])

theorem perform_produceVco {s : State} (h : s.vcoBlocked = false) (acc : Bool) :
    perform (.produceVco acc) s = .next (produceVco acc s) :=
  perform_enabled (by rw [enabled, h, Bool.not_false])

/-! ## The obligations -/

/-- Settles O10: a finite operand is legal for all three, and each writes its own registers. -/
theorem oscillatorCommandsComplete : Obligations.OscillatorCommandsComplete := by
  intro v s hv
  have hacc : acceptsF32 legalFinite v = true := (acceptsF32_legalFinite v).trans hv
  exact ⟨withF32_of_accepts hacc _ s, withF32_of_accepts hacc _ s, withF32_of_accepts hacc _ s⟩

/-- Settles O30: the increments add up, and at depth 0 frame `i` of cycle `k` is frame `256 * k + i`. -/
theorem oscillatorClosedForm : Obligations.OscillatorClosedForm := by
  intro o m
  refine ⟨oscRender_exact o m, oscAfter_exact o m, fun k hd hp => ⟨fun i => ?_, ?_⟩⟩
  · rw [oscRender_exact, hd, hp]
    congr 1
    push_cast
    ring
  · rw [oscAfter_exact, hd, hp]
    push_cast
    ring

/-- Settles O31: the sample is the rounded sine of the phase before its frame, which has S2, S3 and S5. -/
theorem oscillatorSampleRange : Obligations.OscillatorSampleRange := by
  rintro o m i p rfl
  rw [Fin.getElem_fin, oscRender_getElem, numF64_rnd32, numF64_sin2pi]
  exact ⟨rfl, unitSample_rnd32_sin2pi _, F64.isFinite_rnd32_sin2pi, F64.isZero_rnd32_sin2pi⟩

/-- Settles O32: with either control input the phase before each frame is the iterate of one advance. -/
theorem depthZeroIgnoresControl : Obligations.DepthZeroIgnoresControl := by
  intro o b hd hf hfz hb
  have hphase : ∀ i ≤ bufferLen,
      oscPhase numF64 o.freq o.depth o.phase ((controlSamples numF64 (some b)).take i) =
        oscPhase numF64 o.freq o.depth o.phase ((controlSamples numF64 (none : Option Buffer)).take i) := by
    intro i hi
    rw [oscPhase_take_depth_zero hd hf hfz (m := some b) (by rintro _ ⟨⟩; exact hb) hi,
      oscPhase_take_depth_zero hd hf hfz (m := none) nofun hi]
  constructor
  · refine Vector.ext fun i hi => ?_
    rw [oscRender_getElem, oscRender_getElem, hphase i hi.le]
  · have h := hphase bufferLen le_rfl
    rw [List.take_of_length_le (controlSamples_length _ _).le,
      List.take_of_length_le (controlSamples_length _ _).le] at h
    rw [oscAfter, oscAfter, h]

/-- Settles O51: only `PRODUCE(LFO)` writes to `CC_FM`, and what it queues are oscillator samples. -/
theorem stepKeepsFmRange : Obligations.StepKeepsFmRange :=
  step_preserves_of_effect (fun _ _ h => h) EventEffect.fmInRange

/-- Settles O37: a producer that is not blocked is enabled, and its writes are those of R135 or R160. -/
theorem controlProducersQueueOneBuffer : Obligations.ControlProducersQueueOneBuffer := by
  refine fun s => ⟨fun hb => ?_, fun hb => ?_⟩
  · rw [perform_produceLfo hb, produceLfo_eq]
    rfl
  · rw [perform_produceEg hb, produceEg_eq]
    -- under a name, so that no comparison of states unfolds the 256 steps
    generalize envAfter numF64 bufferLen s.eg = after
    rfl

/-- Settles O38: a VCO that is not blocked is enabled, and its writes are those of R136. -/
theorem produceVcoEmitsOneBuffer : Obligations.ProduceVcoEmitsOneBuffer := by
  intro acc s hb
  rw [perform_produceVco hb, produceVco_eq]
  rfl

end Sys2Proof.Machine

/-! The envelope of 42_envelope.md: its commands, the length of each phase over the reals, the range of its
value, and the decay that a sustain level of 0 never ends. -/

namespace Sys2Proof

/-! ## A zero decrement -/

theorem Fl.rank_of_isZero {f : Format} {x : Fl f} (h : x.isZero = true) : x.rank = 0 := by
  cases x with
  | nan => cases h
  | inf s => cases h
  | fin s k => simp [Fl.rank, of_decide_eq_true h]

/-- A finite rate times a zero level takes nothing from a number that is no zero (42_envelope.md R154). -/
theorem Fl.sub_mul_zero {f : Format} {x rate level : Fl f} (hx : x.isFinite = true)
    (hxz : x.isZero = false) (hrate : rate.isFinite = true) (hlevel : level.isZero = true) :
    Fl.sub x (Fl.mul rate level) = x := by
  obtain ⟨s, i, rfl⟩ := Fl.isFinite_iff.1 hx
  obtain ⟨t, j, rfl⟩ := Fl.isFinite_iff.1 hrate
  cases level with
  | nan => cases hlevel
  | inf u => cases hlevel
  | fin u k =>
    have hk : k.val = 0 := of_decide_eq_true hlevel
    rw [Fl.mul_zero_right t u j k hk]
    exact Fl.add_zero_right s _ i k (of_decide_eq_false hxz) hk

/-- A finite number from 1 on has a positive rank. -/
theorem F64.rank_pos_of_one_le {x : F64} (hx : x.isFinite = true) (h : Fl.le (F64.ofInt 1) x = true) :
    0 < x.rank := by
  rw [F64.ofInt_one, Fl.le_iff_rank_le rfl hx] at h
  exact lt_of_lt_of_le (by decide) h

end Sys2Proof

namespace Sys2Proof.Machine

/-- A decay step with the sustain level at 0 changes nothing: the decrement is a zero, and the value stays
above the level (70_reset_and_hazards.md R268). -/
theorem envStep_decay_of_sustain_zero {e : Env F64} (hst : e.st = .decay)
    (hS : Fl.isZero e.sustainLevel = true) (hv : Fl.isFinite e.value = true)
    (hone : Fl.le (F64.ofInt 1) e.value = true)
    (hd : Fl.isFinite (perSample numF64 e.decayMs) = true) : envStep numF64 e = e := by
  have hpos := F64.rank_pos_of_one_le hv hone
  have hvz : Fl.isZero e.value = false :=
    Bool.eq_false_iff.2 fun hz => hpos.ne' (Fl.rank_of_isZero hz)
  have hkeep := Fl.sub_mul_zero hv hvz hd hS
  have habove : Fl.le e.value e.sustainLevel = false := by
    simp [Fl.le, Fl.rank_of_isZero hS, hpos]
  rw [envStep, hst]
  simp [envDecay, hkeep, habove]

/-! ## A phase of the envelope -/

/-- A phase of `n` steps: `f k` is the envelope after `k` of them, and the last one leaves for `last`. -/
theorem envAfter_phase {R B : Type} {num : NumOps R B} {f : ℕ → Env R} {e last : Env R} {n : ℕ}
    (hn : 0 < n) (h0 : f 0 = e) (hstay : ∀ k, k + 1 < n → envStep num (f k) = f (k + 1))
    (hleave : ∀ k, n = k + 1 → envStep num (f k) = last) :
    (∀ k < n, envAfter num k e = f k) ∧ envAfter num n e = last := by
  have hin : ∀ k < n, envAfter num k e = f k := by
    intro k
    induction k with
    | zero => exact fun _ => h0.symm
    | succ k ih => intro hk; rw [envAfter_succ', ih (by omega), hstay k hk]
  obtain ⟨k, hk⟩ := Nat.exists_eq_succ_of_ne_zero hn.ne'
  exact ⟨hin, by rw [hk, envAfter_succ', hin k (by omega), hleave k hk]⟩

theorem envAfter_add_of_eq {R B : Type} {num : NumOps R B} {e start : Env R} {m : ℕ}
    (h : envAfter num m e = start) (k : ℕ) : envAfter num (m + k) e = envAfter num k start := by
  rw [envAfter_add, h]

/-- A phase that begins after `m` steps, with its steps counted from there on. -/
theorem envAfter_next_phase {R B : Type} {num : NumOps R B} {f : ℕ → Env R} {e start last : Env R}
    {m n : ℕ} (hstart : envAfter num m e = start)
    (h : (∀ k < n, envAfter num k start = f k) ∧ envAfter num n start = last) :
    (∀ k < n, envAfter num (m + k) e = f k) ∧ envAfter num (m + n) e = last :=
  ⟨fun k hk => (envAfter_add_of_eq hstart k).trans (h.1 k hk), (envAfter_add_of_eq hstart n).trans h.2⟩

/-- A step that leaves the envelope as it is leaves it so for ever. -/
theorem envAfter_of_envStep_eq {R B : Type} {num : NumOps R B} {e : Env R} (h : envStep num e = e) (n : ℕ) :
    envAfter num n e = e := by
  induction n with
  | zero => rfl
  | succ n ih => rw [envAfter_succ, h, ih]

/-! ## Step counts as bounds on the ramps -/

theorem lt_attackSteps_iff {attackMs : ℝ} (hA : 0 < attackMs) (k : ℕ) :
    k < attackSteps attackMs ↔ k * (1000 / (44100 * attackMs)) < 1 := by
  rw [attackSteps, Nat.lt_ceil, mul_div_assoc', div_lt_one (by positivity), lt_div_iff₀ (by norm_num)]

/-- A fall by `δ` a step takes at least one step, and goes on while less than `x` has been taken off. -/
theorem lt_max_one_ceil_div_iff {x δ : ℝ} (hδ : 0 < δ) (k : ℕ) :
    k < max 1 ⌈x / δ⌉₊ ↔ k = 0 ∨ k * δ < x := by
  rw [lt_max_iff, Nat.lt_one_iff, Nat.lt_ceil, lt_div_iff₀ hδ]

theorem lt_decaySteps_iff {decayMs S : ℝ} (hD : 0 < decayMs) (hS : 0 < S) (V : ℝ) (k : ℕ) :
    k < decaySteps V decayMs S ↔ k = 0 ∨ S < V - k * (1000 / (44100 * decayMs) * S) := by
  rw [decaySteps, lt_max_one_ceil_div_iff (by positivity), lt_sub_comm]

theorem lt_releaseSteps_iff {releaseMs : ℝ} (hR : 0 < releaseMs) (V : ℝ) (k : ℕ) :
    k < releaseSteps V releaseMs ↔ k = 0 ∨ 0 < V - k * (1000 / (44100 * releaseMs)) := by
  rw [releaseSteps, lt_max_one_ceil_div_iff (by positivity), sub_pos]

theorem lt_sustainSteps_iff {sustainMs : ℝ} (hT : 0 ≤ sustainMs) (k : ℕ) :
    k < sustainSteps sustainMs ↔ (k : ℝ) ≤ 44100 * (1 / 1000) * sustainMs := by
  rw [sustainSteps, Nat.lt_succ_iff, Nat.le_floor_iff (by positivity)]

/-! ## The phases over the reals -/

theorem Env.with_value_eq_self {R : Type} {e : Env R} {v : R} (h : v = e.value) :
    { e with value := v } = e := by
  rw [h]

/-- One more step of a fall by `δ` a step. -/
theorem sub_mul_sub_eq (V δ : ℝ) (k : ℕ) : V - k * δ - δ = V - (k + 1 : ℕ) * δ := by
  rw [Nat.cast_add_one, add_one_mul, sub_sub]

section
variable {e : Env ℝ}

/-- The attack from 0, to its end (R153). -/
theorem envAfter_attack (hst : e.st = .attack) (hv : e.value = 0) (hA : 0 < e.attackMs) :
    (∀ k < attackSteps e.attackMs,
      envAfter numExact k e = { e with value := k * (1000 / (44100 * e.attackMs)) }) ∧
    envAfter numExact (attackSteps e.attackMs) e =
      { e with value := attackSteps e.attackMs * (1000 / (44100 * e.attackMs)), st := .decay } := by
  have hmore := lt_attackSteps_iff hA
  refine envAfter_phase (f := fun k => { e with value := k * (1000 / (44100 * e.attackMs)) })
    ((hmore 0).2 (by simp)) (Env.with_value_eq_self (by simp [hv])) (fun k hk => ?_) fun k hn => ?_
  · rw [envStep_exact_attack _ (by exact hst), ← add_one_mul, ← Nat.cast_add_one,
      if_neg (not_le.2 ((hmore _).1 hk)), hst]
  · rw [envStep_exact_attack _ (by exact hst), ← add_one_mul, ← Nat.cast_add_one,
      if_pos (not_lt.1 (mt (hmore _).2 hn.not_gt)), hn]

/-- The decay from any value, to its end (R154). -/
theorem envAfter_decay (hst : e.st = .decay) (hD : 0 < e.decayMs) (hS : 0 < e.sustainLevel) :
    (∀ k < decaySteps e.value e.decayMs e.sustainLevel, envAfter numExact k e =
      { e with value := e.value - k * (1000 / (44100 * e.decayMs) * e.sustainLevel) }) ∧
    envAfter numExact (decaySteps e.value e.decayMs e.sustainLevel) e =
      { e with
        value := e.value - decaySteps e.value e.decayMs e.sustainLevel *
          (1000 / (44100 * e.decayMs) * e.sustainLevel)
        st := .sustain } := by
  have hmore := lt_decaySteps_iff hD hS e.value
  refine envAfter_phase
    (f := fun k => { e with value := e.value - k * (1000 / (44100 * e.decayMs) * e.sustainLevel) })
    ((hmore 0).2 (.inl rfl)) (Env.with_value_eq_self (by simp)) (fun k hk => ?_) fun k hn => ?_
  · rw [envStep_exact_decay _ (by exact hst), sub_mul_sub_eq,
      if_neg (not_le.2 (((hmore _).1 hk).resolve_left k.succ_ne_zero)), hst]
  · rw [envStep_exact_decay _ (by exact hst), sub_mul_sub_eq,
      if_pos (not_lt.1 fun h => hn.not_gt ((hmore _).2 (.inr h))), hn]

/-- The sustain from its first step, to its end (R155). -/
theorem envAfter_sustain (hst : e.st = .sustain) (hcnt : e.cnt = 0) (hT : 0 ≤ e.sustainMs) :
    (∀ k < sustainSteps e.sustainMs, envAfter numExact k e =
      { e with value := if k = 0 then e.value else e.sustainLevel, cnt := k }) ∧
    envAfter numExact (sustainSteps e.sustainMs) e =
      { e with value := e.sustainLevel, cnt := 0, st := .release } := by
  have hmore := lt_sustainSteps_iff hT
  refine envAfter_phase
    (f := fun k => { e with value := if k = 0 then e.value else e.sustainLevel, cnt := k })
    (Nat.succ_pos _) (by simp [← hcnt]) (fun k hk => ?_) fun k hn => ?_
  · rw [envStep_exact_sustain _ (by exact hst), if_neg (not_lt.2 ((hmore _).1 hk)),
      if_neg k.succ_ne_zero]
  · rw [envStep_exact_sustain _ (by exact hst), if_pos (not_le.1 (mt (hmore _).2 hn.not_gt))]

/-- The release from any value, to its end (R156). -/
theorem envAfter_release (hst : e.st = .release) (hR : 0 < e.releaseMs) :
    (∀ k < releaseSteps e.value e.releaseMs, envAfter numExact k e =
      { e with value := e.value - k * (1000 / (44100 * e.releaseMs)) }) ∧
    envAfter numExact (releaseSteps e.value e.releaseMs) e = { e with value := 0, st := .idle } := by
  have hmore := lt_releaseSteps_iff hR e.value
  refine envAfter_phase (f := fun k => { e with value := e.value - k * (1000 / (44100 * e.releaseMs)) })
    ((hmore 0).2 (.inl rfl)) (Env.with_value_eq_self (by simp)) (fun k hk => ?_) fun k hn => ?_
  · rw [envStep_exact_release _ (by exact hst), sub_mul_sub_eq,
      if_neg (not_le.2 (((hmore _).1 hk).resolve_left k.succ_ne_zero))]
  · rw [envStep_exact_release _ (by exact hst), sub_mul_sub_eq,
      if_pos (not_lt.1 fun h => hn.not_gt ((hmore _).2 (.inr h)))]

/-- Idle is for ever (R157). -/
theorem envAfter_idle (hst : e.st = .idle) (hv : e.value = 0) (k : ℕ) : envAfter numExact k e = e :=
  envAfter_of_envStep_eq ((envStep_exact_idle e hst).trans (Env.with_value_eq_self hv.symm)) k

end

/-! ## The range of the value -/

/-- Where the value lies in each phase, for an attack increment `a`, a decay rate `d` and a sustain level `S`
(R167). -/
def StageRange (a d S : ℝ) : Stage → ℝ → Prop
  | .attack, v => 0 ≤ v ∧ v < 1
  | .decay, v => S ≤ v ∧ v < 1 + a
  | .sustain, v => -(max 0 (d - 1)) * S ≤ v ∧ v ≤ S
  | .release, v => 0 ≤ v ∧ v ≤ S
  | .idle, v => v = 0

/-- The lower bound of R167 is not above 0. -/
theorem neg_max_mul_nonpos (d : ℝ) {S : ℝ} (hS : 0 ≤ S) : -(max 0 (d - 1)) * S ≤ 0 :=
  mul_nonpos_of_nonpos_of_nonneg (neg_nonpos.2 (le_max_left _ _)) hS

section
variable {a d S : ℝ} (ha : 0 < a) (hS : 0 ≤ S) (hS1 : S ≤ 1)
include ha hS hS1

/-- The ranges of all phases lie within the bounds of R167. -/
theorem StageRange.bounds {st : Stage} {v : ℝ} (h : StageRange a d S st v) :
    -(max 0 (d - 1)) * S ≤ v ∧ v < 1 + a := by
  have hlow := neg_max_mul_nonpos d hS
  cases st with
  | attack => exact ⟨hlow.trans h.1, by linarith [h.2]⟩
  | decay => exact ⟨hlow.trans (hS.trans h.1), h.2⟩
  | sustain => exact ⟨h.1, by linarith [h.2]⟩
  | release => exact ⟨hlow.trans h.1, by linarith [h.2]⟩
  | idle => rw [show v = 0 from h]; exact ⟨hlow, by linarith⟩

section
variable (hd : 0 < d) {e : Env ℝ} (hea : 1000 / (44100 * e.attackMs) = a)
  (hed : 1000 / (44100 * e.decayMs) = d) (heS : e.sustainLevel = S)
  (hr : 0 < 1000 / (44100 * e.releaseMs)) (h : StageRange a d S e.st e.value)
include hd hea hed heS hr h

/-- A step stays in the range of its phase or enters that of the next. -/
theorem StageRange.envStep :
    StageRange a d S (envStep numExact e).st (envStep numExact e).value := by
  have hdS : 0 ≤ d * S := by positivity
  cases hst : e.st <;> rw [hst] at h
  case attack =>
    rw [envStep_exact_attack e hst, hea]
    obtain ⟨h0, h1⟩ := h
    dsimp only
    split_ifs with hlast
    · exact ⟨hS1.trans hlast, by linarith⟩
    · exact ⟨by linarith, not_le.1 hlast⟩
  case decay =>
    rw [envStep_exact_decay e hst, hed, heS]
    obtain ⟨hlow, hhigh⟩ := h
    dsimp only
    split_ifs with hlast
    · have hmax := mul_le_mul_of_nonneg_right (le_max_right 0 (d - 1)) hS
      exact ⟨by linarith, hlast⟩
    · exact ⟨(not_le.1 hlast).le, by linarith⟩
  case sustain =>
    rw [envStep_exact_sustain e hst, heS]
    split_ifs with hlast
    · exact ⟨hS, le_rfl⟩
    · rw [hst]
      exact ⟨(neg_max_mul_nonpos d hS).trans hS, le_rfl⟩
  case release =>
    rw [envStep_exact_release e hst]
    obtain ⟨hlow, hhigh⟩ := h
    split_ifs with hlast
    · exact rfl
    · rw [hst]
      exact ⟨(not_le.1 hlast).le, by linarith⟩
  case idle =>
    rw [envStep_exact_idle e hst, hst]
    exact rfl

/-- No step leaves the ranges of the phases, for parameters that stay constant. -/
theorem StageRange.envAfter (n : ℕ) :
    StageRange a d S (envAfter numExact n e).st (envAfter numExact n e).value := by
  induction n with
  | zero => exact h
  | succ n ih =>
    obtain ⟨hA, hD, hL, -, hR⟩ := envAfter_params numExact n e
    rw [envAfter_succ']
    exact StageRange.envStep ha hS hS1 hd (by rw [hA, hea]) (by rw [hD, hed]) (hL.trans heS) (by rwa [hR]) ih

end

end

/-! ## The obligations -/

/-- Settles O11: the ranges of R36 by their bits are the legal operands, and each command writes its own
register. -/
theorem envelopeCommandsComplete : Obligations.EnvelopeCommandsComplete := by
  refine fun v s => ⟨fun hv => ?_, fun hv => ?_, fun hv => ?_⟩
  · have hacc := (acceptsF32_legalPositive v).2 hv
    exact ⟨withF32_of_accepts hacc _ s, withF32_of_accepts hacc _ s, withF32_of_accepts hacc _ s⟩
  · exact withF32_of_accepts ((acceptsF32_legalUnit v).2 hv) _ s
  · exact withF32_of_accepts ((acceptsF32_legalNonneg v).2 hv) _ s

/-- Settles O23: the value after `k` steps is `k·a`, and the step count is the first `k` with `1 ≤ k·a`. -/
theorem attackStepCount : Obligations.AttackStepCount := by
  intro e hst hv hA
  obtain ⟨hin, hend⟩ := envAfter_attack hst hv hA
  have hpos : 0 < attackSteps e.attackMs := (lt_attackSteps_iff hA 0).2 (by simp)
  have hbefore := (lt_attackSteps_iff hA _).1 (Nat.sub_one_lt hpos.ne')
  rw [Nat.cast_pred hpos] at hbefore
  rw [hend]
  refine ⟨fun k hk => ?_, rfl, rfl, not_lt.1 (mt (lt_attackSteps_iff hA _).2 (lt_irrefl _)), ?_⟩
  · rw [hin k hk]
    exact ⟨hst, rfl⟩
  · dsimp only
    linarith

/-- Settles O24: the value after `k` steps is `V - k·d·S`, and the step count is the first `k ≥ 1` with
`V - k·d·S ≤ S`. -/
theorem decayStepCount : Obligations.DecayStepCount := by
  intro e hst hD hS
  obtain ⟨hin, hend⟩ := envAfter_decay hst hD hS
  have hmore := lt_decaySteps_iff hD hS e.value
  have hpos : 0 < decaySteps e.value e.decayMs e.sustainLevel := (hmore 0).2 (.inl rfl)
  rw [hend]
  refine ⟨fun k hk => ?_, rfl, ?_, fun hV => ?_⟩
  · rw [hin k hk]
    exact ⟨hst, rfl⟩
  · exact not_lt.1 fun h => lt_irrefl _ ((hmore _).2 (.inr h))
  · have hbefore : e.sustainLevel < e.value - (decaySteps e.value e.decayMs e.sustainLevel - 1 : ℕ) *
        (1000 / (44100 * e.decayMs) * e.sustainLevel) := by
      rcases (hmore _).1 (Nat.sub_one_lt hpos.ne') with h | h
      · simpa [h] using hV
      · exact h
    rw [Nat.cast_pred hpos] at hbefore
    dsimp only
    linarith

/-- Settles O25: the counter is the number of steps, and `k` steps stay while `k ≤ Ns`. -/
theorem sustainStepCount : Obligations.SustainStepCount := by
  intro e hst hcnt hT
  obtain ⟨hin, hend⟩ := envAfter_sustain hst hcnt hT
  rw [sustainSteps] at hin hend
  rw [hend]
  refine ⟨fun k hk => ?_, rfl, rfl, rfl⟩
  rw [hin k (Nat.lt_succ_of_le hk)]
  exact ⟨hst, rfl, fun h => if_neg h.ne'⟩

/-- Settles O26: the value after `k` steps is `V - k·r`, and the step count is the first `k ≥ 1` with
`V - k·r ≤ 0`. -/
theorem releaseStepCount : Obligations.ReleaseStepCount := by
  intro e hst hR
  obtain ⟨hin, hend⟩ := envAfter_release hst hR
  rw [hend]
  refine ⟨fun k hk => ?_, rfl, rfl⟩
  rw [hin k hk]
  exact ⟨hst, rfl, ((lt_releaseSteps_iff hR _ k).1 hk).resolve_left ∘ Nat.pos_iff_ne_zero.1⟩

/-- Settles O27: each phase ends in the state where the next begins. -/
theorem wholeEnvelopeLength : Obligations.WholeEnvelopeLength := by
  rintro e nA nD nS nR hst hv hcnt hA hD hS hT hR rfl rfl rfl rfl
  obtain ⟨hattack, hpeak⟩ := envAfter_attack hst hv hA
  obtain ⟨hdecay, hfallen⟩ := envAfter_next_phase hpeak (envAfter_decay rfl hD hS)
  obtain ⟨hsustain, hheld⟩ := envAfter_next_phase hfallen (envAfter_sustain rfl hcnt hT)
  obtain ⟨hrelease, hended⟩ := envAfter_next_phase hheld (envAfter_release rfl hR)
  have hidle (k : ℕ) := (envAfter_add_of_eq hended k).trans (envAfter_idle rfl rfl k)
  exact ⟨fun k hk => (congrArg Env.st (hattack k hk)).trans hst,
    fun k hk => congrArg Env.st (hdecay k hk), fun k hk => congrArg Env.st (hsustain k hk),
    fun k hk => congrArg Env.st (hrelease k hk),
    fun k => ⟨congrArg Env.st (hidle k), congrArg Env.value (hidle k)⟩⟩

/-- Settles O28: each phase keeps the value in its own range, and all ranges lie within the bounds. -/
theorem envelopeValueRange : Obligations.EnvelopeValueRange := by
  intro e k hst hv hA hD hS hS1 hR
  have ha : 0 < 1000 / (44100 * e.attackMs) := by positivity
  have hd : 0 < 1000 / (44100 * e.decayMs) := by positivity
  have hstart : StageRange (1000 / (44100 * e.attackMs)) (1000 / (44100 * e.decayMs)) e.sustainLevel
      e.st e.value := by
    rw [hst, hv]
    exact ⟨le_rfl, one_pos⟩
  exact (StageRange.envAfter ha hS hS1 hd rfl rfl rfl (by positivity) hstart k).bounds ha hS hS1

/-- Settles O29: each step's decrement is a zero, so the value never comes down to the level. -/
theorem decayStuckAtSustainZero : Obligations.DecayStuckAtSustainZero :=
  fun _ n hst hS hv hone hd => envAfter_of_envStep_eq (envStep_decay_of_sustain_zero hst hS hv hone hd) n

/-- Settles O48: of the events only `TRIGGER`, a gated tick, `RESET` and `PRODUCE(EG)` write the envelope's
state, and each of its steps keeps it sound. -/
theorem stepKeepsEnvelopeSound : Obligations.StepKeepsEnvelopeSound :=
  step_preserves_of_effect (fun _ _ h => h) EventEffect.envelopeSound

/-- Settles O12: the writes of `EG.trigger` and of `VCO.freq` are to separate registers. -/
theorem triggerRestartsAndRestores : Obligations.TriggerRestartsAndRestores := by
  intro s
  have htrigger : envTrigger numF64 s.eg = { s.eg with st := .attack, value := F64.ofInt 0, cnt := 0 } := by
    rw [envTrigger, numF64_ofInt]
  rw [← htrigger]
  rfl

end Sys2Proof.Machine

/-! The gain stage of 43_gain_stage.md: each lane of `VCA.process` by itself, for either realisation of the
numbers, and its silence without a control buffer. -/

namespace Sys2Proof

/-- A finite number times 0, rounded to binary32, is a zero (43_gain_stage.md R183). -/
theorem F64.isZero_rnd32_mul_zero {x : F64} (hx : x.isFinite = true) :
    (F64.rnd32 (Fl.mul x (F64.ofInt 0))).isZero = true := by
  obtain ⟨s, k, rfl⟩ := Fl.isFinite_iff.1 hx
  rw [F64.ofInt_zero, Fl.mul_zero_right s false k _ rfl, F64.rnd32_zero]
  rfl

end Sys2Proof

namespace Sys2Proof.Machine

/-! ## A lane -/

section
variable {R B : Type} (num : NumOps R B)

/-- Without a buffer the control sample of every frame is 0 (20_memory.md R68). -/
theorem controlSamples_none_getElem {i : Nat}
    (hi : i < (controlSamples num (none : Option (Vector B bufferLen))).length) :
    (controlSamples num (none : Option (Vector B bufferLen)))[i] = num.ofInt 0 :=
  List.getElem_replicate hi

/-- The control sample of frame `i` is sample `i` of the buffer (20_memory.md R67). -/
theorem controlSamples_some_getElem (b : Vector B bufferLen) {i : Nat} (hi : i < bufferLen) :
    (controlSamples num (some b))[i]'(by rwa [controlSamples_length]) = num.ext b[i] :=
  List.getElem_map num.ext

/-- Lane `i` reads sample `i` of its input and control sample `i`, and no other (43_gain_stage.md R182). -/
theorem vcaProcess_getElem (gain : R) (x : Vector B bufferLen) (m : Option (Vector B bufferLen)) {i : Nat}
    (hi : i < bufferLen) : (vcaProcess num gain x m)[i] =
      vcaLane num gain x[i] ((controlSamples num m)[i]'(by rwa [controlSamples_length])) :=
  List.getElem_zipWith

theorem vcaProcess_none_getElem (gain : R) (x : Vector B bufferLen) (i : Fin bufferLen) :
    (vcaProcess num gain x none)[i] = vcaLane num gain x[i] (num.ofInt 0) := by
  rw [Fin.getElem_fin, vcaProcess_getElem num gain x none i.isLt, controlSamples_none_getElem,
    Fin.getElem_fin]

theorem vcaProcess_some_getElem (gain : R) (x b : Vector B bufferLen) (i : Fin bufferLen) :
    (vcaProcess num gain x (some b))[i] = vcaLane num gain x[i] (num.ext b[i]) := by
  rw [Fin.getElem_fin, vcaProcess_getElem num gain x (some b) i.isLt,
    controlSamples_some_getElem num b i.isLt, Fin.getElem_fin, Fin.getElem_fin]

end

/-- One lane in the operations of `NUM_F64`, in their order (43_gain_stage.md R182). -/
theorem vcaLane_f64 (gain cv : F64) (x : F32) :
    vcaLane numF64 gain x cv = F64.rnd32 (Fl.mul (Fl.mul (F32.ext x) gain) cv) := by
  simp only [vcaLane, numF64_rnd32, numF64_mul, numF64_ext]

/-- Over the reals a lane is the product of its three factors (43_gain_stage.md R182). -/
theorem vcaLane_exact (gain x cv : ℝ) : vcaLane numExact gain x cv = x * gain * cv := rfl

/-! ## The obligations -/

/-- Settles O33: with or without a control buffer a lane is `vcaLane` of its own samples. -/
theorem gainStageLanes : Obligations.GainStageLanes := by
  intro gain x m i
  cases m with
  | none => rw [vcaProcess_none_getElem, vcaLane_f64, numF64_ofInt]
  | some b => rw [vcaProcess_some_getElem, vcaLane_f64, numF64_ext]

/-- Settles O34: a finite product times the control sample 0 is a zero, and rounding keeps it one. -/
theorem silenceWithoutControl : Obligations.SilenceWithoutControl := by
  intro gain x i hfin
  rw [vcaProcess_none_getElem, vcaLane_f64, numF64_ofInt]
  exact F64.isZero_rnd32_mul_zero hfin

/-- Settles O50: no command writes the gain or `LFO.depth`, no other event but `RESET` does, and `RESET`
writes the values they have. -/
theorem stepKeepsConstants : Obligations.StepKeepsConstants :=
  step_preserves_of_effect (fun _ _ h => { h with }) EventEffect.constantsHeld

/-- Settles O35: over the reals neither `ext` nor `rnd32` rounds, and the default control sample is 0. -/
theorem gainStageExactProduct : Obligations.GainStageExactProduct := by
  intro g c x i
  have hzero : numExact.ofInt 0 = 0 := Int.cast_zero
  constructor
  · rw [vcaProcess_some_getElem, vcaLane_exact, Fin.getElem_fin (Vector.replicate bufferLen c),
      Vector.getElem_replicate]
    rfl
  · rw [vcaProcess_none_getElem, vcaLane_exact, hzero, mul_zero]

end Sys2Proof.Machine

/-! The step sequencer of 44_sequencer.md: when a tick fires in either realisation of the numbers, what a row
of ticks does, and the commands that write the sequencer and its pattern. -/

namespace Sys2Proof

/-! ## The order of rounded integers -/

/-- Correct rounding keeps the order of magnitudes (00_scope.md R14).  Were two of them to change places,
both would lie half way between their codes, and so be one. -/
theorem Format.roundCode_mono (f : Format) {m n : Nat} (h : m ≤ n) (den : Nat) (hd : 0 < den) :
    f.roundCode m den ≤ f.roundCode n den := by
  by_contra hlt
  have hm := (f.roundCode_nearest m den hd (f.roundCode n den)).1
  have hn := (f.roundCode_nearest n den hd (f.roundCode m den)).1
  have hu : (f.units (f.roundCode n den) * den : Int) < f.units (f.roundCode m den) * den := by
    exact_mod_cast Nat.mul_lt_mul_of_pos_right (f.units_lt_iff.2 (not_le.1 hlt)) hd
  have hmn : m = n := by
    rw [Int.abs_eq_natAbs, Int.abs_eq_natAbs] at hm hn
    omega
  exact hlt (hmn ▸ le_rfl)

/-- The place of a rounded quotient in the order of its format; an overflow takes the place of `top`. -/
theorem Fl.rank_ofQuot (f : Format) (neg : Bool) (num den : Nat) : (Fl.ofQuot f neg num den).rank =
    if neg then -(min (f.roundCode num den) f.top : Int) else (min (f.roundCode num den) f.top : Int) := by
  rcases Fl.ofQuot_cases f neg num den with ⟨h, he⟩ | ⟨h, he⟩
  · rw [he, min_eq_left (Int.ofNat_le.2 h.le), Fl.rank]
  · rw [he, min_eq_right (Int.ofNat_le.2 h), Fl.rank]

/-- An integer in binary64 is its magnitude in units, rounded, with its sign (00_scope.md R14). -/
theorem F64.ofInt_eq_ofQuot (n : Int) : F64.ofInt n =
    Fl.ofQuot binary64 (decide (n < 0)) (n.natAbs * binary64.scale) 1 := by
  unfold F64.ofInt
  rw [Fl.ofRatio]

theorem F64.rank_ofInt_mono : Monotone fun n : Int => (F64.ofInt n).rank := by
  intro m n hmn
  have hmag {a b : Int} (h : a.natAbs ≤ b.natAbs) := binary64.roundCode_mono
    (Nat.mul_le_mul_right binary64.scale h) 1 one_pos
  simp only [F64.ofInt_eq_ofQuot, Fl.rank_ofQuot, decide_eq_true_eq]
  split <;> split
  · have := hmag (a := n) (b := m) (by omega)
    omega
  · omega
  · omega
  · have := hmag (a := m) (b := n) (by omega)
    omega

theorem Fl.isNan_ofQuot (f : Format) (neg : Bool) (num den : Nat) :
    (Fl.ofQuot f neg num den).isNan = false := by
  rcases Fl.ofQuot_cases f neg num den with ⟨h, he⟩ | ⟨-, he⟩ <;> rw [he] <;> rfl

@[simp] theorem F64.isNan_ofInt (n : Int) : (F64.ofInt n).isNan = false := by
  rw [F64.ofInt_eq_ofQuot, Fl.isNan_ofQuot]

/-- A millisecond more or less at 50 is not rounded away, so no rounding moves the threshold (R191). -/
theorem F64.fifty_le_ofInt (n : Int) : Fl.le (F64.ofInt 50) (F64.ofInt n) = true ↔ 50 ≤ n := by
  have hstrict : (F64.ofInt 49).rank < (F64.ofInt 50).rank := by decide +kernel
  simp only [Fl.le, F64.isNan_ofInt, Bool.not_false, Bool.true_and, decide_eq_true_eq]
  constructor
  · intro h
    by_contra hn
    have : (F64.ofInt n).rank ≤ (F64.ofInt 49).rank := F64.rank_ofInt_mono (by omega : n ≤ 49)
    omega
  · exact fun h => F64.rank_ofInt_mono h

end Sys2Proof

namespace Sys2Proof.Machine

/-! ## When a tick fires -/

/-- R191 and R192 in the operations of `NUM_F64`. -/
theorem tickFires_f64 (q : Sequencer F64) (now : Int) : tickFires numF64 q now =
    (q.running && Fl.le (Fl.div (F64.ofInt 6000) q.bpm) (F64.ofInt (now - q.last))) := by
  simp only [tickFires, stepInterval, numF64_le, numF64_div, numF64_ofInt]

/-- The interval at 120 BPM is exact (R192). -/
theorem div_6000_120 : Fl.div (F64.ofInt 6000) (F64.ofInt 120) = F64.ofInt 50 := by decide +kernel

theorem tickFires_f64_of_120 {q : Sequencer F64} (hrun : q.running = true) (hbpm : q.bpm = F64.ofInt 120)
    (now : Int) : tickFires numF64 q now = true ↔ 50 ≤ now - q.last := by
  rw [tickFires_f64, hrun, hbpm, div_6000_120, Bool.true_and, F64.fifty_le_ofInt]

theorem tickFires_exact_of_running {q : Sequencer ℝ} (hrun : q.running = true) (now : Int) :
    tickFires numExact q now = true ↔ 6000 / q.bpm ≤ ((now - q.last : Int) : ℝ) := by
  rw [tickFires_exact, hrun, Bool.true_and, decide_eq_true_eq]

/-! ## A row of ticks -/

theorem nextStep_val (i : Fin 16) : (nextStep i).val = (i.val + 1) % 16 := Fin.val_add i 1

/-- Ticks that each fire advance one step each, whatever the tempo and the numbers: `due` says of two times
that a tick at the second fires when the first is the timestamp (R191, R208). -/
theorem foldl_seqAfter_of_due {R B : Type} {num : NumOps R B} {bpm : R} {due : Int → Int → Prop}
    (hdue : ∀ (q : Sequencer R) (now : Int), q.running = true → q.bpm = bpm → due q.last now →
      tickFires num q now = true)
    (times : List Int) : ∀ q : Sequencer R, q.running = true → q.bpm = bpm →
      (q.last :: times).IsChain due →
      (times.foldl (fun q now => seqAfter num now q) q).step.val = (q.step.val + times.length) % 16 ∧
        (times.foldl (fun q now => seqAfter num now q) q).last = times.getLast?.getD q.last := by
  induction times with
  | nil => exact fun q _ _ _ => ⟨(Nat.mod_eq_of_lt q.step.isLt).symm, rfl⟩
  | cons now times ih =>
    intro q hrun hbpm hchain
    obtain ⟨hnow, hrest⟩ := List.isChain_cons_cons.1 hchain
    have hq : seqAfter num now q = { q with step := nextStep q.step, last := now } :=
      if_pos (hdue q now hrun hbpm hnow)
    obtain ⟨hstep, hlast⟩ := ih { q with step := nextStep q.step, last := now } hrun hbpm hrest
    rw [List.foldl_cons, hq, hstep, hlast, nextStep_val, List.length_cons, List.getLast?_cons]
    exact ⟨by omega, rfl⟩

/-- Ticks in a row always answer a next state. -/
theorem performAll_ticks (times : List Int) (s : State) : performAll (times.map .tick) s =
    .next (times.foldl (fun s now => seqTick Config.noteFreq now s) s) := by
  induction times generalizing s with
  | nil => rfl
  | cons now times ih => exact ih (seqTick Config.noteFreq now s)

/-- What ticks in a row do to the sequencer's own registers. -/
theorem foldl_seqTick_seq (noteFreq : Fin 128 → F64) (times : List Int) (s : State) :
    (times.foldl (fun s now => seqTick noteFreq now s) s).seq =
      times.foldl (fun q now => seqAfter numF64 now q) s.seq :=
  (List.foldl_hom State.seq fun s now => (seqTick_seq noteFreq now s).symm).symm

/-! ## Operands -/

theorem operandIndex_ofNat (k : Fin 16) : operandIndex (BitVec.ofNat 8 k.val) = some k := by
  revert k; decide

theorem operandBool_of_bool (b : Bool) : operandBool (if b then 1#32 else 0#32) = some b := by
  cases b <;> rfl

theorem operandNote_ofNat (n : Fin 128) : operandNote (BitVec.ofNat 32 n.val) = some n := by
  have hn : (BitVec.ofNat 32 n.val).toNat = n.val := by
    rw [BitVec.toNat_ofNat]; omega
  simp [operandNote, hn]

theorem withBool_some {v : Val} {b : Bool} (h : operandBool v = some b) (write : Bool → State)
    (s : State) : withBool v write s = .next (write b) := by
  simp only [withBool, h]

theorem withIndexBool_some {i : Idx} {v : Val} {k : Fin 16} {b : Bool} (hk : operandIndex i = some k)
    (hb : operandBool v = some b) (write : Fin 16 → Bool → State) (s : State) :
    withIndexBool i v write s = .next (write k b) := by
  simp only [withIndexBool, hk, hb]

theorem withIndexNote_some {i : Idx} {v : Val} {k : Fin 16} {n : Fin 128} (hk : operandIndex i = some k)
    (hn : operandNote v = some n) (write : Fin 16 → Fin 128 → State) (s : State) :
    withIndexNote i v write s = .next (write k n) := by
  simp only [withIndexNote, hk, hn]

/-! ## The obligations -/

/-- Settles O13: the operands are the index and the value they encode, and the command writes the entry. -/
theorem patternCommandsComplete : Obligations.PatternCommandsComplete := fun k s =>
  ⟨fun b => withIndexBool_some (operandIndex_ofNat k) (operandBool_of_bool b) _ s,
    fun n => withIndexNote_some (operandIndex_ofNat k) (operandNote_ofNat n) _ s⟩

/-- Settles O14: start and stop differ in the flag they write only. -/
theorem seqOnOffRewinds : Obligations.SeqOnOffRewinds := by
  intro b s
  refine (withBool_some (operandBool_of_bool b) _ s).trans ?_
  cases b with
  | false => rfl
  | true => rfl

/-- Settles O15: the positive finite bit patterns are the operands legal for the tempo (R36). -/
theorem bpmWritesTempo : Obligations.BpmWritesTempo := fun v s hpos hfin =>
  withF32_of_accepts ((acceptsF32_legalPositive v).2 ⟨hpos, hfin⟩) _ s

/-- Settles O16: the three commands have no operand, so each always makes its one write. -/
theorem sequencerExtensionsComplete : Obligations.SequencerExtensionsComplete := fun _ => ⟨rfl, rfl, rfl⟩

/-- Settles O19: the three cases of `seqTick_cases`, with the firing condition of `tickFires_f64`. -/
theorem tickAdvancesOneStep : Obligations.TickAdvancesOneStep := by
  intro now s
  rw [perform_tick]
  rcases seqTick_cases Config.noteFreq now s with ⟨hf, ht⟩ | ⟨hf, hg, ht⟩ | ⟨hf, hg, ht⟩ <;>
    rw [tickFires_f64] at hf <;> rw [ht]
  · refine ⟨fun _ => rfl, fun hrun hle => ?_⟩
    simp [hrun, hle] at hf
  · refine ⟨fun h => ?_, fun _ _ => ⟨fun _ => rfl, fun h => ?_⟩⟩
    · rcases h with h | h <;> simp [h] at hf
    · exact absurd (hg.symm.trans h) Bool.false_ne_true
  · refine ⟨fun h => ?_, fun _ _ => ⟨fun h => ?_, fun _ => ?_⟩⟩
    · rcases h with h | h <;> simp [h] at hf
    · exact absurd (h.symm.trans hg) Bool.false_ne_true
    · rw [envTrigger, numF64_ofInt]
      rfl

/-- Settles O20: `6000 / 120` is exact in both readings, and rounding keeps the order of the times. -/
theorem stepIntervalAt120 : Obligations.StepIntervalAt120 := by
  refine ⟨fun q now hrun hbpm => tickFires_f64_of_120 hrun hbpm now, fun q now hrun =>
    ⟨tickFires_exact_of_running hrun now, fun hbpm => ?_⟩⟩
  have hinterval : (6000 / 120 : ℝ) = (50 : Int) := by norm_num
  rw [tickFires_exact_of_running hrun, hbpm, hinterval, Int.cast_le]

/-- Settles O21: each tick of such a row fires, so the row is as many single steps. -/
theorem spacedTicksAdvanceOneEach : Obligations.SpacedTicksAdvanceOneEach := by
  refine ⟨fun s times hrun hbpm hchain => ⟨_, performAll_ticks times s, ?_⟩, fun q times hrun hchain => ?_⟩
  · rw [foldl_seqTick_seq]
    exact foldl_seqAfter_of_due (fun q now hrun hbpm => (tickFires_f64_of_120 hrun hbpm now).2)
      times s.seq hrun hbpm hchain
  · exact foldl_seqAfter_of_due (bpm := q.bpm)
      (fun q' now hrun hbpm h => (tickFires_exact_of_running hrun now).2 (hbpm ▸ h)) times q hrun rfl hchain

/-- Settles O22: of all effects only `RESET` and the two of a firing tick write the timestamp. -/
theorem timestampOnlyFromFiringTick : Obligations.TimestampOnlyFromFiringTick := by
  intro e s t h hne
  rcases perform_effect h with rfl | h
  · exact absurd rfl hne
  cases h with
  | reset => exact .inl rfl
  | command w i t hw hc => exact absurd hc.keeps.last hne
  | tickNoGate now hf hg => exact .inr ⟨now, rfl, hf, rfl⟩
  | tickGate now hf hg => exact .inr ⟨now, rfl, hf, rfl⟩
  | _ => exact absurd rfl hne

end Sys2Proof.Machine

/-! Exceptions (60_exceptions.md): no event faults and none is refused, and no state disables every event. -/

namespace Sys2Proof.Machine

/-! ## Every event answers a next state -/

/-- A command word answers a next state, assigned or not (30_encoding.md R97; 60_exceptions.md R230). -/
theorem runCmd_next (w : CmdWord) (s : State) : ∃ t, runCmd w s = .next t := by
  rcases runCmd_cases w s with ⟨i, -, hrun⟩ | ⟨_, -, hrun⟩
  · rw [hrun]
    exact exec_next i s
  · exact ⟨s, hrun⟩

/-- Of the events that happen only a command word could stop the block, and none does. -/
theorem happen_next (e : Event) (s : State) : ∃ t, happen e s = .next t := by
  cases e with
  | cmd w => exact runCmd_next w s
  | _ => exact ⟨_, rfl⟩

/-- A presented event answers a next state, enabled or skipped (assumption log 8). -/
theorem perform_next (e : Event) (s : State) : ∃ t, perform e s = .next t := by
  rcases perform_cases e s with ⟨-, hperform⟩ | ⟨-, hperform⟩
  · rw [hperform]
    exact happen_next e s
  · exact ⟨s, hperform⟩

/-! ## Some event of each control producer is enabled

The flag `blocked` enables the one of `PRODUCE` and `PACE` that the other excludes (10_state.md R33,
40_control_channel.md R123). -/

theorem enabled_produceLfo_or_paceLfo (s : State) :
    enabled s .produceLfo = true ∨ enabled s .paceLfo = true :=
  (Bool.or_eq_true _ _).mp (Bool.not_or_self s.lfoBlocked)

theorem enabled_produceEg_or_paceEg (s : State) :
    enabled s .produceEg = true ∨ enabled s .paceEg = true :=
  (Bool.or_eq_true _ _).mp (Bool.not_or_self s.egBlocked)

/-! ## The obligation -/

/-- Settles O55: a step performs one event, which always answers a next state (`perform_next`); and a control
producer's flag enables either its `PRODUCE` or its `PACE`. -/
theorem everyStepAnswersNext : Obligations.EveryStepAnswersNext := fun s =>
  ⟨perform_next (nextEvent s).1 (nextEvent s).2, rfl, fun _ => rfl, fun _ => rfl,
    enabled_produceLfo_or_paceLfo s, enabled_produceEg_or_paceEg s⟩

end Sys2Proof.Machine

/-! Reset and the lockstep schedule of 70_reset_and_hazards.md: what `RESET` leaves, and what one period of
`SCHED_LOCKSTEP` (R275) emits.  A later period does what period 0 does once every node is unblocked, so
both are settled by period 0. -/

namespace Sys2Proof.Machine

/-! ## Events in a row -/

theorem performAll_cons {e : Event} {s t : State} (h : perform e s = .next t) (es : List Event) :
    performAll (e :: es) s = performAll es t := by
  rw [performAll, h]

/-- `PACE(x)` is enabled while `x` is blocked (40_control_channel.md R123), and then it happens. -/
theorem perform_paceLfo {s : State} (h : s.lfoBlocked = true) :
    perform .paceLfo s = .next (s.setLfoBlocked false) :=
  perform_enabled h

theorem perform_paceEg {s : State} (h : s.egBlocked = true) :
    perform .paceEg s = .next (s.setEgBlocked false) :=
  perform_enabled h

/-! ## A producer and the flags of the other nodes -/

section
variable (d : Option Nat) (s : State) (b : Bool)

@[simp] theorem produceLfo_egBlocked : (produceLfo d s).egBlocked = s.egBlocked := by
  simp [produceLfo_eq]

@[simp] theorem produceLfo_vcoBlocked : (produceLfo d s).vcoBlocked = s.vcoBlocked := by
  simp [produceLfo_eq]

@[simp] theorem produceEg_vcoBlocked : (produceEg d s).vcoBlocked = s.vcoBlocked := by
  simp [produceEg_eq]

theorem produceLfo_setEgBlocked :
    produceLfo d (s.setEgBlocked b) = (produceLfo d s).setEgBlocked b := by
  rw [produceLfo_eq, produceLfo_eq]
  rfl

theorem produceLfo_setVcoBlocked :
    produceLfo d (s.setVcoBlocked b) = (produceLfo d s).setVcoBlocked b := by
  rw [produceLfo_eq, produceLfo_eq]
  rfl

theorem produceEg_setVcoBlocked :
    produceEg d (s.setVcoBlocked b) = (produceEg d s).setVcoBlocked b := by
  rw [produceEg_eq, produceEg_eq, State.setVcoBlocked_eg]
  -- under a name, so that no comparison of states unfolds the 256 steps
  generalize envAfter numF64 bufferLen s.eg = after
  rfl

end

/-! ## One period of `SCHED_LOCKSTEP` -/

/-- The state in which period 0 ends: each node has produced once, the VCO's buffer not accepted. -/
def periodEnd (s : State) : State :=
  produceVco false (produceEg Config.ccDepth (produceLfo Config.ccDepth s))

/-- Every node unblocked, as `PACE(LFO)`, `PACE(EG)` and `READY` leave it. -/
def State.unblockAll (s : State) : State :=
  ((s.setLfoBlocked false).setEgBlocked false).setVcoBlocked false

/-- What R275 says a period from `s` to `t` does: the channels are quiet again, every node waits, and the
one buffer emitted is made of the three that the nodes rendered in this period. -/
def PeriodEffect (s t : State) : Prop :=
  ChannelsQuiet t ∧ (t.lfoBlocked = true ∧ t.egBlocked = true ∧ t.vcoBlocked = true) ∧
    t.out = s.out ++ [vcaProcess numF64 s.gain
      (oscRender numF64 s.vco (some (oscRender numF64 s.lfo (none : Option Buffer))))
      (some (envRender numF64 s.eg))]

theorem performAll_lockstepFirst {s : State} (hlfo : s.lfoBlocked = false) (heg : s.egBlocked = false)
    (hvco : s.vcoBlocked = false) : performAll lockstepFirst s = .next (periodEnd s) := by
  rw [lockstepFirst, performAll_cons (perform_produceLfo hlfo),
    performAll_cons (perform_produceEg (by rwa [produceLfo_egBlocked])),
    performAll_cons (perform_produceVco (by rwa [produceEg_vcoBlocked, produceLfo_vcoBlocked]) false),
    performAll, periodEnd]

/-- A later period unblocks each node just before it produces; unblocking all three at the start does the
same, because no producer reads or writes another node's flag. -/
theorem performAll_lockstepPeriod {s : State} (hlfo : s.lfoBlocked = true) (heg : s.egBlocked = true) :
    performAll lockstepPeriod s = .next (periodEnd s.unblockAll) := by
  rw [lockstepPeriod, performAll_cons (perform_paceLfo hlfo),
    performAll_cons (perform_produceLfo (State.setLfoBlocked_lfoBlocked s false)),
    performAll_cons (perform_paceEg (by rwa [produceLfo_egBlocked])),
    performAll_cons (perform_produceEg (State.setEgBlocked_egBlocked _ false)),
    performAll_cons (perform_ready _),
    performAll_cons (perform_produceVco (State.setVcoBlocked_vcoBlocked _ false) false), performAll,
    periodEnd, State.unblockAll, produceLfo_setVcoBlocked, produceLfo_setEgBlocked, produceEg_setVcoBlocked]

/-- From quiet channels the LFO and the envelope each leave one buffer, whatever the capacity
(`enqueue_empty`), and the VCO takes both. -/
theorem periodEnd_effect {s : State} (hquiet : ChannelsQuiet s) (hlfo : s.ccLfo = []) :
    PeriodEffect s (periodEnd s) := by
  obtain ⟨hfm, ham⟩ := hquiet
  rw [periodEnd]
  generalize hmid : produceEg Config.ccDepth (produceLfo Config.ccDepth s) = mid
  have hfmMid : mid.ccFm = [oscRender numF64 s.lfo none] := by
    simp [← hmid, produceEg_eq, produceLfo_eq, hfm, hlfo, enqueue_empty]
  have hamMid : mid.ccAm = [envRender numF64 s.eg] := by
    simp [← hmid, produceEg_eq, produceLfo_eq, ham, enqueue_empty]
  have hblockedMid : mid.lfoBlocked = true ∧ mid.egBlocked = true := by
    simp [← hmid, produceEg_eq, produceLfo_eq]
  have hkeptMid : mid.gain = s.gain ∧ mid.vco = s.vco ∧ mid.out = s.out := by
    simp [← hmid, produceEg_eq, produceLfo_eq]
  simp [PeriodEffect, ChannelsQuiet, produceVco_eq, hfmMid, hamMid, hblockedMid, hkeptMid]

/-! ## Reset -/

/-- Everything of R20 is written; only the model's own fields are kept (assumption log 10). -/
theorem resetBlock_atReset (s : State) : AtReset (resetBlock s) := rfl

/-! ## The obligations -/

/-- Settles O41: period 0 ends in `periodEnd s`, a later one in `periodEnd s.unblockAll`, and the flags are no
part of what a period renders. -/
theorem lockstepPeriodOutput : Obligations.LockstepPeriodOutput := by
  intro s hquiet hcc
  refine ⟨fun ⟨hlfo, heg, _⟩ => ?_, fun ⟨hlfo, heg, hvco⟩ => ?_⟩
  · have heffect : PeriodEffect s.unblockAll (periodEnd s.unblockAll) := periodEnd_effect hquiet hcc
    exact ⟨_, performAll_lockstepPeriod hlfo heg, heffect⟩
  · exact ⟨_, performAll_lockstepFirst hlfo heg hvco, periodEnd_effect hquiet hcc⟩

/-- Settles O43: the event is `resetBlock`, in any state. -/
theorem resetEventRestoresTable : Obligations.ResetEventRestoresTable := fun s =>
  ⟨resetBlock s, perform_reset s, resetBlock_atReset s, resetBlock_out s, resetBlock_answers s,
    resetBlock_pending s, resetBlock_drawn s⟩

end Sys2Proof.Machine
